-- ==== Sys2Proof/Word.lean ====
section
/-! DEFINITION. The words TIA's ports carry, and the two transports that carry them. -/
namespace Sys2Proof

/-- One byte: a CPU id, a line id, an opcode, a fault or diagnostic code, a shared-memory byte. -/
abbrev Byte := BitVec 8

/-- A 32-bit command header (30_encoding.md R65, R66). -/
abbrev HeaderWord := BitVec 32

/-- A 64-bit operand, response, time, period, handle or payload word (R7, R67, R68). -/
abbrev Word := BitVec 64

/-- An address of the shared address space: ADDR_BITS = 16 (R7, R53). -/
abbrev Address := BitVec 16

/-- A word of a word-wide transport: a header word or an operand word, delivered whole (R56). -/
inductive PortWord where
  | w32 (h : HeaderWord)
  | w64 (o : Word)
deriving DecidableEq, Repr

/-- What a command port still holds, first word first: the words offered and not yet taken. They are finitely many
at every instant; the environment offers more when TIA waits (Config.offer, log 1). A byte-wide transport carries bytes, least
significant byte of each word first; a word-wide one carries whole words (R55, R56, R216). -/
inductive Port where
  | byteWide (bytes : List Byte)
  | wordWide (words : List PortWord)
deriving DecidableEq, Repr

end Sys2Proof
end

