-- ==== Sys2Proof/Config.lean ====
section
/-! DEFINITION. The parameters of 00_scope.md R7 and the values the spec leaves free. Nothing here that
is `opaque` has a body: no proof can see its value. -/
namespace Sys2Proof

/-- The OPEN parameters of R7. TIME_BITS, HANDLE_BITS, PAYLOAD_BITS = 64, ADDR_BITS = 16,
DATA_BITS = 8, NUM_CPUS = NUM_LINES = 2 and FRAME_ORIGIN = 0 are fixed there and stand in the types.
R7 bounds L, N and H by no width: they are natural numbers. -/
structure Params where
  /-- LINE_PERIOD, L: ticks per scanline. -/
  linePeriod : Nat
  /-- TOTAL_SCANLINES, N: scanlines per frame. -/
  totalScanlines : Nat
  /-- HBLANK_START, H: tick offset inside a scanline at which horizontal blank begins. -/
  hblankStart : Nat
  /-- SECONDARY_RESET_VECTOR, below 2^ADDR_BITS by its type. -/
  secondaryResetVector : Address
  /-- QUEUE_CAPACITY; `none` is "unbounded". -/
  queueCapacity : Option Nat
deriving DecidableEq, Repr

/-- The constraints of R7 that R8 enforces: L >= 2, N >= 1, 0 < H < L. -/
def Params.valid (p : Params) : Bool :=
  decide (2 ≤ p.linePeriod) && decide (1 ≤ p.totalScanlines) &&
    decide (0 < p.hblankStart) && decide (p.hblankStart < p.linePeriod)

namespace Config

/-- OPEN (R7): the raw choice of LINE_PERIOD. -/
opaque rawLinePeriod : Nat
/-- OPEN (R7): the raw choice of TOTAL_SCANLINES. -/
opaque rawTotalScanlines : Nat
/-- OPEN (R7): the raw choice of HBLANK_START. -/
opaque rawHblankStart : Nat
/-- OPEN (R7): SECONDARY_RESET_VECTOR. -/
opaque secondaryResetVector : Address
/-- OPEN (R7): QUEUE_CAPACITY, `none` for unbounded. -/
opaque queueCapacity : Option Nat

/-- LINE_PERIOD: every value >= 2 and no other (R7, R8). -/
def linePeriod : Nat := if 2 ≤ rawLinePeriod then rawLinePeriod else 2

/-- TOTAL_SCANLINES: every value >= 1 and no other (R7, R8). -/
def totalScanlines : Nat := if 1 ≤ rawTotalScanlines then rawTotalScanlines else 1

/-- HBLANK_START: every value H with 0 < H < L and no other (R7, R8). -/
def hblankStart : Nat :=
  if 0 < rawHblankStart ∧ rawHblankStart < linePeriod then rawHblankStart else 1

/-- The configuration of the machine: any that meets R8, and only such a one (log 4). -/
def params : Params :=
  { linePeriod := linePeriod, totalScanlines := totalScanlines, hblankStart := hblankStart,
    secondaryResetVector := secondaryResetVector, queueCapacity := queueCapacity }

/-- FREE VALUE (log 6): the shared-memory oracle of R38 and R53. `sharedByte n a last` is the byte that
answers the n-th MemRead, made at address `a`, where `last` is the byte TIA itself last wrote there. -/
opaque sharedByte (n : Nat) (a : Address) (last : Option Byte) : Byte

/-- FREE VALUE (log 7): the operand a receiver on a word-wide transport takes from a 32-bit word that is
delivered where an operand word is expected (possible only after R216's loss of step). -/
opaque shortOperand (h : HeaderWord) : Word

/-- FREE VALUE (log 24): the response word RDSCAN answers for a number that no 64-bit word holds: an N or an H
of 2^64 or more, which R7 admits and R116 gives no word for. -/
opaque wideWord (n : Nat) : Word

/-- FREE VALUE (log 1): the environment of R38, the host's command stream and the client-device oracle.
`offer n` is what the two offer on the command port, the host's words and the client's words, the n-th time
TIA waits for a whole command; two empty lists are an environment that stays silent. -/
opaque offer (n : Nat) : List PortWord × List PortWord

end Config

end Sys2Proof
end

