-- ==== Sys2Proof/Syntax.lean ====
section
/-! DEFINITION. The abstract commands of 30_encoding.md R83, one constructor per row of opcode_table.json. -/
namespace Sys2Proof

/-- The 19 commands. Operands are as R83 gives them: `t` and `p` of SCHED are the integers that R74 and
R75 read from their words; handles, times, payloads, scanlines, addresses and data are u64 words; CPU and
line ids are u8. `badFields` and `unknown` of R83 are no rows of the table: they are results of the decoder. -/
inductive Instr where
  /-- 0x00 NOP (R170). -/
  | nop
  /-- 0x01 STATUS (R171). -/
  | status
  /-- 0x10 SCHED (R100): A, T, R, P, Y. -/
  | sched (absolute : Bool) (t : Int) (recurring : Bool) (p : Int) (y : Word)
  /-- 0x11 CANCEL (R103): HND. -/
  | cancel (h : Word)
  /-- 0x12 ADVANCE (R104): T. -/
  | advance (t : Word)
  /-- 0x13 CBDONE (R110). -/
  | cbdone
  /-- 0x14 RDNOW (R114). -/
  | rdnow
  /-- 0x15 QUERY (R115): HND. -/
  | query (h : Word)
  /-- 0x16 RDSCAN (R116). -/
  | rdscan
  /-- 0x20 IRQ.SET (R130): CPU, LINE. -/
  | irqSet (c l : Byte)
  /-- 0x21 IRQ.CLR (R131): CPU, LINE. -/
  | irqClr (c l : Byte)
  /-- 0x22 IRQ.PER (R132): CPU, LINE, S. -/
  | irqPer (c l : Byte) (s : Word)
  /-- 0x23 IRQ.RD (R136): CPU, LINE. -/
  | irqRd (c l : Byte)
  /-- 0x30 ARB.EN (R150): E. -/
  | arbEn (e : Bool)
  /-- 0x31 ARB.RST (R153). -/
  | arbRst
  /-- 0x32 ARB.BA (R154): B. -/
  | arbBa (b : Bool)
  /-- 0x33 ARB.RD (R155): CPU, ADR. -/
  | arbRd (c : Byte) (a : Word)
  /-- 0x34 ARB.WR (R156): CPU, ADR, DAT. -/
  | arbWr (c : Byte) (a d : Word)
  /-- 0x35 ARB.RDS (R157). -/
  | arbRds
deriving DecidableEq, Repr

end Sys2Proof
end

