-- ==== Sys2Proof/Machine/State.lean ====
section
/-! DEFINITION. The state of TIA: the numbered items of 10_state.md R37, the ports of R32 and R33, the
shared memory as far as TIA has written it, and the power-on state of 70_reset_and_hazards.md R210. -/
namespace Sys2Proof.Machine

/-! ## TMR (R21 to R26) -/

/-- What an event does when it fires (R21, D40). Ids are typed: R138 has checked them at IRQ.PER. -/
inductive Payload where
  /-- Handed to a client device as `fire(handle, y, time)`. -/
  | ext (y : Word)
  /-- Performed inside ILC: LineAssert(c, l). -/
  | irqAssert (c l : Fin 2)
  /-- Performed inside ILC: LineClear(c, l). -/
  | irqClear (c l : Fin 2)
deriving DecidableEq, Repr

/-- One event (R21). `seq` has no width (R22, 90_conflicts.md C10). -/
structure Entry where
  handle : Word
  fireTime : Word
  payload : Payload
  recurring : Bool
  period : Word
  seq : Nat
deriving DecidableEq, Repr

/-- R24: which agent may step. -/
inductive Phase where
  /-- Commands are taken from the host. -/
  | idle
  /-- An ADVANCE to `T` is in progress; only the drain engine steps. -/
  | draining (T : Word)
  /-- An external event has fired during an ADVANCE to `T`; commands are taken from the client. -/
  | callback (T : Word)
deriving DecidableEq, Repr

/-- R25: the external event whose callback is in progress, as it was when removed from Q, and its live bit. -/
structure CurEvent where
  entry : Entry
  live : Bool
deriving DecidableEq, Repr

/-- The state items of R37, in the order of its numbers; a value of this type is also the tuple of a
snapshot (R36). `queue` is Q as the list sorted by (fire_time, seq). -/
structure Items where
  /-- 0: TMR's time. -/
  now : Word
  /-- 1: the seq of the next insertion. -/
  nextSeq : Nat
  /-- 2: the handle of the next new event. -/
  nextHandle : Word
  /-- 3 -/
  phase : Phase
  /-- 4 -/
  cur : Option CurEvent
  /-- 5: Q. -/
  queue : List Entry
  /-- 6: one level per CPU id and line id. -/
  asserted : Vector (Vector Bool 2) 2
  /-- 7 -/
  secondaryEnabled : Bool
  /-- 8 -/
  resetPending : Bool
  /-- 9 -/
  primaryHalted : Bool
  /-- 10 -/
  secondaryHalted : Bool
  /-- 11 -/
  ba : Bool
  /-- 12: 0, or the code of the first fault. -/
  fault : Byte
  /-- 13: counts diagnostics modulo 2^64. -/
  diagCount : Word
  /-- 14: 0, or the code of the most recent diagnostic. -/
  lastDiag : Byte
deriving DecidableEq, Repr

/-! ## Ports (R32, R33) -/

/-- A message to the CPU-stepping abstraction (R32), with the source's names. -/
inductive CpuMsg where
  | assertLine (c l : Fin 2)
  | clearLine (c l : Fin 2)
  | setProgramCounter (c : Fin 2) (a : Address)
  | halt (c : Fin 2)
  | run (c : Fin 2)
deriving DecidableEq, Repr

/-- What TIA sends or does outside itself, in the one total order of 20_memory.md R51. -/
inductive Msg where
  /-- CPU port, stamped with the value of `now` when it was emitted. -/
  | cpu (m : CpuMsg) (stamp : Word)
  /-- FIRE port. -/
  | fire (handle y time : Word)
  /-- RESP port: one response word. -/
  | resp (w : Word)
  /-- DIAG port: a diagnostic's record. -/
  | diag (code opc : Byte)
  /-- DIAG port: a fault's record. -/
  | fault (code opc : Byte)
  /-- DONE port: `advance_done(T)`. -/
  | done (T : Word)
  /-- A one-byte read of the shared address space and its answer (R53, R54). -/
  | memRead (a : Address) (v : Byte)
  /-- A one-byte write of the shared address space (R53, R54). -/
  | memWrite (a : Address) (v : Byte)
  /-- The tuple a SNAPSHOT returns to the host (R173). -/
  | snapshot (t : Items)
deriving DecidableEq, Repr

/-- A host operation outside the command port (R173). -/
inductive HostOp where
  | snapshot
  | restore (t : Items)
deriving DecidableEq, Repr

/-- The whole state of the machine. -/
structure State where
  /-- The configuration of R7; the model's own field, written by no step (log 4). -/
  cfg : Params
  /-- The numbered state items of R37. -/
  items : Items
  /-- The bytes TIA has stored in the shared address space, addresses strictly rising (R53, log 6). -/
  mem : List Host.Cell
  /-- Words the host has offered on the command port and TIA has not taken (R33); the host offers more when TIA
  waits (log 1). -/
  hostPort : Port
  /-- Words the client device has offered and TIA has not taken (R33); the client offers more when TIA waits
  (log 1). -/
  clientPort : Port
  /-- A host operation asked for and not yet served; the model's own field (R173, log 15). -/
  hostOp : Option HostOp
  /-- Everything sent on the output ports and every shared-memory access, oldest first (R32, R51, R54). -/
  history : List Msg
  /-- How many MemReads have been answered; the model's own field, the index of the free answer (log 6). -/
  memReads : Nat
  /-- How many times the environment has offered words while TIA waited; the model's own field, the index of the
  free offer (log 1). -/
  offers : Nat
deriving DecidableEq, Repr

/-- Why no step is possible. These are not TIA's faults of R181: those are next states with `fault` set (log 3). -/
inductive Fault where
  /-- Raised by `step` when the command port holds no whole command, no other agent may step and the environment
  offers nothing: the stuck wait of R198 (R24, R52). Safe: the machine does nothing either (log 2). -/
  | awaitingCommand
  /-- Raised by CBDONE when the phase is CALLBACK and `cur` is none, which R25 excludes: no rule says what
  happens, and no reachable state is such. Safe: the model stops (log 9). -/
  | callbackWithoutEvent
deriving DecidableEq, Repr

/-- Why the model gives no meaning. -/
inductive Refusal where
  /-- Raised by `exec` for an instruction without a meaning; no arm does so. Safe: the model stops. -/
  | notModelled (mnemonic : String)
  /-- Raised by `step` in IDLE when a RESTORE is asked for whose tuple breaks R34 or is no tuple of R36 (R173: it has
  no step), no whole command is there and the environment offers nothing. Safe: TIA does nothing there either
  (log 15). -/
  | restoreBreaksInvariant
  /-- Raised by `step` in IDLE when a RESTORE is asked for while `fault != 0` (R184 refuses it), no whole command is
  there and the environment offers nothing. Safe: TIA does nothing there either (log 15). -/
  | restoreWhileFaulted
deriving DecidableEq, Repr

/-- The state items at power-on (R37, R210): its two parts, the second the action of ARB.RST. -/
def Items.powerOn : Items :=
  { now := 0, nextSeq := 0, nextHandle := 1, phase := .idle, cur := none, queue := [],
    asserted := #v[#v[false, false], #v[false, false]],
    secondaryEnabled := false, resetPending := true, primaryHalted := false, secondaryHalted := true,
    ba := false, fault := 0, diagCount := 0, lastDiag := 0 }

/-- The state right after power-on of a machine with configuration `p` (R210, R211): the CPU port holds
`halt(1) @ 0, run(0) @ 0`, every other port is empty and nothing is stored or offered. -/
def State.initial (p : Params) : State :=
  { cfg := p, items := Items.powerOn, mem := [], hostPort := .byteWide [], clientPort := .byteWide [],
    hostOp := none, history := [.cpu (.halt 1) 0, .cpu (.run 0) 0], memReads := 0, offers := 0 }

/-- R8, R210: a configuration that breaks R7 has no power-on state. -/
def State.powerOn? (p : Params) : Option State := if p.valid then some (State.initial p) else none

/-- The machine right after reset: power-on with any configuration that meets R8. -/
def State.reset : State := State.initial Config.params

end Sys2Proof.Machine
end

