-- ==== Sys2Proof/Machine/Ops.lean ====
section
/-! DEFINITION. The named operations over the shared memory, the ports, the event set, the lines and the
halt bits, and the one way a fault is raised and a diagnostic recorded. -/
namespace Sys2Proof.Machine

/-- The answer of a meaning. -/
abbrev Result := Host.Outcome State Fault Refusal

/-! ## Codes (60_exceptions.md R181, R182) -/

/-- The fault codes of R181. -/
inductive FaultCode where
  | nonposPeriod | badId | badScanline | timeOverflow | reentrant | queueFull | handleExhausted
deriving DecidableEq, Repr

/-- The value `fault` takes (R181). -/
def faultCode : FaultCode → Byte
  | .nonposPeriod => 0x01
  | .badId => 0x02
  | .badScanline => 0x03
  | .timeOverflow => 0x04
  | .reentrant => 0x05
  | .queueFull => 0x06
  | .handleExhausted => 0x07

/-- The diagnostic codes of R182. -/
inductive DiagCode where
  | unknownOpcode | reservedField | staleHandle | timeBackward | haltedAccess | cbDoneIdle
deriving DecidableEq, Repr

/-- The value `last_diag` takes (R182). -/
def diagCode : DiagCode → Byte
  | .unknownOpcode => 0x01
  | .reservedField => 0x02
  | .staleHandle => 0x03
  | .timeBackward => 0x04
  | .haltedAccess => 0x05
  | .cbDoneIdle => 0x06

/-! ## Output ports (R10, R32) -/

/-- `emit Port.msg` (R10). -/
def State.emit (s : State) (m : Msg) : State := { s with history := s.history ++ [m] }

/-- A message on the CPU port, stamped with `now` (R32). -/
def State.emitCpu (s : State) (m : CpuMsg) : State := s.emit (.cpu m s.items.now)

/-- `respond(w0, ..., wk)` (R10). -/
def State.respond (s : State) (ws : List Word) : State := { s with history := s.history ++ ws.map .resp }

/-- The CPU port's history, with time stamps (R32). -/
def State.cpuPort (s : State) : List (CpuMsg × Word) :=
  s.history.filterMap fun | .cpu m t => some (m, t) | _ => none

/-- The FIRE port's history: handle, payload, time (R32). -/
def State.firePort (s : State) : List (Word × Word × Word) :=
  s.history.filterMap fun | .fire h y t => some (h, y, t) | _ => none

/-- The RESP port's history (R32). -/
def State.respPort (s : State) : List Word :=
  s.history.filterMap fun | .resp w => some w | _ => none

/-- The DIAG port's history: diagnostics and faults (R32, R183, R186). -/
def State.diagPort (s : State) : List Msg :=
  s.history.filter fun | .diag _ _ => true | .fault _ _ => true | _ => false

/-- The DONE port's history (R32). -/
def State.donePort (s : State) : List Word :=
  s.history.filterMap fun | .done t => some t | _ => none

/-- The record of the shared-memory accesses (R54). -/
def State.busRecord (s : State) : List Msg :=
  s.history.filter fun | .memRead _ _ => true | .memWrite _ _ => true | _ => false

/-! ## Faults and diagnostics -/

/-- `raise Fault(code)` (R183), TIA's nearest thing to trap entry (R190): `fault` takes the code, the DIAG
port gets the record, and nothing else changes. A meaning applies it to the state it was given, so every
other write of the step is discarded. There is no return from it (R191). -/
def State.raiseFault (s : State) (f : FaultCode) (opc : Byte) : State :=
  { s with items.fault := faultCode f, history := s.history ++ [.fault (faultCode f) opc] }

/-- `diag(code)` (R186): counts modulo 2^64, keeps the code, records it on the DIAG port. -/
def State.recordDiag (s : State) (d : DiagCode) (opc : Byte) : State :=
  { s with items.diagCount := s.items.diagCount + 1, items.lastDiag := diagCode d,
           history := s.history ++ [.diag (diagCode d) opc] }

/-- R184, check 1 of R187: while `fault != 0` a command other than STATUS is ignored. -/
def State.unlessFaulted (s : State) (f : State → State) : State := if s.items.fault = 0 then f s else s

/-! ## The event set (R10, R21, R107) -/

/-- The order of the keys (fire_time, seq). -/
def Entry.before (a b : Entry) : Bool :=
  decide (a.fireTime.toNat < b.fireTime.toNat) ||
    (decide (a.fireTime.toNat = b.fireTime.toNat) && decide (a.seq < b.seq))

/-- `insert(Q, e)`, keeping the list sorted by key. -/
def insertEntry (e : Entry) : List Entry → List Entry
  | [] => [e]
  | x :: xs => if e.before x then e :: x :: xs else x :: insertEntry e xs

/-- `remove(Q, h)`. -/
def removeHandle (h : Word) (q : List Entry) : List Entry := q.filter fun e => e.handle != h

/-- The entry of Q whose handle is `h`. -/
def findHandle (h : Word) (q : List Entry) : Option Entry := q.find? fun e => e.handle == h

/-- D of R106: the entries due by `T`. -/
def dueEntries (T : Word) (q : List Entry) : List Entry :=
  q.filter fun e => decide (e.fireTime.toNat ≤ T.toNat)

/-- `min_key(S)` of R10; `none` for the empty set. -/
def minKey : List Entry → Option Entry
  | [] => none
  | x :: xs =>
    match minKey xs with
    | none => some x
    | some y => if y.before x then some y else some x

/-- `occ`: the event slots in use (R34(e), 40_timer.md). -/
def Items.occ (t : Items) : Nat :=
  t.queue.length + (match t.cur with
    | some c => if c.live then 1 else 0
    | none => 0)

/-- Whether QUEUE_CAPACITY admits `n` events at once. -/
def roomFor (p : Params) (n : Nat) : Bool :=
  match p.queueCapacity with
  | none => true
  | some c => decide (n ≤ c)

/-- The next re-arm time of `e`, an exact number (R9, R111). -/
def rearmTime (e : Entry) : Nat := e.fireTime.toNat + e.period.toNat

/-- Rearm(e) (R111): the same event at fire_time + period with a fresh seq. Used only where that time is
below 2^64. -/
def State.rearm (s : State) (e : Entry) : State :=
  { s with
    items.queue := insertEntry { e with fireTime := BitVec.ofNat 64 (rearmTime e), seq := s.items.nextSeq }
      s.items.queue,
    items.nextSeq := s.items.nextSeq + 1 }

/-- Inserts a new event under the next handle and the next seq (R22, R23). -/
def State.insertNew (s : State) (fireTime : Nat) (payload : Payload) (recurring : Bool) (period : Word) : State :=
  { s with
    items.queue := insertEntry
      { handle := s.items.nextHandle, fireTime := BitVec.ofNat 64 fireTime, payload := payload,
        recurring := recurring, period := period, seq := s.items.nextSeq } s.items.queue,
    items.nextHandle := s.items.nextHandle + 1,
    items.nextSeq := s.items.nextSeq + 1 }

/-! ## Interrupt lines (41_interrupt.md R134) -/

/-- `asserted[c][l]`. -/
def Items.line (t : Items) (c l : Fin 2) : Bool := t.asserted[c][l]

/-- Writes `asserted[c][l]`. -/
def State.setLine (s : State) (c l : Fin 2) (v : Bool) : State :=
  { s with items.asserted := s.items.asserted.set c (s.items.asserted[c].set l v) }

/-- LineAssert(c, l): coalesced when the line is asserted already. -/
def State.lineAssert (s : State) (c l : Fin 2) : State :=
  if s.items.line c l then s else (s.setLine c l true).emitCpu (.assertLine c l)

/-- LineClear(c, l): coalesced when the line is clear already. -/
def State.lineClear (s : State) (c l : Fin 2) : State :=
  if s.items.line c l then (s.setLine c l false).emitCpu (.clearLine c l) else s

/-! ## Arbiter (42_arbiter.md R150 to R153) -/

/-- HaltSwapOutputs(e) (R152): the halt before the run. -/
def State.haltSwapOutputs (s : State) (e : Bool) : State :=
  if e then (s.emitCpu (.halt 0)).emitCpu (.run 1) else (s.emitCpu (.halt 1)).emitCpu (.run 0)

/-- Writes enabled and both halt bits together (R150, R153). -/
def State.setEnabled (s : State) (e : Bool) : State :=
  { s with items.secondaryEnabled := e, items.primaryHalted := e, items.secondaryHalted := !e }

/-- Whether CPU `c` is halted (R155, R156). -/
def Items.halted (t : Items) (c : Fin 2) : Bool := if c = 0 then t.primaryHalted else t.secondaryHalted

/-! ## Shared memory (20_memory.md R53, R54) -/

/-- The byte TIA last stored at address `a`; `none` where it has stored none. -/
def memLookup (m : List Host.Cell) (a : Nat) : Option Byte :=
  match m with
  | [] => none
  | (b, v) :: rest => if b = a then some v else memLookup rest a

/-- Stores byte `v` at `a`, keeping the addresses strictly rising. -/
def memStore (m : List Host.Cell) (a : Nat) (v : Byte) : List Host.Cell :=
  match m with
  | [] => [(a, v)]
  | (b, w) :: rest =>
    if a < b then (a, v) :: (b, w) :: rest
    else if a = b then (a, v) :: rest
    else (b, w) :: memStore rest a v

/-- The canonical form: addresses strictly rising, each below 2^ADDR_BITS. What an unlisted address reads
as is `none`, which no listed byte equals. -/
def Memory.wf : List Host.Cell → Bool
  | [] => true
  | [(b, _)] => decide (b < 2 ^ 16)
  | (b, _) :: (c, w) :: rest => decide (b < c) && Memory.wf ((c, w) :: rest)

/-- What MemRead(a, 1) answers now: a free byte (log 6). -/
def State.memAnswer (s : State) (a : Address) : Byte :=
  Config.sharedByte s.memReads a (memLookup s.mem a.toNat)

/-- MemRead(a, 1): records the access and counts it. -/
def State.memRead (s : State) (a : Address) : State :=
  { s with history := s.history ++ [.memRead a (s.memAnswer a)], memReads := s.memReads + 1 }

/-- MemWrite(a, 1, v): stores and records. -/
def State.memWrite (s : State) (a : Address) (v : Byte) : State :=
  { s with mem := memStore s.mem a.toNat v, history := s.history ++ [.memWrite a v] }

end Sys2Proof.Machine
end

