-- ==== Sys2Proof/Machine/Operands.lean ====
section
/-! DEFINITION. How the commands read their operands: times, ids, handles, scanlines, addresses and data. -/
namespace Sys2Proof.Machine

/-- IDLE_VALUE (R7, D23): what an arbitrated read answers while its target CPU is halted. -/
def idleValue : Byte := 0xFF

/-- FRAME_ORIGIN (R7): the time of the start of scanline 0 of frame 0. -/
def frameOrigin : Nat := 0

/-- FireTime(A, T) (R101): the requested time, or `now` if that is later; an exact number. -/
def fireTime (now : Word) (absolute : Bool) (t : Int) : Nat :=
  (max (now.toNat : Int) (if absolute then t else (now.toNat : Int) + t)).toNat

/-- The line an ILC command names; `none` when an id is out of range (R138). -/
def lineOf (c l : Byte) : Option (Fin 2 × Fin 2) :=
  if h : c.toNat < 2 ∧ l.toNat < 2 then some (⟨c.toNat, h.1⟩, ⟨l.toNat, h.2⟩) else none

/-- The CPU an arbitrated access names; `none` when the id is above 1 (R155, R156). -/
def cpuOf (c : Byte) : Option (Fin 2) := if h : c.toNat < 2 then some ⟨c.toNat, h⟩ else none

/-- The address operand; `none` when it is 2^ADDR_BITS or more, a reserved operand value (R78). -/
def addressOf (a : Word) : Option Address := if a.toNat < 2 ^ 16 then some (a.extractLsb' 0 16) else none

/-- The data operand; `none` when it is 2^DATA_BITS or more, a reserved operand value (R78). -/
def dataOf (d : Word) : Option Byte := if d.toNat < 2 ^ 8 then some (d.extractLsb' 0 8) else none

/-- What a handle names (R35): an event in Q, the live event whose callback is in progress, or nothing. -/
inductive HandleMeaning where
  | queued (e : Entry)
  | firing (c : CurEvent)
  | stale
deriving DecidableEq, Repr

/-- Looks a handle up, Q first (R103, R115). -/
def Items.lookup (t : Items) (h : Word) : HandleMeaning :=
  match findHandle h t.queue with
  | some e => .queued e
  | none =>
    match t.cur with
    | some c => if c.live && c.entry.handle == h then .firing c else .stale
    | none => .stale

/-- R35: `h` is valid. -/
def Items.validHandle (t : Items) (h : Word) : Bool :=
  match t.lookup h with
  | .queued _ => true
  | .firing _ => true
  | .stale => false

/-- FP = N * L: the frame period in ticks, an exact number (41_interrupt.md). -/
def framePeriod (p : Params) : Nat := p.totalScanlines * p.linePeriod

/-- FirstAssert(s) (R133): the earliest start of scanline `s` at or after `now`. -/
def firstAssert (p : Params) (now : Word) (s : Nat) : Nat :=
  let t0 := frameOrigin + s * p.linePeriod
  if now.toNat ≤ t0 then t0
  else t0 + ((now.toNat - t0 + (framePeriod p - 1)) / framePeriod p) * framePeriod p

/-- current_scanline (R27): computed from `now`, never stored. -/
def currentScanline (p : Params) (now : Word) : Nat :=
  ((now.toNat - frameOrigin) / p.linePeriod) % p.totalScanlines

/-- A parameter as a response word (R116): the number itself where 64 bits hold it, else a free value (log 24). -/
def parameterWord (n : Nat) : Word := if n < 2 ^ 64 then BitVec.ofNat 64 n else Config.wideWord n

end Sys2Proof.Machine
end

