-- ==== Sys2Proof/Machine/Flags.lean ====
section
/-! DEFINITION. The status words TIA computes from its state. It has no condition flags (10_state.md R20, R31). -/
namespace Sys2Proof.Machine

/-- `pcode` of R171. -/
def phaseCode : Phase → BitVec 2
  | .idle => 0
  | .draining _ => 1
  | .callback _ => 2

/-- `tgt` of R171. -/
def phaseTarget : Phase → Word
  | .idle => 0
  | .draining T => T
  | .callback T => T

/-- STATUS's four words (R171). -/
def statusWords (t : Items) : List Word :=
  [(phaseCode t.phase ++ t.fault).zeroExtend 64, t.diagCount, t.lastDiag.zeroExtend 64, phaseTarget t.phase]

/-- `kind` of R115. -/
def payloadKind : Payload → BitVec 2
  | .ext _ => 0
  | .irqAssert _ _ => 1
  | .irqClear _ _ => 2

/-- QUERY's w3 (R115): the payload of an external event, the CPU and line ids of an internal one. -/
def payloadWord : Payload → Word
  | .ext y => y
  | .irqAssert c l => (BitVec.ofNat 8 c.val ++ BitVec.ofNat 8 l.val).zeroExtend 64
  | .irqClear c l => (BitVec.ofNat 8 c.val ++ BitVec.ofNat 8 l.val).zeroExtend 64

/-- QUERY's four words for a valid handle (R115): w0 has bit 0 valid, bit 1 recurring, bit 2 firing,
bits 9:8 kind. -/
def queryWords (e : Entry) (firing : Bool) : List Word :=
  [(payloadKind e.payload ++ 0#5 ++ BitVec.ofBool firing ++ BitVec.ofBool e.recurring ++ 1#1).zeroExtend 64,
    e.fireTime, e.period, payloadWord e.payload]

/-- ARB.RDS's word (R157): bit 0 enabled, 1 reset_pending, 2 primary_halted, 3 secondary_halted, 4 ba. -/
def arbiterWord (t : Items) : Word :=
  (BitVec.ofBool t.ba ++ BitVec.ofBool t.secondaryHalted ++ BitVec.ofBool t.primaryHalted ++
    BitVec.ofBool t.resetPending ++ BitVec.ofBool t.secondaryEnabled).zeroExtend 64

/-- A line's level as a response word (R136). -/
def levelWord (v : Bool) : Word := (BitVec.ofBool v).zeroExtend 64

end Sys2Proof.Machine
end

