-- ==== Sys2Proof/Machine/Arb.lean ====
section
/-! DEFINITION. ARB (42_arbiter.md): the meanings of ARB.EN, ARB.RST, ARB.BA, ARB.RD, ARB.WR and ARB.RDS. -/
namespace Sys2Proof.Machine

/-- The reset-vector install (R151): sent in the step that clears `reset_pending`. -/
def State.installResetVector (s : State) : State :=
  { s.emitCpu (.setProgramCounter 1 s.cfg.secondaryResetVector) with items.resetPending := false }

/-- The body of ARB.EN (R150). -/
def State.arbEnable (s : State) (e : Bool) : State :=
  let s1 := if s.items.secondaryEnabled = false ∧ e = true ∧ s.items.resetPending = true
    then s.installResetVector else s
  (s1.setEnabled e).haltSwapOutputs e

/-- ARB.EN (R150). -/
def execArbEn (e : Bool) (s : State) : Result := .next (s.unlessFaulted fun s => s.arbEnable e)

/-- The body of ARB.RST (R153). -/
def State.arbReset (s : State) : State :=
  (State.setEnabled { s with items.resetPending := true } false).haltSwapOutputs false

/-- ARB.RST (R153). -/
def execArbRst (s : State) : Result := .next (s.unlessFaulted State.arbReset)

/-- ARB.BA (R154): recorded only, under the coarse bus model (R160). -/
def execArbBa (b : Bool) (s : State) : Result :=
  .next (s.unlessFaulted fun s => { s with items.ba := b })

/-- The body of ARB.RD (R155). -/
def State.arbRead (s : State) (c : Byte) (a : Word) : State :=
  match cpuOf c with
  | none => s.raiseFault .badId 0x33
  | some c =>
    match addressOf a with
    | none => (s.recordDiag .reservedField 0x33).respond [0]
    | some a =>
      if s.items.halted c then (s.recordDiag .haltedAccess 0x33).respond [idleValue.zeroExtend 64]
      else (s.memRead a).respond [(s.memAnswer a).zeroExtend 64]

/-- ARB.RD (R155). -/
def execArbRd (c : Byte) (a : Word) (s : State) : Result := .next (s.unlessFaulted fun s => s.arbRead c a)

/-- The body of ARB.WR (R156): a write to a halted CPU's side is dropped. -/
def State.arbWrite (s : State) (c : Byte) (a d : Word) : State :=
  match cpuOf c with
  | none => s.raiseFault .badId 0x34
  | some c =>
    match addressOf a with
    | none => s.recordDiag .reservedField 0x34
    | some a =>
      match dataOf d with
      | none => s.recordDiag .reservedField 0x34
      | some v => if s.items.halted c then s.recordDiag .haltedAccess 0x34 else s.memWrite a v

/-- ARB.WR (R156). -/
def execArbWr (c : Byte) (a d : Word) (s : State) : Result := .next (s.unlessFaulted fun s => s.arbWrite c a d)

/-- ARB.RDS (R157). -/
def execArbRds (s : State) : Result := .next (s.unlessFaulted fun s => s.respond [arbiterWord s.items])

end Sys2Proof.Machine
end

