-- ==== Sys2Proof/WellFormed.lean ====
section
/-! DEFINITION. The operand ranges that 30_encoding.md R83 puts on an abstract command. -/
namespace Sys2Proof

/-- `v` lies in [-2^63, 2^63), what s64 of R9 can give. -/
def inS64 (v : Int) : Bool := decide (-2 ^ 63 ≤ v) && decide (v < 2 ^ 63)

/-- `v` lies in [0, 2^64), what u64 of R9 can give. -/
def inU64 (v : Int) : Bool := decide (0 ≤ v) && decide (v < 2 ^ 64)

/-- R83: SCHED's time lies in the u64 range when absolute and in the s64 range when it is a delay, and its
period in the s64 range. Every other operand has its range by its type. -/
def Instr.wf : Instr → Bool
  | .sched absolute t _ p _ => (if absolute then inU64 t else inS64 t) && inS64 p
  | .nop => true
  | .status => true
  | .cancel _ => true
  | .advance _ => true
  | .cbdone => true
  | .rdnow => true
  | .query _ => true
  | .rdscan => true
  | .irqSet _ _ => true
  | .irqClr _ _ => true
  | .irqPer _ _ _ => true
  | .irqRd _ _ => true
  | .arbEn _ => true
  | .arbRst => true
  | .arbBa _ => true
  | .arbRd _ _ => true
  | .arbWr _ _ _ => true
  | .arbRds => true

end Sys2Proof
end

