-- ==== Sys2Proof/Decode.lean ====
section
/-! DEFINITION. The decoder of 30_encoding.md, total on any port contents and rejecting by name, and after
it the encoder, the assembler's spelling and the pseudo-instructions, written from the same rules. -/
namespace Sys2Proof

/-! ## Header fields (R66) -/

/-- H[31:24], the opcode. -/
def headerOpc (h : HeaderWord) : Byte := h.extractLsb' 24 8
/-- H[23:16], the CPU id. -/
def headerCpu (h : HeaderWord) : Byte := h.extractLsb' 16 8
/-- H[15:8], the line id. -/
def headerLine (h : HeaderWord) : Byte := h.extractLsb' 8 8
/-- H[3], the bus-available value of ARB.BA. -/
def headerB (h : HeaderWord) : Bool := h.getLsbD 3
/-- H[2], the enable value of ARB.EN. -/
def headerE (h : HeaderWord) : Bool := h.getLsbD 2
/-- H[1], SCHED's absolute-time bit. -/
def headerA (h : HeaderWord) : Bool := h.getLsbD 1
/-- H[0], SCHED's recurring bit. -/
def headerR (h : HeaderWord) : Bool := h.getLsbD 0

/-! ## The opcode map (R69) -/

/-- One row of R69: the header bits its fields occupy, its operand words, its response words. -/
structure OpcodeRow where
  fields : HeaderWord
  operands : Nat
  responses : Nat
deriving DecidableEq, Repr

/-- The opcode map of R69; an opcode it does not list is unknown (R70, R73). -/
def opcodeRow (opc : Byte) : Option OpcodeRow :=
  match opc.toNat with
  | 0x00 => some ⟨0x00000000, 0, 0⟩
  | 0x01 => some ⟨0x00000000, 0, 4⟩
  | 0x10 => some ⟨0x00000003, 3, 1⟩
  | 0x11 => some ⟨0x00000000, 1, 0⟩
  | 0x12 => some ⟨0x00000000, 1, 0⟩
  | 0x13 => some ⟨0x00000000, 0, 0⟩
  | 0x14 => some ⟨0x00000000, 0, 1⟩
  | 0x15 => some ⟨0x00000000, 1, 4⟩
  | 0x16 => some ⟨0x00000000, 0, 3⟩
  | 0x20 => some ⟨0x00FFFF00, 0, 0⟩
  | 0x21 => some ⟨0x00FFFF00, 0, 0⟩
  | 0x22 => some ⟨0x00FFFF00, 1, 2⟩
  | 0x23 => some ⟨0x00FFFF00, 0, 1⟩
  | 0x30 => some ⟨0x00000004, 0, 0⟩
  | 0x31 => some ⟨0x00000000, 0, 0⟩
  | 0x32 => some ⟨0x00000008, 0, 0⟩
  | 0x33 => some ⟨0x00FF0000, 1, 1⟩
  | 0x34 => some ⟨0x00FF0000, 2, 0⟩
  | 0x35 => some ⟨0x00000000, 0, 1⟩
  | _ => none

/-- R71 is broken: some header bit outside OPC and the row's fields is not zero. -/
def brokenFields (row : OpcodeRow) (h : HeaderWord) : Bool :=
  (h &&& ~~~(0xFF000000#32 ||| row.fields)) != 0

/-! ## Taking words from a port (R55, R56, R216) -/

/-- Takes one header: four bytes, least significant first, or one word. On a word-wide transport a 64-bit
word read as a header gives its low 32 bits (R216). `none`: no whole word is there. -/
def Port.takeHeader : Port → Option (HeaderWord × Port)
  | .byteWide (b0 :: b1 :: b2 :: b3 :: rest) => some (b3 ++ b2 ++ b1 ++ b0, .byteWide rest)
  | .byteWide _ => none
  | .wordWide (.w32 h :: rest) => some (h, .wordWide rest)
  | .wordWide (.w64 o :: rest) => some (o.extractLsb' 0 32, .wordWide rest)
  | .wordWide [] => none

/-- Takes one operand: eight bytes, least significant first, or one word. A 32-bit word where an operand is
expected gives a free value (log 7). -/
def Port.takeOperand : Port → Option (Word × Port)
  | .byteWide (b0 :: b1 :: b2 :: b3 :: b4 :: b5 :: b6 :: b7 :: rest) =>
    some (b7 ++ b6 ++ b5 ++ b4 ++ b3 ++ b2 ++ b1 ++ b0, .byteWide rest)
  | .byteWide _ => none
  | .wordWide (.w64 o :: rest) => some (o, .wordWide rest)
  | .wordWide (.w32 h :: rest) => some (Config.shortOperand h, .wordWide rest)
  | .wordWide [] => none

/-- Takes `n` operands in the order R69 lists them. -/
def Port.takeOperands : Nat → Port → Option (List Word × Port)
  | 0, p => some ([], p)
  | n + 1, p =>
    match p.takeOperand with
    | none => none
    | some (o, p') =>
      match p'.takeOperands n with
      | none => none
      | some (os, p'') => some (o :: os, p'')

/-! ## Decoding (R72, R73, R83, R84) -/

/-- What the decoder finds at the front of a port. -/
inductive DecodeResult where
  /-- A command whose header keeps R71. -/
  | command (i : Instr) (rest : Port)
  /-- R83's badFields: a known opcode that breaks R71 (R72); `len` words were consumed. -/
  | badFields (opc : Byte) (len : Nat) (rest : Port)
  /-- R83's unknown: an opcode outside R69 (R73); one word was consumed. -/
  | unknown (w : HeaderWord) (rest : Port)
  /-- The port does not hold a whole command: nothing is consumed (R56). -/
  | incomplete
deriving DecidableEq, Repr

/-- SCHED's time operand as R74 reads it: u64 when absolute, s64 when it is a delay. -/
def timeOperand (absolute : Bool) (t : Word) : Int := if absolute then (t.toNat : Int) else t.toInt

/-- The command of a known opcode, from its header and its operand words (R74 to R79, R83). -/
def instrOf (h : HeaderWord) (ops : List Word) : Option Instr :=
  match (headerOpc h).toNat with
  | 0x00 => some .nop
  | 0x01 => some .status
  | 0x10 => some (.sched (headerA h) (timeOperand (headerA h) (ops.getD 0 0)) (headerR h)
      (ops.getD 1 0).toInt (ops.getD 2 0))
  | 0x11 => some (.cancel (ops.getD 0 0))
  | 0x12 => some (.advance (ops.getD 0 0))
  | 0x13 => some .cbdone
  | 0x14 => some .rdnow
  | 0x15 => some (.query (ops.getD 0 0))
  | 0x16 => some .rdscan
  | 0x20 => some (.irqSet (headerCpu h) (headerLine h))
  | 0x21 => some (.irqClr (headerCpu h) (headerLine h))
  | 0x22 => some (.irqPer (headerCpu h) (headerLine h) (ops.getD 0 0))
  | 0x23 => some (.irqRd (headerCpu h) (headerLine h))
  | 0x30 => some (.arbEn (headerE h))
  | 0x31 => some .arbRst
  | 0x32 => some (.arbBa (headerB h))
  | 0x33 => some (.arbRd (headerCpu h) (ops.getD 0 0))
  | 0x34 => some (.arbWr (headerCpu h) (ops.getD 0 0) (ops.getD 1 0))
  | 0x35 => some .arbRds
  | _ => none

/-- Decodes the command at the front of a port: the header's opcode fixes the length (R65, R69). -/
def decode (p : Port) : DecodeResult :=
  match p.takeHeader with
  | none => .incomplete
  | some (h, p1) =>
    match opcodeRow (headerOpc h) with
    | none => .unknown h p1
    | some row =>
      match p1.takeOperands row.operands with
      | none => .incomplete
      | some (ops, p2) =>
        if brokenFields row h then .badFields (headerOpc h) (row.operands + 1) p2
        else
          match instrOf h ops with
          | none => .unknown h p1
          | some i => .command i p2

/-! ## The table's words -/

/-- `n` bytes of the number `w`, least significant first. -/
def leBytes : Nat → Nat → List Byte
  | 0, _ => []
  | n + 1, w => BitVec.ofNat 8 w :: leBytes n (w / 256)

/-- The bits `w` of a table row laid out as a byte-wide transport carries them: 4 header bytes and then the
24 bytes of up to three operand words, all bits from `nbits` on zero. -/
def tableWordPort (nbits w : Nat) : Port := .byteWide (leBytes 28 (w % 2 ^ nbits))

/-- The instruction the decoder reads from a table row's bits (bit 0 the header's least significant). -/
def decodeTableWord (nbits w : Nat) : Option Instr :=
  match decode (tableWordPort nbits w) with
  | .command i _ => some i
  | .badFields _ _ _ => none
  | .unknown _ _ => none
  | .incomplete => none

/-! ## Encoding (R66, R69, R82) -/

/-- H = OPC, CPU, LINE, 0000b, B, E, A, R from the most significant bit down (R82). -/
def mkHeader (opc cpu line : Byte) (b e a r : Bool) : HeaderWord :=
  opc ++ cpu ++ line ++ 0#4 ++ BitVec.ofBool b ++ BitVec.ofBool e ++ BitVec.ofBool a ++ BitVec.ofBool r

/-- The opcode of each command (R69). -/
def Instr.opcode : Instr → Byte
  | .nop => 0x00
  | .status => 0x01
  | .sched _ _ _ _ _ => 0x10
  | .cancel _ => 0x11
  | .advance _ => 0x12
  | .cbdone => 0x13
  | .rdnow => 0x14
  | .query _ => 0x15
  | .rdscan => 0x16
  | .irqSet _ _ => 0x20
  | .irqClr _ _ => 0x21
  | .irqPer _ _ _ => 0x22
  | .irqRd _ _ => 0x23
  | .arbEn _ => 0x30
  | .arbRst => 0x31
  | .arbBa _ => 0x32
  | .arbRd _ _ => 0x33
  | .arbWr _ _ _ => 0x34
  | .arbRds => 0x35

/-- The header word of each command (R82). -/
def Instr.header : Instr → HeaderWord
  | .nop => mkHeader 0x00 0 0 false false false false
  | .status => mkHeader 0x01 0 0 false false false false
  | .sched absolute _ recurring _ _ => mkHeader 0x10 0 0 false false absolute recurring
  | .cancel _ => mkHeader 0x11 0 0 false false false false
  | .advance _ => mkHeader 0x12 0 0 false false false false
  | .cbdone => mkHeader 0x13 0 0 false false false false
  | .rdnow => mkHeader 0x14 0 0 false false false false
  | .query _ => mkHeader 0x15 0 0 false false false false
  | .rdscan => mkHeader 0x16 0 0 false false false false
  | .irqSet c l => mkHeader 0x20 c l false false false false
  | .irqClr c l => mkHeader 0x21 c l false false false false
  | .irqPer c l _ => mkHeader 0x22 c l false false false false
  | .irqRd c l => mkHeader 0x23 c l false false false false
  | .arbEn e => mkHeader 0x30 0 0 false e false false
  | .arbRst => mkHeader 0x31 0 0 false false false false
  | .arbBa b => mkHeader 0x32 0 0 b false false false
  | .arbRd c _ => mkHeader 0x33 c 0 false false false false
  | .arbWr c _ _ => mkHeader 0x34 c 0 false false false false
  | .arbRds => mkHeader 0x35 0 0 false false false false

/-- The operand words of each command, in the order of R69. -/
def Instr.operands : Instr → List Word
  | .nop => []
  | .status => []
  | .sched _ t _ p y => [BitVec.ofInt 64 t, BitVec.ofInt 64 p, y]
  | .cancel h => [h]
  | .advance t => [t]
  | .cbdone => []
  | .rdnow => []
  | .query h => [h]
  | .rdscan => []
  | .irqSet _ _ => []
  | .irqClr _ _ => []
  | .irqPer _ _ s => [s]
  | .irqRd _ _ => []
  | .arbEn _ => []
  | .arbRst => []
  | .arbBa _ => []
  | .arbRd _ a => [a]
  | .arbWr _ a d => [a, d]
  | .arbRds => []

/-- The words of a command on a word-wide transport: its header, then its operands. -/
def encode (i : Instr) : List PortWord := .w32 i.header :: i.operands.map .w64

/-- The bytes of a word on a byte-wide transport, least significant first (R55). -/
def PortWord.bytes : PortWord → List Byte
  | .w32 h => [h.extractLsb' 0 8, h.extractLsb' 8 8, h.extractLsb' 16 8, h.extractLsb' 24 8]
  | .w64 o => [o.extractLsb' 0 8, o.extractLsb' 8 8, o.extractLsb' 16 8, o.extractLsb' 24 8,
      o.extractLsb' 32 8, o.extractLsb' 40 8, o.extractLsb' 48 8, o.extractLsb' 56 8]

/-- Words offered on a side of the port come after those offered there before. -/
def Port.offer (p : Port) (ws : List PortWord) : Port :=
  match p with
  | .byteWide bs => .byteWide (bs ++ ws.flatMap PortWord.bytes)
  | .wordWide us => .wordWide (us ++ ws)

/-- The bytes of a command on a byte-wide transport. -/
def encodeBytes (i : Instr) : List Byte := (encode i).flatMap PortWord.bytes

/-- The bytes of a response word on a byte-wide transport (R55). -/
def responseBytes (w : Word) : List Byte := (PortWord.w64 w).bytes

/-! ## Assembler spelling and pseudo-instructions (R80, R81) -/

/-- A CPU operand as R80 may write it. -/
def asmCpu (c : Byte) : String := if c = 0 then "PRI" else if c = 1 then "SEC" else toString c.toNat
/-- A line operand as R80 may write it. -/
def asmLine (l : Byte) : String := if l = 0 then "IRQ" else if l = 1 then "FIRQ" else toString l.toNat
/-- A bit operand. -/
def asmBit (b : Bool) : String := if b then "1" else "0"

/-- The assembler line of a command (R80), numbers in decimal. A once-event's period is written only as
"once": a one-shot command with a non-zero period word (a reserved operand, R75) has no spelling of its own. -/
def Instr.asm : Instr → String
  | .nop => "NOP"
  | .status => "STATUS"
  | .sched absolute t recurring p y =>
    "SCHED " ++ (if absolute then "abs" else "rel") ++ ", " ++ toString t ++ ", " ++
      (if recurring then "every " ++ toString p else "once") ++ ", " ++ toString y.toNat
  | .cancel h => "CANCEL " ++ toString h.toNat
  | .advance t => "ADVANCE " ++ toString t.toNat
  | .cbdone => "CBDONE"
  | .rdnow => "RDNOW"
  | .query h => "QUERY " ++ toString h.toNat
  | .rdscan => "RDSCAN"
  | .irqSet c l => "IRQ.SET " ++ asmCpu c ++ ", " ++ asmLine l
  | .irqClr c l => "IRQ.CLR " ++ asmCpu c ++ ", " ++ asmLine l
  | .irqPer c l s => "IRQ.PER " ++ asmCpu c ++ ", " ++ asmLine l ++ ", " ++ toString s.toNat
  | .irqRd c l => "IRQ.RD " ++ asmCpu c ++ ", " ++ asmLine l
  | .arbEn e => "ARB.EN " ++ asmBit e
  | .arbRst => "ARB.RST"
  | .arbBa b => "ARB.BA " ++ asmBit b
  | .arbRd c a => "ARB.RD " ++ asmCpu c ++ ", " ++ toString a.toNat
  | .arbWr c a d => "ARB.WR " ++ asmCpu c ++ ", " ++ toString a.toNat ++ ", " ++ toString d.toNat
  | .arbRds => "ARB.RDS"

/-- AFTER d, y (R81). -/
def pseudoAfter (d : Int) (y : Word) : List Instr := [.sched false d false 0 y]
/-- AT t, y (R81). -/
def pseudoAt (t : Int) (y : Word) : List Instr := [.sched true t false 0 y]
/-- EVERY p, y (R81): the first firing is one period after now. -/
def pseudoEvery (p : Int) (y : Word) : List Instr := [.sched false p true p y]
/-- IRQ.PERLIST c, l, the target scanlines in list order (R81, R132). -/
def pseudoPerList (c l : Byte) (scanlines : List Word) : List Instr := scanlines.map (.irqPer c l)
/-- ARB.ON (R81). -/
def pseudoArbOn : List Instr := [.arbEn true]
/-- ARB.OFF (R81). -/
def pseudoArbOff : List Instr := [.arbEn false]

/-! ## The assembler: from a line of R80 to commands -/

/-- A space or a tab. -/
def isBlank (c : Char) : Bool := c == ' ' || c == '\t'

/-- Without the blanks at both ends. -/
def trimBlanks (cs : List Char) : List Char := ((cs.dropWhile isBlank).reverse.dropWhile isBlank).reverse

/-- The pieces between the occurrences of `d`. -/
def splitAtChar (d : Char) : List Char → List (List Char)
  | [] => [[]]
  | c :: cs =>
    match splitAtChar d cs with
    | [] => [[c]]
    | w :: ws => if c = d then [] :: w :: ws else (c :: w) :: ws

/-- The value of a digit, hexadecimal ones included. -/
def digitValue (c : Char) : Option Nat :=
  if '0' ≤ c ∧ c ≤ '9' then some (c.toNat - '0'.toNat)
  else if 'a' ≤ c ∧ c ≤ 'f' then some (c.toNat - 'a'.toNat + 10)
  else if 'A' ≤ c ∧ c ≤ 'F' then some (c.toNat - 'A'.toNat + 10)
  else none

/-- Reads digits of a base, after the value read so far. -/
def readDigits (base value : Nat) : List Char → Option Nat
  | [] => some value
  | c :: cs =>
    match digitValue c with
    | none => none
    | some d => if d < base then readDigits base (value * base + d) cs else none

/-- A number, decimal or with 0x hexadecimal (R80). -/
def readNat : List Char → Option Nat
  | [] => none
  | ['0', 'x'] => none
  | '0' :: 'x' :: cs => readDigits 16 0 cs
  | cs => readDigits 10 0 cs

/-- A number that may be negative: a rel time, a period (R80). -/
def readInt : List Char → Option Int
  | '-' :: cs => (readNat cs).map fun n => -(n : Int)
  | cs => (readNat cs).map fun n => (n : Int)

/-- A number below 2^w as a word of w bits. -/
def readBits (w : Nat) (cs : List Char) : Option (BitVec w) :=
  match readNat cs with
  | none => none
  | some n => if n < 2 ^ w then some (BitVec.ofNat w n) else none

/-- A CPU operand (R80). -/
def readCpu (cs : List Char) : Option Byte :=
  if cs = "PRI".toList then some 0 else if cs = "SEC".toList then some 1 else readBits 8 cs

/-- A line operand (R80). -/
def readLine (cs : List Char) : Option Byte :=
  if cs = "IRQ".toList then some 0 else if cs = "FIRQ".toList then some 1 else readBits 8 cs

/-- The e of ARB.EN and the b of ARB.BA, "0 or 1": any number of R80 of value 0 or 1, so `0x1` and `01` too
(DEDUCED, log 23). -/
def readBit (cs : List Char) : Option Bool :=
  match readNat cs with
  | some 0 => some false
  | some 1 => some true
  | _ => none

/-- `once` or `every <p>`: the recurring bit and the period (R80). -/
def readRecurrence (cs : List Char) : Option (Bool × Int) :=
  if cs = "once".toList then some (false, 0)
  else if cs.takeWhile (fun c => !isBlank c) = "every".toList then
    (readInt (trimBlanks (cs.drop 5))).map fun p => (true, p)
  else none

/-- `rel` or `abs` (R80). -/
def readMode (cs : List Char) : Option Bool :=
  if cs = "rel".toList then some false else if cs = "abs".toList then some true else none

/-- A command that R83 admits. -/
def checked (i : Instr) : Option (List Instr) := if i.wf then some [i] else none

/-- The scanlines of IRQ.PERLIST, between braces (characters 123 and 125). -/
def readScanlines (cs : List Char) : Option (List Word) :=
  match splitAtChar (Char.ofNat 125) cs with
  | [inner, after] =>
    if (trimBlanks after).isEmpty then
      (splitAtChar ',' inner).mapM fun w => readBits 64 (trimBlanks w)
    else none
  | _ => none

/-- The commands of a mnemonic or pseudo-instruction with its operand text (R80, R81). -/
def assembleOperands (mnemonic : String) (text : List Char) : Option (List Instr) :=
  let ops := if (trimBlanks text).isEmpty then [] else (splitAtChar ',' text).map trimBlanks
  match mnemonic, ops with
  | "NOP", [] => some [.nop]
  | "STATUS", [] => some [.status]
  | "SCHED", [m, t, r, y] => do
    let (recurring, p) ← readRecurrence r
    checked (.sched (← readMode m) (← readInt t) recurring p (← readBits 64 y))
  | "CANCEL", [h] => do return [.cancel (← readBits 64 h)]
  | "ADVANCE", [t] => do return [.advance (← readBits 64 t)]
  | "CBDONE", [] => some [.cbdone]
  | "RDNOW", [] => some [.rdnow]
  | "QUERY", [h] => do return [.query (← readBits 64 h)]
  | "RDSCAN", [] => some [.rdscan]
  | "IRQ.SET", [c, l] => do return [.irqSet (← readCpu c) (← readLine l)]
  | "IRQ.CLR", [c, l] => do return [.irqClr (← readCpu c) (← readLine l)]
  | "IRQ.PER", [c, l, s] => do return [.irqPer (← readCpu c) (← readLine l) (← readBits 64 s)]
  | "IRQ.RD", [c, l] => do return [.irqRd (← readCpu c) (← readLine l)]
  | "ARB.EN", [e] => do return [.arbEn (← readBit e)]
  | "ARB.RST", [] => some [.arbRst]
  | "ARB.BA", [b] => do return [.arbBa (← readBit b)]
  | "ARB.RD", [c, a] => do return [.arbRd (← readCpu c) (← readBits 64 a)]
  | "ARB.WR", [c, a, d] => do return [.arbWr (← readCpu c) (← readBits 64 a) (← readBits 64 d)]
  | "ARB.RDS", [] => some [.arbRds]
  | "AFTER", [d, y] => do
    let t ← readInt d
    let w ← readBits 64 y
    if (Instr.sched false t false 0 w).wf then return pseudoAfter t w else none
  | "AT", [t, y] => do
    let n ← readInt t
    let w ← readBits 64 y
    if (Instr.sched true n false 0 w).wf then return pseudoAt n w else none
  | "EVERY", [p, y] => do
    let n ← readInt p
    let w ← readBits 64 y
    if (Instr.sched false n true n w).wf then return pseudoEvery n w else none
  | "ARB.ON", [] => some pseudoArbOn
  | "ARB.OFF", [] => some pseudoArbOff
  | "IRQ.PERLIST", _ =>
    match splitAtChar (Char.ofNat 123) text with
    | [ids, list] =>
      match (splitAtChar ',' ids).map trimBlanks with
      | [c, l, []] => do return pseudoPerList (← readCpu c) (← readLine l) (← readScanlines list)
      | _ => none
    | _ => none
  | _, _ => none

/-- Assembles one line (R80): a comment or a blank line is no command, and a line that is not in the syntax is
`none`. -/
def assembleLine (line : String) : Option (List Instr) :=
  let cs := trimBlanks (line.toList.takeWhile fun c => c != ';')
  if cs.isEmpty then some []
  else
    assembleOperands (String.ofList (cs.takeWhile fun c => !isBlank c)) (cs.dropWhile fun c => !isBlank c)

end Sys2Proof
end

