-- ==== Sys2Proof/Machine/Block.lean ====
section
/-! DEFINITION. Block control (43_block.md): NOP, STATUS, and the two rejected headers of 30_encoding.md. -/
namespace Sys2Proof.Machine

/-- NOP (R170): no state is written. -/
def execNop (s : State) : Result := .next s

/-- STATUS (R171): the one command that runs while `fault != 0` too (R184). -/
def execStatus (s : State) : Result := .next (s.respond (statusWords s.items))

/-- A known opcode that breaks R71 (R72, check 3 of R187): D_RESERVED_FIELD and the opcode's full count of
all-zero response words (R68). In a faulted TIA it is ignored, STATUS's opcode included (log 12). -/
def State.rejectFields (s : State) (opc : Byte) : State :=
  s.unlessFaulted fun s =>
    match opcodeRow opc with
    | some row => (s.recordDiag .reservedField opc).respond (List.replicate row.responses 0)
    | none => s.recordDiag .reservedField opc

/-- An unknown opcode (R73, R172, check 2 of R187): D_UNKNOWN_OPCODE and nothing else. -/
def State.rejectUnknown (s : State) (w : HeaderWord) : State :=
  s.unlessFaulted fun s => s.recordDiag .unknownOpcode (headerOpc w)

end Sys2Proof.Machine
end

