-- ==== Sys2Proof/Machine/Ilc.lean ====
section
/-! DEFINITION. ILC (41_interrupt.md): the meanings of IRQ.SET, IRQ.CLR, IRQ.PER and IRQ.RD. -/
namespace Sys2Proof.Machine

/-- The id check of every ILC command (R138, check 5 of R187). -/
def State.onLine (s : State) (opc c l : Byte) (f : State → Fin 2 → Fin 2 → State) : State :=
  match lineOf c l with
  | none => s.raiseFault .badId opc
  | some (c, l) => f s c l

/-- IRQ.SET (R130). -/
def execIrqSet (c l : Byte) (s : State) : Result :=
  .next (s.unlessFaulted fun s => s.onLine 0x20 c l fun s c l => s.lineAssert c l)

/-- IRQ.CLR (R131). -/
def execIrqClr (c l : Byte) (s : State) : Result :=
  .next (s.unlessFaulted fun s => s.onLine 0x21 c l fun s c l => s.lineClear c l)

/-- The body of IRQ.PER once its ids are checked (R132): two recurring events, assert at the scanline's start
and clear at its horizontal blank, both with period FP. A period that no 64-bit field holds is
F_TIME_OVERFLOW by R9 (log 11). -/
def State.pulse (s : State) (c l : Fin 2) (line : Word) : State :=
  if s.cfg.totalScanlines ≤ line.toNat then s.raiseFault .badScanline 0x22
  else if 2 ^ 64 ≤ firstAssert s.cfg s.items.now line.toNat + s.cfg.hblankStart ∨
      2 ^ 64 ≤ framePeriod s.cfg then s.raiseFault .timeOverflow 0x22
  else if roomFor s.cfg (s.items.occ + 2) = false then s.raiseFault .queueFull 0x22
  else if 2 ^ 64 ≤ s.items.nextHandle.toNat + 2 then s.raiseFault .handleExhausted 0x22
  else
    ((s.insertNew (firstAssert s.cfg s.items.now line.toNat) (.irqAssert c l) true
        (BitVec.ofNat 64 (framePeriod s.cfg))).insertNew
      (firstAssert s.cfg s.items.now line.toNat + s.cfg.hblankStart) (.irqClear c l) true
        (BitVec.ofNat 64 (framePeriod s.cfg))).respond
      [s.items.nextHandle, s.items.nextHandle + 1]

/-- IRQ.PER (R132). -/
def execIrqPer (c l : Byte) (line : Word) (s : State) : Result :=
  .next (s.unlessFaulted fun s => s.onLine 0x22 c l fun s c l => s.pulse c l line)

/-- IRQ.RD (R136). -/
def execIrqRd (c l : Byte) (s : State) : Result :=
  .next (s.unlessFaulted fun s => s.onLine 0x23 c l fun s c l => s.respond [levelWord (s.items.line c l)])

end Sys2Proof.Machine
end

