-- ==== Sys2Proof/Machine/Tmr.lean ====
section
/-! DEFINITION. TMR (40_timer.md): the meanings of SCHED, CANCEL, ADVANCE, CBDONE, RDNOW, QUERY and RDSCAN,
and the drain step. -/
namespace Sys2Proof.Machine

/-- The body of SCHED in an unfaulted TIA (R100), its checks in the order of the pseudocode. -/
def State.schedule (s : State) (absolute : Bool) (t : Int) (recurring : Bool) (p : Int) (y : Word) : State :=
  if recurring = false ∧ p ≠ 0 then (s.recordDiag .reservedField 0x10).respond [0]
  else if recurring = true ∧ p ≤ 0 then s.raiseFault .nonposPeriod 0x10
  else if 2 ^ 64 ≤ fireTime s.items.now absolute t then s.raiseFault .timeOverflow 0x10
  else if roomFor s.cfg (s.items.occ + 1) = false then s.raiseFault .queueFull 0x10
  else if 2 ^ 64 ≤ s.items.nextHandle.toNat + 1 then s.raiseFault .handleExhausted 0x10
  else
    (s.insertNew (fireTime s.items.now absolute t) (.ext y) recurring
      (if recurring then BitVec.ofInt 64 p else 0)).respond [s.items.nextHandle]

/-- SCHED (R100). -/
def execSched (absolute : Bool) (t : Int) (recurring : Bool) (p : Int) (y : Word) (s : State) : Result :=
  .next (s.unlessFaulted fun s => s.schedule absolute t recurring p y)

/-- The body of CANCEL (R103). -/
def State.cancelHandle (s : State) (h : Word) : State :=
  match s.items.lookup h with
  | .queued e => { s with items.queue := removeHandle e.handle s.items.queue }
  | .firing c => { s with items.cur := some { c with live := false } }
  | .stale => s.recordDiag .staleHandle 0x11

/-- CANCEL (R103). -/
def execCancel (h : Word) (s : State) : Result := .next (s.unlessFaulted fun s => s.cancelHandle h)

/-- The body of ADVANCE (R104). -/
def State.advanceTo (s : State) (t : Word) : State :=
  match s.items.phase with
  | .callback _ => s.raiseFault .reentrant 0x12
  | .idle =>
    if t.toNat < s.items.now.toNat then s.recordDiag .timeBackward 0x12
    else { s with items.phase := .draining t }
  | .draining _ =>
    if t.toNat < s.items.now.toNat then s.recordDiag .timeBackward 0x12
    else { s with items.phase := .draining t }

/-- ADVANCE (R104). -/
def execAdvance (t : Word) (s : State) : Result := .next (s.unlessFaulted fun s => s.advanceTo t)

/-- The end of the callback of `c` in an ADVANCE to `T` (R110): the return of TIA's callbacks (R191). A
re-arm time of 2^64 or more is F_TIME_OVERFLOW by R9; R106 excludes it in every state that no RESTORE put there (log 10). -/
def State.endCallback (s : State) (T : Word) (c : CurEvent) : State :=
  if c.live then
    if 2 ^ 64 ≤ rearmTime c.entry then s.raiseFault .timeOverflow 0x13
    else { s.rearm c.entry with items.cur := none, items.phase := .draining T }
  else { s with items.cur := none, items.phase := .draining T }

/-- CBDONE in an unfaulted TIA (R110); no rule covers a callback without an event (R25, log 9). -/
def State.callbackDone (s : State) : Result :=
  match s.items.phase with
  | .callback T =>
    match s.items.cur with
    | some c => .next (s.endCallback T c)
    | none => .fault .callbackWithoutEvent
  | .idle => .next (s.recordDiag .cbDoneIdle 0x13)
  | .draining _ => .next (s.recordDiag .cbDoneIdle 0x13)

/-- CBDONE (R110). -/
def execCbdone (s : State) : Result := if s.items.fault = 0 then s.callbackDone else .next s

/-- RDNOW (R114). -/
def execRdnow (s : State) : Result := .next (s.unlessFaulted fun s => s.respond [s.items.now])

/-- The body of QUERY (R115): an invalid handle reads as all zeros. -/
def State.queryHandle (s : State) (h : Word) : State :=
  match s.items.lookup h with
  | .queued e => s.respond (queryWords e false)
  | .firing c => s.respond (queryWords c.entry true)
  | .stale => s.respond [0, 0, 0, 0]

/-- QUERY (R115). -/
def execQuery (h : Word) (s : State) : Result := .next (s.unlessFaulted fun s => s.queryHandle h)

/-- RDSCAN (R116). -/
def execRdscan (s : State) : Result :=
  .next (s.unlessFaulted fun s =>
    s.respond [BitVec.ofNat 64 (currentScanline s.cfg s.items.now), parameterWord s.cfg.totalScanlines,
      parameterWord s.cfg.hblankStart])

/-- The firing of the due entry `e` in an ADVANCE to `T` (R106): it leaves Q, `now` becomes its fire time,
and its payload is performed; an internal recurring event is re-armed in the same step (R111). -/
def State.fireEvent (s : State) (T : Word) (e : Entry) : State :=
  let s1 := { s with items.queue := removeHandle e.handle s.items.queue, items.now := e.fireTime }
  match e.payload with
  | .irqAssert c l => if e.recurring then (s1.lineAssert c l).rearm e else s1.lineAssert c l
  | .irqClear c l => if e.recurring then (s1.lineClear c l).rearm e else s1.lineClear c l
  | .ext y =>
    State.emit { s1 with items.cur := some { entry := e, live := e.recurring }, items.phase := .callback T }
      (.fire e.handle y e.fireTime)

/-- DrainStep (R106, R107): ends the drain, or fires the due entry of least key, or faults before firing a
recurring one whose next time would overflow. Its OPC is 0xFF (R183). -/
def State.drainStep (s : State) (T : Word) : State :=
  match minKey (dueEntries T s.items.queue) with
  | none => State.emit { s with items.now := T, items.phase := .idle } (.done T)
  | some e =>
    if e.recurring = true ∧ 2 ^ 64 ≤ rearmTime e then s.raiseFault .timeOverflow 0xFF
    else s.fireEvent T e

end Sys2Proof.Machine
end

