-- ==== Sys2Proof/Machine/Dispatch.lean ====
section
/-! DEFINITION. One arm per command of opcode_table.json. -/
namespace Sys2Proof.Machine

/-- The meaning of each command (30_encoding.md R83). -/
def exec (i : Instr) (s : State) : Host.Outcome State Fault Refusal :=
  match i with
  | .nop => Sys2Proof.Machine.execNop s
  | .status => Sys2Proof.Machine.execStatus s
  | .sched absolute t recurring p y => Sys2Proof.Machine.execSched absolute t recurring p y s
  | .cancel h => Sys2Proof.Machine.execCancel h s
  | .advance t => Sys2Proof.Machine.execAdvance t s
  | .cbdone => Sys2Proof.Machine.execCbdone s
  | .rdnow => Sys2Proof.Machine.execRdnow s
  | .query h => Sys2Proof.Machine.execQuery h s
  | .rdscan => Sys2Proof.Machine.execRdscan s
  | .irqSet c l => Sys2Proof.Machine.execIrqSet c l s
  | .irqClr c l => Sys2Proof.Machine.execIrqClr c l s
  | .irqPer c l line => Sys2Proof.Machine.execIrqPer c l line s
  | .irqRd c l => Sys2Proof.Machine.execIrqRd c l s
  | .arbEn e => Sys2Proof.Machine.execArbEn e s
  | .arbRst => Sys2Proof.Machine.execArbRst s
  | .arbBa b => Sys2Proof.Machine.execArbBa b s
  | .arbRd c a => Sys2Proof.Machine.execArbRd c a s
  | .arbWr c a d => Sys2Proof.Machine.execArbWr c a d s
  | .arbRds => Sys2Proof.Machine.execArbRds s

end Sys2Proof.Machine
end

