-- ==== Sys2Proof/Machine/HostOps.lean ====
section
/-! DEFINITION. The host operations outside the command port (43_block.md R173): SNAPSHOT and RESTORE. -/
namespace Sys2Proof.Machine

/-- The entries are sorted by key, strictly (R36: "Q as a list sorted by (fire_time, seq)"). -/
def sortedByKey : List Entry → Bool
  | [] => true
  | [_] => true
  | x :: y :: rest => x.before y && sortedByKey (y :: rest)

/-- No value occurs twice. -/
def noRepeats : List Nat → Bool
  | [] => true
  | x :: xs => !xs.contains x && noRepeats xs

/-- R34 (b) and (c): no entry of Q is due before `now`, and in an ADVANCE `now` has not passed the target. DESIGN
CHOICE (log 17): the second sentence of (b), equality only for entries inserted after the last ADVANCE, is not asked,
since no item of R36's tuple says when that was; a tuple with any entry due at its `now` in IDLE is accepted. -/
def Items.timesOk (t : Items) : Bool :=
  t.queue.all (fun e => decide (t.now.toNat ≤ e.fireTime.toNat)) &&
    match t.phase with
    | .idle => true
    | .draining T => decide (t.now.toNat ≤ T.toNat)
    | .callback T => decide (t.now.toNat ≤ T.toNat)

/-- Every entry of the tuple: those of Q, and the one `cur` holds (R25). -/
def Items.entries (t : Items) : List Entry :=
  match t.cur with
  | some c => c.entry :: t.queue
  | none => t.queue

/-- R34 (d): handles distinct and below `next_handle`, seqs distinct and below `next_seq`. It binds `cur`'s entry
with Q's, since R25 has that entry "as it was when it was removed from Q" (log 17). -/
def Items.countersOk (t : Items) : Bool :=
  noRepeats (t.entries.map fun e => e.handle.toNat) && noRepeats (t.entries.map fun e => e.seq) &&
    t.entries.all (fun e => decide (e.handle.toNat < t.nextHandle.toNat) && decide (e.seq < t.nextSeq))

/-- R34 (f): a recurring entry has period > 0, any other period = 0. -/
def periodOk (e : Entry) : Bool := if e.recurring then decide (0 < e.period.toNat) else decide (e.period.toNat = 0)

/-- R25: a pair that `cur` can hold is an external event and a live bit that only a recurring event has. -/
def CurEvent.ok (c : CurEvent) : Bool :=
  match c.entry.payload with
  | .ext _ => !c.live || c.entry.recurring
  | .irqAssert _ _ => false
  | .irqClear _ _ => false

/-- R25: `cur != none` exactly when the phase is CALLBACK. DESIGN CHOICE (log 17): that `now` is the event's fire
time (R26, R112) is not asked. -/
def Items.curOk (t : Items) : Bool :=
  match t.phase with
  | .idle => t.cur.isNone
  | .draining _ => t.cur.isNone
  | .callback _ => t.cur.any CurEvent.ok

/-- The tuple meets the invariants (a) to (f) of R34, but for the second sentence of (b) (DESIGN CHOICE, log 17); (f)
is of every entry, `cur`'s too. -/
def Items.meetsR34 (p : Params) (t : Items) : Bool :=
  (t.primaryHalted != t.secondaryHalted) && t.timesOk && t.countersOk && roomFor p t.occ && t.entries.all periodOk

/-- The tuple has the form of R36: Q sorted, no entry with handle 0 (R21), `cur` as R25 says (log 17). DESIGN CHOICE
(log 17): `next_handle` may be 0, which R23 says it never is and R34 does not exclude; SCHED then issues handle 0. -/
def Items.isTuple (t : Items) : Bool :=
  sortedByKey t.queue && t.entries.all (fun e => decide (0 < e.handle.toNat)) && t.curOk

/-- SNAPSHOT (R173): returns the tuple of R36 and changes no item. -/
def State.takeSnapshot (s : State) : State := s.emit (.snapshot s.items)

/-- Why a RESTORE of the tuple is refused, if it is: `fault != 0` (R184), or the tuple breaks R34 (R173). -/
def State.restoreRefusal (s : State) (t : Items) : Option Refusal :=
  if s.items.fault ≠ 0 then some .restoreWhileFaulted
  else if t.meetsR34 s.cfg && t.isTuple then none
  else some .restoreBreaksInvariant

/-- Why the host operation is refused, if it is; a SNAPSHOT never is (log 16). -/
def State.hostOpRefusal (s : State) (op : HostOp) : Option Refusal :=
  match op with
  | .snapshot => none
  | .restore t => s.restoreRefusal t

/-- RESTORE (R173): replaces every state item; the histories are left and nothing is emitted. A refused one has no
step. DESIGN CHOICE (log 17): R173 refuses only what breaks R34, so it accepts, and writes, a `fault` of 0x08 to 0xFF
or a `last_diag` of 0x07 to 0xFF, which R181 and R182 say are never written, and ARB bits that break R29 or R161. -/
def State.restoreItems (s : State) (t : Items) : Result :=
  match s.restoreRefusal t with
  | none => .next { s with items := t }
  | some r => .refused r

/-- Serves a host operation; one that is served is gone. -/
def State.serveHostOp (s : State) (op : HostOp) : Result :=
  match op with
  | .snapshot => .next (State.takeSnapshot { s with hostOp := none })
  | .restore t => State.restoreItems { s with hostOp := none } t

end Sys2Proof.Machine
end

