-- ==== Sys2Proof/Machine/Fetch.lean ====
section
/-! DEFINITION. Which agent steps next (10_state.md R24, R33; 60_exceptions.md R184), and how a command is
taken from the command port. -/
namespace Sys2Proof.Machine

/-- What TIA does next. -/
inductive Action where
  /-- Serves the host operation (R173). -/
  | serve (op : HostOp)
  /-- The drain engine steps (R106). -/
  | drain (T : Word)
  /-- Runs the command `i` in the state left when it has been taken from the port. -/
  | command (i : Instr) (s : State)
  /-- A known opcode with a reserved header field (R72). -/
  | badFields (opc : Byte) (s : State)
  /-- An unknown opcode (R73). -/
  | unknown (w : HeaderWord) (s : State)
  /-- No agent has anything to do: TIA waits. -/
  | wait
deriving DecidableEq, Repr

/-- Takes what the host's side of the command port holds. -/
def State.takeFromHost (s : State) : Action :=
  match decode s.hostPort with
  | .command i rest => .command i { s with hostPort := rest }
  | .badFields opc _ rest => .badFields opc { s with hostPort := rest }
  | .unknown w rest => .unknown w { s with hostPort := rest }
  | .incomplete => .wait

/-- Takes what the client's side of the command port holds. -/
def State.takeFromClient (s : State) : Action :=
  match decode s.clientPort with
  | .command i rest => .command i { s with clientPort := rest }
  | .badFields opc _ rest => .badFields opc { s with clientPort := rest }
  | .unknown w rest => .unknown w { s with clientPort := rest }
  | .incomplete => .wait

/-- The client's command if it has offered a whole one, else the host's. -/
def State.takeFromEither (s : State) : Action :=
  match s.takeFromClient with
  | .wait => s.takeFromHost
  | a => a

/-- Commands by phase (R24, R33): the host's in IDLE, the client's in CALLBACK, none in DRAINING while the
drain engine may step. Once `fault != 0` the host's in every phase; in a faulted CALLBACK the client's are
still taken, and taken first (log 13). -/
def State.takeCommand (s : State) : Action :=
  match s.items.phase with
  | .idle => s.takeFromHost
  | .draining T => if s.items.fault = 0 then .drain T else s.takeFromHost
  | .callback _ => if s.items.fault = 0 then s.takeFromClient else s.takeFromEither

/-- The next action: a host operation asked for is served when the phase is IDLE and held otherwise (R173). One that
is refused has no step (R173, R184), so commands are taken beside it as if it were not there, a STATUS in a faulted
TIA included. DESIGN CHOICE (log 15): one that is served comes before an offered command. -/
def State.nextAction (s : State) : Action :=
  match s.hostOp with
  | none => s.takeCommand
  | some op => if s.items.phase = .idle ∧ s.hostOpRefusal op = none then .serve op else s.takeCommand

/-- What the step answers where nothing in or around TIA can move: the refusal of a host operation asked for in IDLE,
or the endless wait for a command (R173, R198, log 2, log 15). -/
def State.standStill (s : State) : Host.Outcome State Fault Refusal :=
  match s.hostOp with
  | none => .fault .awaitingCommand
  | some op =>
    if s.items.phase = .idle then
      match s.hostOpRefusal op with
      | some r => .refused r
      | none => .fault .awaitingCommand
    else .fault .awaitingCommand

/-- What happens while TIA waits for a whole command: the environment offers words, the host's and the client's,
and TIA only receives them; where both stay silent nothing moves (R38, R198, log 1, log 2). -/
def State.receiveOffer (s : State) (words : List PortWord × List PortWord) : Host.Outcome State Fault Refusal :=
  if words.1 = [] ∧ words.2 = [] then s.standStill
  else .next { s with
    hostPort := s.hostPort.offer words.1, clientPort := s.clientPort.offer words.2, offers := s.offers + 1 }

/-- `s` with the port contents `port` where the next command is taken: the client's side in a callback, the
host's side otherwise. A host operation, which could be served first, is dropped, and a drain that would step
first is set aside by the phase IDLE: neither is needed at reset, where only `hostPort` changes. -/
def State.placeCommand (s : State) (port : Port) : State :=
  match s.items.phase with
  | .idle => { s with hostPort := port, hostOp := none }
  | .draining _ => { s with hostPort := port, hostOp := none, items.phase := .idle }
  | .callback _ => { s with clientPort := port }

end Sys2Proof.Machine
end

