-- ==== Sys2Proof/Machine/Step.lean ====
section
/-! DEFINITION. One step of TIA: one command, one drain step, one host operation or, while
TIA waits, one offer of the environment, each atomic (20_memory.md R50). -/
namespace Sys2Proof.Machine

/-- One step beside an environment that makes the offers `offer` (R38: a parameter of the step relation). Where no
agent has anything to do, the environment's next offer is received (log 1). -/
def stepWith (offer : Nat → List PortWord × List PortWord) (s : State) : Host.Outcome State Fault Refusal :=
  match s.nextAction with
  | .serve op => s.serveHostOp op
  | .drain T => .next (s.drainStep T)
  | .command i s' => exec i s'
  | .badFields opc s' => .next (s'.rejectFields opc)
  | .unknown w s' => .next (s'.rejectUnknown w)
  | .wait => s.receiveOffer (offer s.offers)

/-- One step beside the environment, whose offers are free values. -/
def step (s : State) : Host.Outcome State Fault Refusal := stepWith Config.offer s

/-- `s` with a table row's bits offered where the next command is taken, as a byte-wide transport carries
them; it stands for the host's (or, in a callback, the client's) sending that command (log 1). -/
def State.withFetchWord (s : State) (nbits w : Nat) : State := s.placeCommand (tableWordPort nbits w)

end Sys2Proof.Machine
end

