-- ==== Sys2Proof/Safety.lean ====
section
/-! DEFINITION. What counts as a good state of TIA, in the terms the claims use. -/
namespace Sys2Proof.Machine

/-- R184: a faulted TIA is not a finished run; it refutes every observation. A finished run is an unfaulted
machine at rest: the phase is IDLE (R52). -/
def State.finished (s : State) : Bool := decide (s.items.fault = 0) && decide (s.items.phase = .idle)

/-- The key (fire_time, seq) of `a` is less than that of `b` (R21, R107). -/
def keyLess (a b : Entry) : Prop :=
  a.fireTime.toNat < b.fireTime.toNat ∨ (a.fireTime.toNat = b.fireTime.toNat ∧ a.seq < b.seq)

/-- The invariants of 10_state.md R34, with what R21, R25, R29, R36, R112, R161, R181 and R182 say of the
same items in every reachable state. -/
structure Items.Inv (p : Params) (t : Items) : Prop where
  /-- R29: `primary_halted = secondary_enabled`. With the next field, R34 (a). -/
  primary : t.primaryHalted = t.secondaryEnabled
  /-- R29: `secondary_halted = not secondary_enabled`. -/
  secondary : t.secondaryHalted = !t.secondaryEnabled
  /-- R161: enabled 1 with pending 1 cannot be reached. -/
  pending : t.secondaryEnabled = true → t.resetPending = false
  /-- R34 (b), (c): no entry is due before `now`. -/
  notPast : ∀ e ∈ t.queue, t.now.toNat ≤ e.fireTime.toNat
  /-- R34 (c): in a drain `now` has not passed the target. -/
  drainTarget : ∀ T, t.phase = .draining T → t.now.toNat ≤ T.toNat
  /-- R34 (c): in a callback `now` has not passed the target. -/
  callbackTarget : ∀ T, t.phase = .callback T → t.now.toNat ≤ T.toNat
  /-- R36: Q is sorted by key. -/
  sorted : t.queue.Pairwise keyLess
  /-- R34 (d): handles in Q are distinct. -/
  handles : (t.queue.map fun e => e.handle).Nodup
  /-- R34 (d): seqs in Q are distinct. -/
  seqs : (t.queue.map fun e => e.seq).Nodup
  /-- R34 (d), R23: handles in Q are not 0 and below `next_handle`; seqs are below `next_seq`. -/
  below : ∀ e ∈ t.queue, 0 < e.handle.toNat ∧ e.handle.toNat < t.nextHandle.toNat ∧ e.seq < t.nextSeq
  /-- R23: handle 0 is never issued. -/
  nextHandlePos : 0 < t.nextHandle.toNat
  /-- R34 (e): the slots in use are at most QUEUE_CAPACITY. -/
  room : roomFor p t.occ = true
  /-- R34 (f). -/
  periods : ∀ e ∈ t.queue, if e.recurring = true then 0 < e.period.toNat else e.period.toNat = 0
  /-- R25: there is a current event exactly in a callback. -/
  curIff : t.cur.isSome = true ↔ ∃ T, t.phase = .callback T
  /-- R23, R34 (d), R35: the current event's handle is one issued before, and not in Q. -/
  curHandle : ∀ c, t.cur = some c →
    0 < c.entry.handle.toNat ∧ c.entry.handle.toNat < t.nextHandle.toNat ∧ ∀ e ∈ t.queue, e.handle ≠ c.entry.handle
  /-- R112: in a callback `now` is the fire time of its event. -/
  curTime : ∀ c, t.cur = some c → c.entry.fireTime = t.now
  /-- R25: only a recurring event is live. -/
  curLive : ∀ c, t.cur = some c → c.live = true → c.entry.recurring = true
  /-- R21, R106: a recurring event in its callback has a period and a next time that 64 bits hold. -/
  curPeriod : ∀ c, t.cur = some c → c.entry.recurring = true →
    0 < c.entry.period.toNat ∧ rearmTime c.entry < 2 ^ 64
  /-- R181: codes 0x08 to 0xFF are never written. -/
  faultRange : t.fault.toNat ≤ 7
  /-- R182: codes 0x07 to 0xFF are never written. -/
  diagRange : t.lastDiag.toNat ≤ 6

/-- R34, (a) to (f), of a tuple, as R34 words them: (b) to (d) of the entries of Q, (f) of every entry, the one that
`cur` holds (R25) included (log 17). Of (b) the first sentence: the second speaks of when an entry was inserted, which
no item says (log 17). -/
def Items.R34 (p : Params) (t : Items) : Prop :=
  t.primaryHalted ≠ t.secondaryHalted ∧
  (∀ e ∈ t.queue, t.now.toNat ≤ e.fireTime.toNat) ∧
  (∀ T, t.phase = .draining T ∨ t.phase = .callback T → t.now.toNat ≤ T.toNat) ∧
  (t.queue.map fun e => e.handle).Nodup ∧ (t.queue.map fun e => e.seq).Nodup ∧
  (∀ e ∈ t.queue, e.handle.toNat < t.nextHandle.toNat ∧ e.seq < t.nextSeq) ∧
  (∀ n, p.queueCapacity = some n →
    t.queue.length + (if ∃ c, t.cur = some c ∧ c.live = true then 1 else 0) ≤ n) ∧
  (∀ e, (e ∈ t.queue ∨ ∃ c, t.cur = some c ∧ c.entry = e) →
    (e.recurring = true → 0 < e.period.toNat) ∧ (e.recurring = false → e.period.toNat = 0))

/-- The configuration meets R8, the state keeps `Items.Inv`, its memory is in canonical form, and a RESTORE the
host has asked for, unless R173 refuses its tuple, holds one of some such state (R34 alone does not bind R29 and
R112). -/
structure State.Inv (s : State) : Prop where
  cfg : s.cfg.valid = true
  items : s.items.Inv s.cfg
  mem : Memory.wf s.mem = true
  restore : ∀ t, s.hostOp = some (.restore t) → t.meetsR34 s.cfg = true → t.isTuple = true → t.Inv s.cfg

/-- Nothing in Q comes at or before the key (`time`, `seq`), and neither will a later insertion: `now` has
reached `time` and the seqs up to `seq` are used. It holds right after an event of that key has fired. -/
structure State.AfterKey (s : State) (time seq : Nat) : Prop where
  now : time ≤ s.items.now.toNat
  counter : seq < s.items.nextSeq
  queue : ∀ e ∈ s.items.queue, time < e.fireTime.toNat ∨ (time = e.fireTime.toNat ∧ seq < e.seq)
  /-- What a live current event will become at its re-arm: its next time is later. -/
  current : ∀ c, s.items.cur = some c → c.live = true → time < rearmTime c.entry

/-- The machine beside an environment that makes the offers `offer` (R38). -/
def coreWith (offer : Nat → List PortWord × List PortWord) : Host.Core :=
  { State := State, Fault := Fault, Refusal := Refusal, step := stepWith offer, reset := State.reset }

/-- ARB is in one of the three states of R161: disabled, with a reset pending or not, the primary running and the
secondary halted; or enabled with no reset pending, the primary halted and the secondary running. -/
def Items.ArbState (t : Items) : Prop :=
  (t.secondaryEnabled = false ∧ t.primaryHalted = false ∧ t.secondaryHalted = true) ∨
    (t.secondaryEnabled = true ∧ t.resetPending = false ∧ t.primaryHalted = true ∧ t.secondaryHalted = false)

/-- Runs commands one after the other, stopping at the first fault or refusal. -/
def execAll : List Instr → State → Host.Outcome State Fault Refusal
  | [], s => .next s
  | i :: is, s =>
    match exec i s with
    | .next t => execAll is t
    | .fault r => .fault r
    | .refused r => .refused r

/-- The CPU-port messages of one pulse of line (c, l) that starts at `ta` (R135). -/
def pulseMessages (c l : Fin 2) (ta : Nat) (h : Nat) : List Msg :=
  [.cpu (.assertLine c l) (BitVec.ofNat 64 ta), .cpu (.clearLine c l) (BitVec.ofNat 64 (ta + h))]

/-- The messages of `k` pulses, the first at `ta`, one every `fp` ticks. -/
def pulseTrain (c l : Fin 2) (ta h fp : Nat) : Nat → List Msg
  | 0 => []
  | k + 1 => pulseMessages c l ta h ++ pulseTrain c l (ta + fp) h fp k

/-- How many messages of a history install the secondary's reset vector `v` (R151, R159). -/
def countInstalls (v : Address) (ms : List (CpuMsg × Word)) : Nat :=
  (ms.filter fun m => decide (m.1 = .setProgramCounter 1 v)).length

end Sys2Proof.Machine
end

