-- ==== Sys2Proof/Certificates/Slice0/Obligations.lean ====
section
/-! DEFINITION. The statements for the provers, one `def Obligations.<Name> : Prop` each. -/
open Sys2Proof Sys2Proof.Machine

/-! ## Encoding -/

/-- Decoding the encoding of a well-formed command gives the command back and leaves exactly what follows it,
on a word-wide and on a byte-wide transport (30_encoding.md R84, 20_memory.md R55). -/
def Obligations.DecodeInvertsEncode : Prop :=
  ∀ i : Instr, i.wf = true →
    (∀ rest, decode (.wordWide (encode i ++ rest)) = .command i (.wordWide rest)) ∧
    (∀ rest, decode (.byteWide (encodeBytes i ++ rest)) = .command i (.byteWide rest))

/-- No command has two encodings: bytes that decode to a command are its encoding and then the rest, and the
command is well formed (R84, R83). -/
def Obligations.EachCommandHasOneEncoding : Prop :=
  ∀ (bytes : List Byte) (i : Instr) (p : Port), decode (.byteWide bytes) = .command i p →
    i.wf = true ∧ ∃ rest, p = .byteWide rest ∧ bytes = encodeBytes i ++ rest

/-- Some of the words of R82's table decode to the commands it lists. -/
def Obligations.WordsOfTheTableDecode : Prop :=
  decode (.wordWide [.w32 0x10000003, .w64 0x64, .w64 0x32, .w64 9]) =
      .command (.sched true 100 true 50 9) (.wordWide []) ∧
    decode (.wordWide [.w32 0x10000000, .w64 0xFFFFFFFFFFFFFFFD, .w64 0, .w64 1]) =
      .command (.sched false (-3) false 0 1) (.wordWide []) ∧
    decode (.wordWide [.w32 0x20000100]) = .command (.irqSet 0 1) (.wordWide []) ∧
    decode (.wordWide [.w32 0x34000000, .w64 0x1234, .w64 0x5A]) = .command (.arbWr 0 0x1234 0x5A) (.wordWide [])

/-! ## What a step takes -/

/-- A step runs the command that decodes where the phase says commands are taken, in the state with that
command taken from the port; nothing else is added around it. In IDLE that is so whenever no host operation is served
first, beside a refused RESTORE too (log 15). The order of the last two clauses, the client's
command before the host's in a faulted callback, is the model's choice (log 13). -/
def Obligations.StepRunsTheDecodedCommand : Prop :=
  ∀ (s : State) (i : Instr) (rest : Port),
    (s.items.phase = .idle → (∀ op, s.nextAction ≠ .serve op) → decode s.hostPort = .command i rest →
      step s = exec i { s with hostPort := rest }) ∧
    (∀ T, s.items.phase = .callback T → s.items.fault = 0 → decode s.clientPort = .command i rest →
      step s = exec i { s with clientPort := rest }) ∧
    (∀ T, s.items.phase = .draining T → s.items.fault ≠ 0 → decode s.hostPort = .command i rest →
      step s = exec i { s with hostPort := rest }) ∧
    (∀ T, s.items.phase = .callback T → s.items.fault ≠ 0 → decode s.clientPort = .command i rest →
      step s = exec i { s with clientPort := rest }) ∧
    (∀ T, s.items.phase = .callback T → s.items.fault ≠ 0 → decode s.clientPort = .incomplete →
      decode s.hostPort = .command i rest → step s = exec i { s with hostPort := rest })

/-- With no whole command where the phase takes commands, and nothing else to do, TIA waits: it receives what the
environment offers next, on both sides of the port, and where the environment stays silent no step is possible
(R38, R56, R198). That holds beside every environment; the machine's own `step` is the one whose offers are free
values. The form of the wait and of the offers is the model's choice (log 1, log 2), and so is the last case, a faulted
callback that takes either side's commands (log 13). Beside a refused RESTORE the silence is answered by its refusal
(log 15). -/
def Obligations.StepWaitsForAWholeCommand : Prop :=
  (∀ s : State, step s = stepWith Config.offer s) ∧
  ∀ (offer : Nat → List PortWord × List PortWord) (s : State),
    ((s.items.phase = .idle ∧ (∀ op, s.nextAction ≠ .serve op) ∧ decode s.hostPort = .incomplete) ∨
      (∃ T, s.items.phase = .callback T ∧ s.items.fault = 0 ∧ decode s.clientPort = .incomplete) ∨
      (∃ T, s.items.phase = .draining T ∧ s.items.fault ≠ 0 ∧ decode s.hostPort = .incomplete) ∨
      (∃ T, s.items.phase = .callback T ∧ s.items.fault ≠ 0 ∧ decode s.clientPort = .incomplete ∧
        decode s.hostPort = .incomplete)) →
    (offer s.offers = ([], []) → (s.hostOp = none ∨ s.items.phase ≠ .idle) →
      stepWith offer s = .fault .awaitingCommand) ∧
    (offer s.offers = ([], []) → ∀ t, stepWith offer s ≠ .next t) ∧
    (offer s.offers ≠ ([], []) → stepWith offer s = .next { s with
      hostPort := s.hostPort.offer (offer s.offers).1
      clientPort := s.clientPort.offer (offer s.offers).2
      offers := s.offers + 1 })

/-- An opcode outside the map consumes one header word, records D_UNKNOWN_OPCODE and does nothing else, from
the host and from the client, on either transport (R73). -/
def Obligations.UnknownOpcodeConsumesOneWord : Prop :=
  ∀ (s : State) (h : HeaderWord) (rest : Port), s.items.fault = 0 →
    headerOpc h ∉ ([0x00, 0x01, 0x10, 0x11, 0x12, 0x13, 0x14, 0x15, 0x16, 0x20, 0x21, 0x22, 0x23,
      0x30, 0x31, 0x32, 0x33, 0x34, 0x35] : List Byte) →
    (s.items.phase = .idle → (∀ op, s.nextAction ≠ .serve op) → s.hostPort.takeHeader = some (h, rest) →
      step s = .next { s with
        hostPort := rest
        items := { s.items with diagCount := s.items.diagCount + 1, lastDiag := 0x01 }
        history := s.history ++ [.diag 0x01 (headerOpc h)] }) ∧
    (∀ T, s.items.phase = .callback T → s.clientPort.takeHeader = some (h, rest) →
      step s = .next { s with
        clientPort := rest
        items := { s.items with diagCount := s.items.diagCount + 1, lastDiag := 0x01 }
        history := s.history ++ [.diag 0x01 (headerOpc h)] })

/-- A known opcode with a non-zero header bit it does not use is consumed whole, records D_RESERVED_FIELD,
appends its full count of zero responses and changes no other state (R71, R72). The list holds R69's rows: the opcode,
the header bits its fields occupy (R66), its operand words and its response words. -/
def Obligations.ReservedHeaderFieldIsADiagnostic : Prop :=
  ∀ (s : State) (h : HeaderWord) (fields : HeaderWord) (operands responses : Nat) (ops : List Word)
    (mid rest : Port) (k : Nat), s.items.fault = 0 →
    (headerOpc h, fields, operands, responses) ∈ ([
      (0x00, 0x00000000, 0, 0), (0x01, 0x00000000, 0, 4),
      (0x10, 0x00000003, 3, 1), (0x11, 0x00000000, 1, 0), (0x12, 0x00000000, 1, 0), (0x13, 0x00000000, 0, 0),
      (0x14, 0x00000000, 0, 1), (0x15, 0x00000000, 1, 4), (0x16, 0x00000000, 0, 3),
      (0x20, 0x00FFFF00, 0, 0), (0x21, 0x00FFFF00, 0, 0), (0x22, 0x00FFFF00, 1, 2), (0x23, 0x00FFFF00, 0, 1),
      (0x30, 0x00000004, 0, 0), (0x31, 0x00000000, 0, 0), (0x32, 0x00000008, 0, 0), (0x33, 0x00FF0000, 1, 1),
      (0x34, 0x00FF0000, 2, 0), (0x35, 0x00000000, 0, 1)] : List (Byte × HeaderWord × Nat × Nat)) →
    k < 24 → fields.getLsbD k = false → h.getLsbD k = true →
    mid.takeOperands operands = some (ops, rest) →
    (s.items.phase = .idle → (∀ op, s.nextAction ≠ .serve op) → s.hostPort.takeHeader = some (h, mid) →
      step s = .next { s with
        hostPort := rest
        items := { s.items with diagCount := s.items.diagCount + 1, lastDiag := 0x02 }
        history := s.history ++ .diag 0x02 (headerOpc h) :: List.replicate responses (.resp 0) }) ∧
    (∀ T, s.items.phase = .callback T → s.clientPort.takeHeader = some (h, mid) →
      step s = .next { s with
        clientPort := rest
        items := { s.items with diagCount := s.items.diagCount + 1, lastDiag := 0x02 }
        history := s.history ++ .diag 0x02 (headerOpc h) :: List.replicate responses (.resp 0) })

/-- While a drain is in progress no port and no host operation is looked at: they are held, and what the step
does is the same whatever they hold (R33, R173, R217). -/
def Obligations.OffersAreHeldWhileDraining : Prop :=
  ∀ (s : State) (T : Word) (hp cp : Port) (op : Option HostOp), s.items.phase = .draining T → s.items.fault = 0 →
    ∃ t, step s = .next t ∧
      step { s with hostPort := hp, clientPort := cp, hostOp := op } =
        .next { t with hostPort := hp, clientPort := cp, hostOp := op }

/-! ## Block control -/

/-- NOP leaves every state as it is; 0x00000000 is its only word (R170). -/
def Obligations.NopLeavesEverythingUnchanged : Prop :=
  (∀ s : State, exec .nop s = .next s) ∧
    (∀ rest, decode (.wordWide (.w32 0 :: rest)) = .command .nop (.wordWide rest)) ∧
    (∀ (h : HeaderWord) (rest : List PortWord), headerOpc h = 0 → h ≠ 0 →
      decode (.wordWide (.w32 h :: rest)) = .badFields 0 1 (.wordWide rest))

/-- STATUS answers phase code and fault, diag_count, last_diag and the target, in every state, and does nothing else
(R171). Its word is 0x01000000. -/
def Obligations.StatusAnswersAlways : Prop :=
  (∀ rest, decode (.wordWide (.w32 0x01000000 :: rest)) = .command .status (.wordWide rest)) ∧
  ∀ s : State, exec .status s = .next { s with history := s.history ++ [
    .resp (BitVec.ofNat 64 ((match s.items.phase with
      | .idle => 0
      | .draining _ => 256
      | .callback _ => 512) + s.items.fault.toNat)),
    .resp s.items.diagCount,
    .resp (BitVec.ofNat 64 s.items.lastDiag.toNat),
    .resp (match s.items.phase with
      | .idle => 0
      | .draining T => T
      | .callback T => T)] }

/-! ## TMR -/

/-- SCHED inserts one event at the later of `now` and the time asked for, under the next handle and the next
seq, and answers the handle; nothing else changes (R100, R101). -/
def Obligations.SchedInsertsTheEvent : Prop :=
  ∀ (s : State) (absolute : Bool) (t : Int) (recurring : Bool) (p : Int) (y : Word),
    s.items.fault = 0 → (Instr.sched absolute t recurring p y).wf = true →
    (recurring = false → p = 0) → (recurring = true → 0 < p) →
    max (s.items.now.toNat : Int) (if absolute then t else s.items.now.toNat + t) < 2 ^ 64 →
    (∀ n, s.cfg.queueCapacity = some n → s.items.occ < n) →
    s.items.nextHandle.toNat + 1 < 2 ^ 64 →
    ∃ (e : Entry) (u : State), exec (.sched absolute t recurring p y) s = .next u ∧
      e.handle = s.items.nextHandle ∧ e.payload = .ext y ∧ e.recurring = recurring ∧ e.seq = s.items.nextSeq ∧
      (e.fireTime.toNat : Int) = max (s.items.now.toNat : Int) (if absolute then t else s.items.now.toNat + t) ∧
      (e.period.toNat : Int) = p ∧
      u.items.queue.Perm (e :: s.items.queue) ∧
      u = { s with
        items := { s.items with
          queue := u.items.queue
          nextHandle := s.items.nextHandle + 1
          nextSeq := s.items.nextSeq + 1 }
        history := s.history ++ [.resp s.items.nextHandle] }

/-- SCHED's refusals, the first that applies: a period on a one-shot event is a diagnostic with a zero
response; a period <= 0, a time of 2^64 or more, a full queue and spent handles are faults that change
nothing but `fault` (R100, R75, R181, R183). -/
def Obligations.SchedRefusalsInOrder : Prop :=
  ∀ (s : State) (absolute : Bool) (t : Int) (recurring : Bool) (p : Int) (y : Word), s.items.fault = 0 →
    (recurring = false → p ≠ 0 → exec (.sched absolute t recurring p y) s = .next { s with
      items := { s.items with diagCount := s.items.diagCount + 1, lastDiag := 0x02 }
      history := s.history ++ [.diag 0x02 0x10, .resp 0] }) ∧
    (recurring = true → p ≤ 0 → exec (.sched absolute t recurring p y) s = .next { s with
      items := { s.items with fault := 0x01 }, history := s.history ++ [.fault 0x01 0x10] }) ∧
    (((recurring = false ∧ p = 0) ∨ (recurring = true ∧ 0 < p)) →
      (2 ^ 64 ≤ max (s.items.now.toNat : Int) (if absolute then t else s.items.now.toNat + t) →
        exec (.sched absolute t recurring p y) s = .next { s with
          items := { s.items with fault := 0x04 }, history := s.history ++ [.fault 0x04 0x10] }) ∧
      (max (s.items.now.toNat : Int) (if absolute then t else s.items.now.toNat + t) < 2 ^ 64 →
        (∀ n, s.cfg.queueCapacity = some n → n ≤ s.items.occ →
          exec (.sched absolute t recurring p y) s = .next { s with
            items := { s.items with fault := 0x06 }, history := s.history ++ [.fault 0x06 0x10] }) ∧
        ((∀ n, s.cfg.queueCapacity = some n → s.items.occ < n) → s.items.nextHandle.toNat = 2 ^ 64 - 1 →
          exec (.sched absolute t recurring p y) s = .next { s with
            items := { s.items with fault := 0x07 }, history := s.history ++ [.fault 0x07 0x10] })))

/-- CANCEL removes the event of Q that has the handle; or takes the live bit of the current event that has it; or
records D_STALE_HANDLE. Nothing else changes (R103). Its words are 0x11000000 and the handle. -/
def Obligations.CancelByHandle : Prop :=
  (∀ h rest, decode (.wordWide (.w32 0x11000000 :: .w64 h :: rest)) = .command (.cancel h) (.wordWide rest)) ∧
  ∀ (s : State) (h : Word), s.items.fault = 0 →
    ((∃ e ∈ s.items.queue, e.handle = h) → exec (.cancel h) s = .next { s with
      items := { s.items with queue := s.items.queue.filter fun e => e.handle != h } }) ∧
    ((∀ e ∈ s.items.queue, e.handle ≠ h) → ∀ c, s.items.cur = some c → c.live = true → c.entry.handle = h →
      exec (.cancel h) s = .next { s with
        items := { s.items with cur := some { entry := c.entry, live := false } } }) ∧
    ((∀ e ∈ s.items.queue, e.handle ≠ h) →
      (∀ c, s.items.cur = some c → c.live = true → c.entry.handle ≠ h) →
      exec (.cancel h) s = .next { s with
        items := { s.items with diagCount := s.items.diagCount + 1, lastDiag := 0x03 }
        history := s.history ++ [.diag 0x03 0x11] })

/-- ADVANCE in IDLE to `now` or later starts the drain; to an earlier time it records D_TIME_BACKWARD; in a callback
it is the fault F_REENTRANT (R104). Its words are 0x12000000 and the time. -/
def Obligations.AdvanceStartsTheDrain : Prop :=
  (∀ h rest, decode (.wordWide (.w32 0x12000000 :: .w64 h :: rest)) = .command (.advance h) (.wordWide rest)) ∧
  ∀ (s : State) (t : Word), s.items.fault = 0 →
    (s.items.phase = .idle → s.items.now.toNat ≤ t.toNat →
      exec (.advance t) s = .next { s with items := { s.items with phase := .draining t } }) ∧
    (s.items.phase = .idle → t.toNat < s.items.now.toNat →
      exec (.advance t) s = .next { s with
        items := { s.items with diagCount := s.items.diagCount + 1, lastDiag := 0x04 }
        history := s.history ++ [.diag 0x04 0x12] }) ∧
    (∀ T, s.items.phase = .callback T →
      exec (.advance t) s = .next { s with
        items := { s.items with fault := 0x05 }, history := s.history ++ [.fault 0x05 0x12] })

/-- CBDONE in a callback re-arms a live event at its own fire time plus its period, with a fresh seq and the same
handle, ends the callback and resumes the drain; for an event that is not live it only ends the callback; in IDLE it
records D_CB_DONE_IDLE (R110, R111). Its word is 0x13000000. -/
def Obligations.CbdoneEndsTheCallback : Prop :=
  (∀ rest, decode (.wordWide (.w32 0x13000000 :: rest)) = .command .cbdone (.wordWide rest)) ∧
  ∀ s : State, s.items.fault = 0 →
    (∀ T c, s.items.phase = .callback T → s.items.cur = some c → c.live = true →
      c.entry.fireTime.toNat + c.entry.period.toNat < 2 ^ 64 →
      ∃ u, exec .cbdone s = .next u ∧
        u.items.queue.Perm ({ c.entry with
          fireTime := c.entry.fireTime + c.entry.period, seq := s.items.nextSeq } :: s.items.queue) ∧
        u = { s with items := { s.items with
          queue := u.items.queue, nextSeq := s.items.nextSeq + 1, cur := none, phase := .draining T } }) ∧
    (∀ T c, s.items.phase = .callback T → s.items.cur = some c → c.live = false →
      exec .cbdone s = .next { s with items := { s.items with cur := none, phase := .draining T } }) ∧
    (s.items.phase = .idle → exec .cbdone s = .next { s with
      items := { s.items with diagCount := s.items.diagCount + 1, lastDiag := 0x06 }
      history := s.history ++ [.diag 0x06 0x13] })

/-- RDNOW answers `now` and changes nothing (R114). Its word is 0x14000000. -/
def Obligations.RdnowAnswersNow : Prop :=
  (∀ rest, decode (.wordWide (.w32 0x14000000 :: rest)) = .command .rdnow (.wordWide rest)) ∧
  ∀ s : State, s.items.fault = 0 →
    exec .rdnow s = .next { s with history := s.history ++ [.resp s.items.now] }

/-- RDSCAN answers the scanline derived from `now`, the number of scanlines and the start of horizontal blank, and
changes nothing (R116, R27; FRAME_ORIGIN = 0). A word for a parameter of 2^64 or more is not stated (log 24). Its word
is 0x16000000. -/
def Obligations.RdscanAnswersThePosition : Prop :=
  (∀ rest, decode (.wordWide (.w32 0x16000000 :: rest)) = .command .rdscan (.wordWide rest)) ∧
  ∀ s : State, s.items.fault = 0 → ∃ line n h : Word, exec .rdscan s = .next { s with
      history := s.history ++ [.resp line, .resp n, .resp h] } ∧
    line.toNat = s.items.now.toNat / s.cfg.linePeriod % s.cfg.totalScanlines ∧
    (s.cfg.totalScanlines < 2 ^ 64 → n.toNat = s.cfg.totalScanlines) ∧
    (s.cfg.hblankStart < 2 ^ 64 → h.toNat = s.cfg.hblankStart)

/-- QUERY answers the four words of the event with the handle, in Q or in its callback, and zeros for any other
handle; it changes nothing (R115). Its words are 0x15000000 and the handle. -/
def Obligations.QueryReportsTheEvent : Prop :=
  (∀ h rest, decode (.wordWide (.w32 0x15000000 :: .w64 h :: rest)) = .command (.query h) (.wordWide rest)) ∧
  ∀ (s : State) (h : Word), s.items.fault = 0 →
    (∀ e ∈ s.items.queue, e.handle = h → (∀ x ∈ s.items.queue, x.handle = h → x = e) →
      exec (.query h) s = .next { s with history := s.history ++ [
        .resp (BitVec.ofNat 64 (1 + 2 * e.recurring.toNat + (match e.payload with
          | .ext _ => 0
          | .irqAssert _ _ => 256
          | .irqClear _ _ => 512))),
        .resp e.fireTime, .resp e.period,
        .resp (match e.payload with
          | .ext y => y
          | .irqAssert c l => BitVec.ofNat 64 (256 * c.val + l.val)
          | .irqClear c l => BitVec.ofNat 64 (256 * c.val + l.val))] }) ∧
    ((∀ e ∈ s.items.queue, e.handle ≠ h) → ∀ c y, s.items.cur = some c → c.live = true → c.entry.handle = h →
      c.entry.payload = .ext y →
      exec (.query h) s = .next { s with history := s.history ++ [
        .resp (BitVec.ofNat 64 (5 + 2 * c.entry.recurring.toNat)),
        .resp c.entry.fireTime, .resp c.entry.period, .resp y] }) ∧
    ((∀ e ∈ s.items.queue, e.handle ≠ h) →
      (∀ c, s.items.cur = some c → c.live = true → c.entry.handle ≠ h) →
      exec (.query h) s = .next { s with history := s.history ++ [.resp 0, .resp 0, .resp 0, .resp 0] })

/-! ## The drain -/

/-- With nothing due the drain step ends the drain: `now` is the target, the phase IDLE, and
`advance_done(T)` is sent (R106). -/
def Obligations.DrainEndsWhenNothingIsDue : Prop :=
  ∀ (s : State) (T : Word), s.items.phase = .draining T → s.items.fault = 0 →
    (∀ e ∈ s.items.queue, T.toNat < e.fireTime.toNat) →
    step s = .next { s with
      items := { s.items with now := T, phase := .idle }, history := s.history ++ [.done T] }

/-- The drain step fires the due external event of least key: it leaves Q, `now` becomes its fire time, the
client is called, and the callback opens with the event live exactly when it is recurring (R106, R107). -/
def Obligations.DrainCallsTheClientOfTheLeastKey : Prop :=
  ∀ (s : State) (T : Word) (e : Entry) (y : Word), s.items.phase = .draining T → s.items.fault = 0 →
    e ∈ s.items.queue → e.fireTime.toNat ≤ T.toNat →
    (∀ x ∈ s.items.queue, x ≠ e → keyLess e x) → e.payload = .ext y →
    (e.recurring = true → e.fireTime.toNat + e.period.toNat < 2 ^ 64) →
    step s = .next { s with
      items := { s.items with
        queue := s.items.queue.filter fun x => x.handle != e.handle
        now := e.fireTime
        cur := some { entry := e, live := e.recurring }
        phase := .callback T }
      history := s.history ++ [.fire e.handle y e.fireTime] }

/-- The drain step fires the due internal event of least key inside ILC: the line takes the event's level, a
message stamped with the fire time is sent exactly when the level changes, the phase stays, and a recurring
event is back in Q at fire time plus period with a fresh seq (R106, R107, R111, R134). -/
def Obligations.DrainFiresInternalEvents : Prop :=
  ∀ (s : State) (T : Word) (e : Entry) (c l : Fin 2) (level : Bool),
    s.items.phase = .draining T → s.items.fault = 0 →
    e ∈ s.items.queue → e.fireTime.toNat ≤ T.toNat → (∀ x ∈ s.items.queue, x ≠ e → keyLess e x) →
    e.payload = (if level then .irqAssert c l else .irqClear c l) →
    (e.recurring = true → e.fireTime.toNat + e.period.toNat < 2 ^ 64) →
    ∃ u, step s = .next u ∧
      (∀ i j, u.items.line i j = if i = c ∧ j = l then level else s.items.line i j) ∧
      (e.recurring = false → u.items.nextSeq = s.items.nextSeq ∧
        u.items.queue = s.items.queue.filter fun x => x.handle != e.handle) ∧
      (e.recurring = true → u.items.nextSeq = s.items.nextSeq + 1 ∧
        u.items.queue.Perm ({ e with fireTime := e.fireTime + e.period, seq := s.items.nextSeq } ::
          s.items.queue.filter fun x => x.handle != e.handle)) ∧
      u.history = s.history ++ (if s.items.line c l = level then []
        else [.cpu (if level then .assertLine c l else .clearLine c l) e.fireTime]) ∧
      u = { s with
        items := { s.items with
          now := e.fireTime, queue := u.items.queue, asserted := u.items.asserted, nextSeq := u.items.nextSeq }
        history := u.history }

/-- A due recurring event whose next time would be 2^64 or more is not fired: the drain step faults with
F_TIME_OVERFLOW and OPC 0xFF, and nothing but `fault` changes (R106, R183). -/
def Obligations.DrainFaultsBeforeAnOverflow : Prop :=
  ∀ (s : State) (T : Word) (e : Entry), s.items.phase = .draining T → s.items.fault = 0 →
    e ∈ s.items.queue → e.fireTime.toNat ≤ T.toNat → (∀ x ∈ s.items.queue, x ≠ e → keyLess e x) →
    e.recurring = true → 2 ^ 64 ≤ e.fireTime.toNat + e.period.toNat →
    step s = .next { s with
      items := { s.items with fault := 0x04 }, history := s.history ++ [.fault 0x04 0xFF] }

/-- The drain ends only when nothing is due: a drain step that leaves the phase IDLE leaves no event of Q at or
before the target (R113, R117: cascaded and re-armed events fire in the same ADVANCE). -/
def Obligations.NoDrainEndsWithAnEventDue : Prop :=
  ∀ (s t : State) (T : Word), s.items.phase = .draining T → s.items.fault = 0 → step s = .next t →
    t.items.phase = .idle → t.items.queue = s.items.queue ∧ ∀ e ∈ t.items.queue, T.toNat < e.fireTime.toNat

/-- Firing the least key puts it behind: nothing left in Q, and nothing a re-arm brings, has a key at or before
it (R107, R117). -/
def Obligations.FiringLeavesOnlyLaterKeys : Prop :=
  ∀ (s : State) (T : Word) (e : Entry), s.Inv → s.items.phase = .draining T → s.items.fault = 0 →
    e ∈ s.items.queue → e.fireTime.toNat ≤ T.toNat → (∀ x ∈ s.items.queue, x ≠ e → keyLess e x) →
    (e.recurring = true → e.fireTime.toNat + e.period.toNat < 2 ^ 64) →
    ∃ t, step s = .next t ∧ t.AfterKey e.fireTime.toNat e.seq

/-- Timer ordering: once a key has been fired, however many steps follow (commands of host and client, drain
steps, faults), no event at or before that key is ever in Q again, so firings come in non-decreasing fire time
and in insertion order at equal times (R117). No RESTORE is pending, which replaces Q; a SNAPSHOT may be. -/
def Obligations.FiringsComeInKeyOrder : Prop :=
  ∀ (n : Nat) (s t : State) (time seq : Nat), s.Inv → (∀ x, s.hostOp ≠ some (.restore x)) → s.AfterKey time seq →
    core.run n s = .next t → t.AfterKey time seq

/-- Catch-up and pulses: in one drain whose other events all lie past its target, `k` due periods of the pulse of
line (c, l) fire as `k` pairs of assert and clear, in order, none merged, each stamped with its own time; the two
events end one period past the last, and the others are untouched (R119, R135). -/
def Obligations.OneAdvanceRunsEveryPulse : Prop :=
  ∀ (k : Nat) (s : State) (T ha hc : Word) (c l : Fin 2) (ta qa qc : Nat) (rest : List Entry),
    s.cfg.valid = true → s.items.phase = .draining T → s.items.fault = 0 → s.items.line c l = false →
    framePeriod s.cfg < 2 ^ 64 → ha ≠ hc →
    ta + k * framePeriod s.cfg + s.cfg.hblankStart < 2 ^ 64 →
    (∀ j < k, ta + j * framePeriod s.cfg + s.cfg.hblankStart ≤ T.toNat) →
    (∀ e ∈ rest, T.toNat < e.fireTime.toNat ∧ e.handle ≠ ha ∧ e.handle ≠ hc) →
    s.items.queue.Perm (
      ⟨ha, BitVec.ofNat 64 ta, .irqAssert c l, true, BitVec.ofNat 64 (framePeriod s.cfg), qa⟩ ::
      ⟨hc, BitVec.ofNat 64 (ta + s.cfg.hblankStart), .irqClear c l, true,
        BitVec.ofNat 64 (framePeriod s.cfg), qc⟩ :: rest) →
    ∃ (t : State) (qa' qc' : Nat), core.run (2 * k) s = .next t ∧
      t.history = s.history ++ pulseTrain c l ta s.cfg.hblankStart (framePeriod s.cfg) k ∧
      t.items.line c l = false ∧ t.items.phase = .draining T ∧
      t.items.queue.Perm (
        ⟨ha, BitVec.ofNat 64 (ta + k * framePeriod s.cfg), .irqAssert c l, true,
          BitVec.ofNat 64 (framePeriod s.cfg), qa'⟩ ::
        ⟨hc, BitVec.ofNat 64 (ta + k * framePeriod s.cfg + s.cfg.hblankStart), .irqClear c l, true,
          BitVec.ofNat 64 (framePeriod s.cfg), qc'⟩ :: rest)

/-- Recurring firings do not drift: in one drain whose Q holds only one recurring event, with a client that has
offered a CBDONE for every firing on a word-wide port, `k` due instances fire at exactly f, f + p, ..., f + (k - 1)p,
and the event is then back at f + kp (R118). -/
def Obligations.RecurringFiringsDoNotDrift : Prop :=
  ∀ (k : Nat) (s : State) (T h y p : Word) (f q : Nat),
    s.items.phase = .draining T → s.items.fault = 0 → f + k * p.toNat < 2 ^ 64 →
    (∀ j < k, f + j * p.toNat ≤ T.toNat) →
    s.items.queue = [⟨h, BitVec.ofNat 64 f, .ext y, true, p, q⟩] →
    s.clientPort = .wordWide (List.replicate k (.w32 0x13000000)) →
    ∃ (t : State) (q' : Nat), core.run (2 * k) s = .next t ∧
      t.history = s.history ++ (List.range k).map (fun j => .fire h y (BitVec.ofNat 64 (f + j * p.toNat))) ∧
      t.items.queue = [⟨h, BitVec.ofNat 64 (f + k * p.toNat), .ext y, true, p, q'⟩] ∧
      t.items.phase = .draining T ∧ t.clientPort = .wordWide []

/-- Time moves only in drain steps and never back, as long as no RESTORE is served: a step that is not a drain step
(a command, a rejected header, a SNAPSHOT, a wait, any step of a faulted TIA) keeps `now`, and no step moves it back
(R26). -/
def Obligations.NowNeverDecreases : Prop :=
  (∀ (i : Instr) (s t : State), exec i s = .next t → t.items.now = s.items.now) ∧
    (∀ s t : State, (∀ x, s.nextAction ≠ .serve (.restore x)) → (∀ T, s.items.phase = .draining T → s.items.fault ≠ 0) →
      step s = .next t → t.items.now = s.items.now) ∧
    (∀ s t : State, s.Inv → (∀ x, s.nextAction ≠ .serve (.restore x)) → step s = .next t →
      s.items.now.toNat ≤ t.items.now.toNat)

/-- A handle that has been issued and is no longer valid never becomes valid again, and `next_handle` never
goes back (R23, R35), in every step but a RESTORE that is served, which replaces Q and the counter. -/
def Obligations.StaleHandlesStayStale : Prop :=
  ∀ (s t : State) (h : Word), (∀ x, s.nextAction ≠ .serve (.restore x)) → step s = .next t → h.toNat < s.items.nextHandle.toNat →
    s.items.validHandle h = false →
    s.items.nextHandle.toNat ≤ t.items.nextHandle.toNat ∧ t.items.validHandle h = false

/-! ## ILC -/

/-- IRQ.SET and IRQ.CLR set and clear the line they name and no other, and send one message, stamped `now`,
exactly when the level changes (R130, R131, R134). -/
def Obligations.IrqSetAndClrWriteOneLine : Prop :=
  ∀ (s : State) (c l : Byte) (i j : Fin 2), s.items.fault = 0 → c.toNat = i.val → l.toNat = j.val →
    (∃ u, exec (.irqSet c l) s = .next u ∧
      (∀ i' j', u.items.line i' j' = if i' = i ∧ j' = j then true else s.items.line i' j') ∧
      u = { s with
        items := { s.items with asserted := u.items.asserted }
        history := s.history ++ (if s.items.line i j = true then [] else [.cpu (.assertLine i j) s.items.now]) }) ∧
    (∃ u, exec (.irqClr c l) s = .next u ∧
      (∀ i' j', u.items.line i' j' = if i' = i ∧ j' = j then false else s.items.line i' j') ∧
      u = { s with
        items := { s.items with asserted := u.items.asserted }
        history := s.history ++ (if s.items.line i j = true then [.cpu (.clearLine i j) s.items.now] else []) })

/-- IRQ.RD answers the line's level and changes nothing (R136). -/
def Obligations.IrqRdAnswersTheLevel : Prop :=
  ∀ (s : State) (c l : Byte) (i j : Fin 2), s.items.fault = 0 → c.toNat = i.val → l.toNat = j.val →
    exec (.irqRd c l) s = .next { s with
      history := s.history ++ [.resp (if s.items.line i j = true then 1 else 0)] }

/-- Every ILC command with a CPU id or a line id of 2 or more is the fault F_BAD_ID and changes nothing else
(R138). -/
def Obligations.IlcChecksIdsFirst : Prop :=
  ∀ (s : State) (c l : Byte) (line : Word), s.items.fault = 0 → (2 ≤ c.toNat ∨ 2 ≤ l.toNat) →
    exec (.irqSet c l) s = .next { s with
      items := { s.items with fault := 0x02 }, history := s.history ++ [.fault 0x02 0x20] } ∧
    exec (.irqClr c l) s = .next { s with
      items := { s.items with fault := 0x02 }, history := s.history ++ [.fault 0x02 0x21] } ∧
    exec (.irqPer c l line) s = .next { s with
      items := { s.items with fault := 0x02 }, history := s.history ++ [.fault 0x02 0x22] } ∧
    exec (.irqRd c l) s = .next { s with
      items := { s.items with fault := 0x02 }, history := s.history ++ [.fault 0x02 0x23] }

/-- IRQ.PER inserts two recurring events with period N * L, an assert at the scanline's first start and a clear
H ticks later, under two new handles, and answers them; nothing else changes (R132). That N * L fits 64 bits
is a condition the model adds (log 11). -/
def Obligations.IrqPerInsertsAPulse : Prop :=
  ∀ (s : State) (c l : Byte) (i j : Fin 2) (line : Word) (ta : Nat), s.items.fault = 0 →
    c.toNat = i.val → l.toNat = j.val → line.toNat < s.cfg.totalScanlines →
    ta = firstAssert s.cfg s.items.now line.toNat → ta + s.cfg.hblankStart < 2 ^ 64 →
    s.cfg.totalScanlines * s.cfg.linePeriod < 2 ^ 64 →
    (∀ n, s.cfg.queueCapacity = some n → s.items.occ + 2 ≤ n) → s.items.nextHandle.toNat + 2 < 2 ^ 64 →
    ∃ u, exec (.irqPer c l line) s = .next u ∧
      u.items.queue.Perm (
        { handle := s.items.nextHandle, fireTime := BitVec.ofNat 64 ta, payload := .irqAssert i j,
          recurring := true, period := BitVec.ofNat 64 (s.cfg.totalScanlines * s.cfg.linePeriod), seq := s.items.nextSeq } ::
        { handle := s.items.nextHandle + 1, fireTime := BitVec.ofNat 64 (ta + s.cfg.hblankStart),
          payload := .irqClear i j, recurring := true, period := BitVec.ofNat 64 (s.cfg.totalScanlines * s.cfg.linePeriod),
          seq := s.items.nextSeq + 1 } :: s.items.queue) ∧
      u = { s with
        items := { s.items with
          queue := u.items.queue
          nextHandle := s.items.nextHandle + 2
          nextSeq := s.items.nextSeq + 2 }
        history := s.history ++ [.resp s.items.nextHandle, .resp (s.items.nextHandle + 1)] }

/-- IRQ.PER's faults, the first that applies, each changing nothing but `fault` (R132, R138, R183). The clause
on N * L is the model's (log 11). -/
def Obligations.IrqPerFaultsInOrder : Prop :=
  ∀ (s : State) (c l : Byte) (line : Word), s.items.fault = 0 → c.toNat < 2 → l.toNat < 2 →
    (s.cfg.totalScanlines ≤ line.toNat → exec (.irqPer c l line) s = .next { s with
      items := { s.items with fault := 0x03 }, history := s.history ++ [.fault 0x03 0x22] }) ∧
    (line.toNat < s.cfg.totalScanlines →
      (2 ^ 64 ≤ firstAssert s.cfg s.items.now line.toNat + s.cfg.hblankStart ∨
          2 ^ 64 ≤ s.cfg.totalScanlines * s.cfg.linePeriod →
        exec (.irqPer c l line) s = .next { s with
          items := { s.items with fault := 0x04 }, history := s.history ++ [.fault 0x04 0x22] }) ∧
      (firstAssert s.cfg s.items.now line.toNat + s.cfg.hblankStart < 2 ^ 64 →
        s.cfg.totalScanlines * s.cfg.linePeriod < 2 ^ 64 →
        (∀ n, s.cfg.queueCapacity = some n → n < s.items.occ + 2 →
          exec (.irqPer c l line) s = .next { s with
            items := { s.items with fault := 0x06 }, history := s.history ++ [.fault 0x06 0x22] }) ∧
        ((∀ n, s.cfg.queueCapacity = some n → s.items.occ + 2 ≤ n) → 2 ^ 64 ≤ s.items.nextHandle.toNat + 2 →
          exec (.irqPer c l line) s = .next { s with
            items := { s.items with fault := 0x07 }, history := s.history ++ [.fault 0x07 0x22] })))

/-- FirstAssert(s) is the least time at or after `now` that is congruent to the start of scanline s modulo the
frame period (R133; FRAME_ORIGIN = 0). -/
def Obligations.FirstAssertIsTheEarliestStart : Prop :=
  ∀ (p : Params) (now : Word) (line : Nat), p.valid = true → line < p.totalScanlines →
    IsLeast { x : Nat | now.toNat ≤ x ∧
      x % (p.totalScanlines * p.linePeriod) =
        line * p.linePeriod % (p.totalScanlines * p.linePeriod) }
      (firstAssert p now line)

/-- Lines keep no count: any number of IRQ.SETs and then one IRQ.CLR of a line leave it clear and every other
line as it was (R28, R137). -/
def Obligations.OneClearUndoesAnyNumberOfAsserts : Prop :=
  ∀ (n : Nat) (s : State) (c l : Byte) (i j : Fin 2), s.items.fault = 0 → c.toNat = i.val → l.toNat = j.val →
    ∃ t, execAll (List.replicate n (.irqSet c l) ++ [.irqClr c l]) s = .next t ∧
      (∀ i' j', t.items.line i' j' = if i' = i ∧ j' = j then false else s.items.line i' j') ∧
      t.history = s.history ++
        (if s.items.line i j = false ∧ 0 < n then [.cpu (.assertLine i j) s.items.now] else []) ++
        (if s.items.line i j = true ∨ 0 < n then [.cpu (.clearLine i j) s.items.now] else [])

/-- No command but IRQ.SET and IRQ.CLR writes a line: the rest do so only through events of Q that fire later
(R134). -/
def Obligations.OnlyIrqSetAndClrWriteLines : Prop :=
  ∀ (i : Instr) (s t : State), exec i s = .next t → (∀ c l, i ≠ .irqSet c l) → (∀ c l, i ≠ .irqClr c l) →
    t.items.asserted = s.items.asserted

/-! ## ARB -/

/-- ARB.EN e: on a rise with a reset pending the vector is installed first and the pending bit cleared; enabled and
both halt bits are written; then halt and run are sent, halt first; nothing else changes (R150, R151, R152). Its
words are 0x30000004 and 0x30000000. -/
def Obligations.ArbEnSwapsTheHalts : Prop :=
  (∀ rest, decode (.wordWide (.w32 0x30000004 :: rest)) = .command (.arbEn true) (.wordWide rest)) ∧
  (∀ rest, decode (.wordWide (.w32 0x30000000 :: rest)) = .command (.arbEn false) (.wordWide rest)) ∧
  ∀ (s : State) (e : Bool), s.items.fault = 0 → exec (.arbEn e) s = .next { s with
    items := { s.items with
      secondaryEnabled := e, primaryHalted := e, secondaryHalted := !e
      resetPending := if s.items.secondaryEnabled = false ∧ e = true then false else s.items.resetPending }
    history := s.history ++
      (if s.items.secondaryEnabled = false ∧ e = true ∧ s.items.resetPending = true
        then [.cpu (.setProgramCounter 1 s.cfg.secondaryResetVector) s.items.now] else []) ++
      (if e = true then [.cpu (.halt 0) s.items.now, .cpu (.run 1) s.items.now]
        else [.cpu (.halt 1) s.items.now, .cpu (.run 0) s.items.now]) }

/-- ARB.RST sets reset_pending, disables the secondary, halts it and runs the primary, and sends halt(1) and run(0);
TMR, ILC and the status registers survive it (R153, R212). Its word is 0x31000000. -/
def Obligations.ArbRstResetsOnlyTheArbiter : Prop :=
  (∀ rest, decode (.wordWide (.w32 0x31000000 :: rest)) = .command .arbRst (.wordWide rest)) ∧
  ∀ s : State, s.items.fault = 0 → exec .arbRst s = .next { s with
    items := { s.items with
      resetPending := true, secondaryEnabled := false, primaryHalted := false, secondaryHalted := true }
    history := s.history ++ [.cpu (.halt 1) s.items.now, .cpu (.run 0) s.items.now] }

/-- ARB.BA records its bit and changes nothing else (R154). Its words are 0x32000008 and 0x32000000. -/
def Obligations.ArbBaRecordsTheSignal : Prop :=
  (∀ rest, decode (.wordWide (.w32 0x32000008 :: rest)) = .command (.arbBa true) (.wordWide rest)) ∧
  (∀ rest, decode (.wordWide (.w32 0x32000000 :: rest)) = .command (.arbBa false) (.wordWide rest)) ∧
  ∀ (s : State) (b : Bool), s.items.fault = 0 →
    exec (.arbBa b) s = .next { s with items := { s.items with ba := b } }

/-- ARB.RD of a running CPU at an address below 2^16 makes one memory access and answers its byte, whatever
byte that is; of a halted CPU it answers 0xFF and records D_HALTED_ACCESS; an address of 2^16 or more and a
CPU id above 1 are D_RESERVED_FIELD and F_BAD_ID (R155, R78). No byte of the memory changes. -/
def Obligations.ArbRdReadsOrIdles : Prop :=
  ∀ (s : State) (c : Byte) (a : Word), s.items.fault = 0 →
    (2 ≤ c.toNat → exec (.arbRd c a) s = .next { s with
      items := { s.items with fault := 0x02 }, history := s.history ++ [.fault 0x02 0x33] }) ∧
    (c.toNat < 2 → 2 ^ 16 ≤ a.toNat → exec (.arbRd c a) s = .next { s with
      items := { s.items with diagCount := s.items.diagCount + 1, lastDiag := 0x02 }
      history := s.history ++ [.diag 0x02 0x33, .resp 0] }) ∧
    (c.toNat < 2 → a.toNat < 2 ^ 16 →
      (if c = 0 then s.items.primaryHalted else s.items.secondaryHalted) = true →
      exec (.arbRd c a) s = .next { s with
        items := { s.items with diagCount := s.items.diagCount + 1, lastDiag := 0x05 }
        history := s.history ++ [.diag 0x05 0x33, .resp 0xFF] }) ∧
    (c.toNat < 2 → a.toNat < 2 ^ 16 →
      (if c = 0 then s.items.primaryHalted else s.items.secondaryHalted) = false →
      ∃ v : Byte, exec (.arbRd c a) s = .next { s with
        history := s.history ++ [.memRead (BitVec.ofNat 16 a.toNat) v, .resp (BitVec.ofNat 64 v.toNat)]
        memReads := s.memReads + 1 })

/-- ARB.WR of a running CPU stores its byte at its address and at no other; of a halted CPU it is dropped with
D_HALTED_ACCESS; an operand out of range and a CPU id above 1 are D_RESERVED_FIELD and F_BAD_ID (R156, R78). -/
def Obligations.ArbWrStoresOneByte : Prop :=
  ∀ (s : State) (c : Byte) (a d : Word), s.items.fault = 0 →
    (2 ≤ c.toNat → exec (.arbWr c a d) s = .next { s with
      items := { s.items with fault := 0x02 }, history := s.history ++ [.fault 0x02 0x34] }) ∧
    (c.toNat < 2 → (2 ^ 16 ≤ a.toNat ∨ 2 ^ 8 ≤ d.toNat) → exec (.arbWr c a d) s = .next { s with
      items := { s.items with diagCount := s.items.diagCount + 1, lastDiag := 0x02 }
      history := s.history ++ [.diag 0x02 0x34] }) ∧
    (c.toNat < 2 → a.toNat < 2 ^ 16 → d.toNat < 2 ^ 8 →
      (if c = 0 then s.items.primaryHalted else s.items.secondaryHalted) = true →
      exec (.arbWr c a d) s = .next { s with
        items := { s.items with diagCount := s.items.diagCount + 1, lastDiag := 0x05 }
        history := s.history ++ [.diag 0x05 0x34] }) ∧
    (c.toNat < 2 → a.toNat < 2 ^ 16 → d.toNat < 2 ^ 8 →
      (if c = 0 then s.items.primaryHalted else s.items.secondaryHalted) = false →
      ∃ u, exec (.arbWr c a d) s = .next u ∧
        memLookup u.mem a.toNat = some (BitVec.ofNat 8 d.toNat) ∧
        (∀ b, b ≠ a.toNat → memLookup u.mem b = memLookup s.mem b) ∧
        u = { s with
          mem := u.mem
          history := s.history ++ [.memWrite (BitVec.ofNat 16 a.toNat) (BitVec.ofNat 8 d.toNat)] })

/-- ARB.RDS answers enabled, reset_pending, primary_halted, secondary_halted and ba as bits 0 to 4, and changes
nothing (R157). Its word is 0x35000000. -/
def Obligations.ArbRdsAnswersTheBits : Prop :=
  (∀ rest, decode (.wordWide (.w32 0x35000000 :: rest)) = .command .arbRds (.wordWide rest)) ∧
  ∀ s : State, s.items.fault = 0 → exec .arbRds s = .next { s with history := s.history ++ [
    .resp (BitVec.ofNat 64 (s.items.secondaryEnabled.toNat + 2 * s.items.resetPending.toNat +
      4 * s.items.primaryHalted.toNat + 8 * s.items.secondaryHalted.toNat + 16 * s.items.ba.toNat))] }

/-- Mutual exclusion: exactly one CPU is halted after reset, and every step, RESTORE included, keeps it so;
ARB.EN e writes the pair as (e, not e), ARB.RST as (0, 1), and nothing else writes either bit: no other command, no
drain step, no rejected header, no SNAPSHOT and no wait (R158). RESTORE replaces both with a pair that differs (R173). -/
def Obligations.ExactlyOneCpuIsHalted : Prop :=
  State.reset.items.primaryHalted ≠ State.reset.items.secondaryHalted ∧
    (∀ s t : State, s.items.primaryHalted ≠ s.items.secondaryHalted → step s = .next t →
      t.items.primaryHalted ≠ t.items.secondaryHalted) ∧
    (∀ (e : Bool) (s : State), s.items.fault = 0 → ∃ t, exec (.arbEn e) s = .next t ∧
      t.items.primaryHalted = e ∧ t.items.secondaryHalted = !e) ∧
    (∀ s : State, s.items.fault = 0 → ∃ t, exec .arbRst s = .next t ∧
      t.items.primaryHalted = false ∧ t.items.secondaryHalted = true) ∧
    (∀ (i : Instr) (s t : State), exec i s = .next t → (∀ e, i ≠ .arbEn e) → i ≠ .arbRst →
      t.items.primaryHalted = s.items.primaryHalted ∧ t.items.secondaryHalted = s.items.secondaryHalted) ∧
    (∀ s t : State, step s = .next t → (∀ e s', s.nextAction ≠ .command (.arbEn e) s') →
      (∀ s', s.nextAction ≠ .command .arbRst s') → (∀ x, s.nextAction ≠ .serve (.restore x)) →
      t.items.primaryHalted = s.items.primaryHalted ∧ t.items.secondaryHalted = s.items.secondaryHalted)

/-- Reset-on-enable: ARB.RST, any number of ARB.EN 0 and then ARB.EN 1 send exactly one install of the
secondary's reset vector, by that ARB.EN 1 and before its halt and run, and leave no reset pending (R159). -/
def Obligations.ResetOnEnable : Prop :=
  ∀ (n : Nat) (s : State), s.items.fault = 0 →
    ∃ t before, execAll (.arbRst :: List.replicate n (.arbEn false) ++ [.arbEn true]) s = .next t ∧
      t.items.resetPending = false ∧ t.items.secondaryEnabled = true ∧
      countInstalls s.cfg.secondaryResetVector t.cpuPort =
        countInstalls s.cfg.secondaryResetVector s.cpuPort + 1 ∧
      t.history = before ++ [.cpu (.setProgramCounter 1 s.cfg.secondaryResetVector) s.items.now,
        .cpu (.halt 0) s.items.now, .cpu (.run 1) s.items.now]

/-- Reset leaves ARB in one of its three states (disabled with the primary running, reset pending or not, or
enabled with no reset pending and the secondary running); every command, and every step but a RESTORE (which may bring
any ARB bits that R34 admits, log 17), keeps it in one of them; and of the ARB commands only ARB.RD and ARB.WR can
fault or record a diagnostic (R161, R29). -/
def Obligations.ArbiterStaysInItsThreeStates : Prop :=
  State.reset.items.ArbState ∧
    (∀ (i : Instr) (s t : State), exec i s = .next t → s.items.ArbState → t.items.ArbState) ∧
    (∀ s t : State, (∀ x, s.nextAction ≠ .serve (.restore x)) → step s = .next t → s.items.ArbState →
      t.items.ArbState) ∧
    (∀ (i : Instr) (s : State), ((∃ e, i = .arbEn e) ∨ i = .arbRst ∨ (∃ b, i = .arbBa b) ∨ i = .arbRds) →
      ∃ t, exec i s = .next t ∧ t.items.fault = s.items.fault ∧ t.items.diagCount = s.items.diagCount ∧
        t.items.lastDiag = s.items.lastDiag ∧ t.diagPort = s.diagPort)

/-- No command but ARB.WR changes a byte of the shared memory, and what a command adds to the record of accesses is at
most one: a MemRead only by ARB.RD, a MemWrite only by ARB.WR. A step that runs neither touches memory, record and
count not at all (R54). -/
def Obligations.OnlyArbitratedAccessesTouchMemory : Prop :=
  (∀ (i : Instr) (s t : State), exec i s = .next t →
    ((∀ c a d, i ≠ .arbWr c a d) → t.mem = s.mem) ∧ ((∀ c a, i ≠ .arbRd c a) → t.memReads = s.memReads) ∧
      ∃ new : List Msg, t.busRecord = s.busRecord ++ new ∧ new.length ≤ 1 ∧
        ∀ m ∈ new, ((∃ a v, m = .memRead a v) ∧ ∃ c a, i = .arbRd c a) ∨
          ((∃ a v, m = .memWrite a v) ∧ ∃ c a d, i = .arbWr c a d)) ∧
    ∀ s t : State, step s = .next t → (∀ c a s', s.nextAction ≠ .command (.arbRd c a) s') →
      (∀ c a d s', s.nextAction ≠ .command (.arbWr c a d) s') →
      t.mem = s.mem ∧ t.memReads = s.memReads ∧ t.busRecord = s.busRecord

/-! ## Faults and diagnostics -/

/-- While `fault != 0` STATUS is executed and every other command is consumed and ignored, in every phase, and beside a
RESTORE that is asked for too: no state item, no response, no diagnostic and no port message; rejected headers likewise.
A RESTORE is refused: it stays without effect whatever the step does, and is what the step answers in IDLE where neither
a command nor the environment brings anything. No drain step is taken (R184, 90_conflicts.md C8). The model's choices in
it: a malformed STATUS header is ignored too (log 12), a faulted callback takes the client's command before the host's
(log 13), a refused RESTORE stays pending (log 15), and a SNAPSHOT is served first (log 16). -/
def Obligations.FaultedMachineIgnoresCommands : Prop :=
  ∀ s : State, s.items.fault ≠ 0 →
    (∀ i, i ≠ .status → exec i s = .next s) ∧
    (∀ x, s.hostOp = some (.restore x) →
      (∀ t, step s = .next t → t.items = s.items ∧ t.hostOp = some (.restore x)) ∧
      ∀ offer : Nat → List PortWord × List PortWord, s.items.phase = .idle → decode s.hostPort = .incomplete →
        offer s.offers = ([], []) → stepWith offer s = .refused .restoreWhileFaulted) ∧
    (∀ rest : Port,
      ((s.items.phase = .idle ∧ s.hostOp ≠ some .snapshot) ∨ (∃ T, s.items.phase = .draining T) ∨
        ((∃ T, s.items.phase = .callback T) ∧ decode s.clientPort = .incomplete)) →
      (decode s.hostPort = .command .status rest → step s = exec .status { s with hostPort := rest }) ∧
      (((∃ i, i ≠ .status ∧ decode s.hostPort = .command i rest) ∨
        (∃ opc len, decode s.hostPort = .badFields opc len rest) ∨ (∃ w, decode s.hostPort = .unknown w rest)) →
        step s = .next { s with hostPort := rest })) ∧
    (∀ (T : Word) (rest : Port), s.items.phase = .callback T →
      (decode s.clientPort = .command .status rest → step s = exec .status { s with clientPort := rest }) ∧
      (((∃ i, i ≠ .status ∧ decode s.clientPort = .command i rest) ∨
        (∃ opc len, decode s.clientPort = .badFields opc len rest) ∨ (∃ w, decode s.clientPort = .unknown w rest)) →
        step s = .next { s with clientPort := rest }))

/-- The first fault is kept: no step of a faulted TIA changes any state item, diag_count included, or any byte of the
memory (R184, R185). For a malformed STATUS header that is the model's reading (log 12). -/
def Obligations.FirstFaultIsKept : Prop :=
  ∀ s t : State, s.items.fault ≠ 0 → step s = .next t → t.items = s.items ∧ t.mem = s.mem

/-- A fault is precise: a step that raises one changes no state item but `fault`, answers nothing, touches no
memory, and sends exactly one DIAG record with the code (R183). Every step is meant but a RESTORE that is served, which
may bring a fault with its tuple (log 17). -/
def Obligations.FaultsArePrecise : Prop :=
  ∀ s t : State, (∀ x, s.nextAction ≠ .serve (.restore x)) → s.items.fault = 0 → step s = .next t → t.items.fault ≠ 0 →
    t.items = { s.items with fault := t.items.fault } ∧ t.mem = s.mem ∧ t.memReads = s.memReads ∧
      ∃ opc, t.history = s.history ++ [.fault t.items.fault opc]

/-- A diagnostic counts once, keeps its code and sends one DIAG record with it, before any response of the
command, and changes nothing of TMR, ILC or ARB, no fault and no memory (R186). Every step is meant but a RESTORE that
is served, which replaces the count with the rest. -/
def Obligations.DiagnosticsCorruptNothing : Prop :=
  ∀ s t : State, (∀ x, s.nextAction ≠ .serve (.restore x)) → step s = .next t → t.items.diagCount ≠ s.items.diagCount →
    t.items = { s.items with diagCount := s.items.diagCount + 1, lastDiag := t.items.lastDiag } ∧
      t.mem = s.mem ∧ t.memReads = s.memReads ∧ t.items.lastDiag ≠ 0 ∧
      ∃ (opc : Byte) (ws : List Word),
        t.history = s.history ++ .diag t.items.lastDiag opc :: ws.map .resp

/-- The six read commands have no side effect: where they do not fault they change nothing and send nothing
but responses (R196). -/
def Obligations.ReadsHaveNoSideEffect : Prop :=
  ∀ (i : Instr) (s t : State), (i = .status ∨ i = .rdnow ∨ i = .rdscan ∨ i = .arbRds ∨ (∃ h, i = .query h) ∨
      ∃ c l, i = .irqRd c l) →
    exec i s = .next t → t.items.fault = s.items.fault →
    ∃ ws : List Word, t = { s with history := s.history ++ ws.map .resp }

/-! ## Host operations, power-on and whole-machine rules -/

/-- SNAPSHOT in IDLE returns the state items and changes none; a later RESTORE of them in IDLE, in an unfaulted
machine of the same configuration, puts every item back, leaves the histories and sends nothing (R173, R36). That the
request is served before any offered command and that the tuple is returned into the history is the model's choice
(log 15); that a faulted TIA serves SNAPSHOT too is its reading (log 16). -/
def Obligations.RestoreOfASnapshotPutsItBack : Prop :=
  ∀ s u : State, s.Inv → s.items.phase = .idle → s.hostOp = some .snapshot →
    step s = .next { s with hostOp := none, history := s.history ++ [.snapshot s.items] } ∧
    (u.cfg = s.cfg → u.items.phase = .idle → u.items.fault = 0 → u.hostOp = some (.restore s.items) →
      step u = .next { u with hostOp := none, items := s.items })

/-- RESTORE of a tuple that breaks an invariant of R34 has no step (R173): serving it is refused, TIA does what it would
do without it, and where that is nothing the step answers the refusal. That the request stays pending is the model's
choice (log 15), and that (f) of R34 binds the entry `cur` holds, too, is the model's reading (log 17). -/
def Obligations.RestoreRefusesABrokenTuple : Prop :=
  ∀ (offer : Nat → List PortWord × List PortWord) (s : State) (x : Items), s.items.phase = .idle →
    s.items.fault = 0 → s.hostOp = some (.restore x) → ¬ x.R34 s.cfg →
    s.serveHostOp (.restore x) = .refused .restoreBreaksInvariant ∧
    (∀ t, stepWith offer { s with hostOp := none } = .next t →
      stepWith offer s = .next { t with hostOp := some (.restore x) }) ∧
    (stepWith offer { s with hostOp := none } = .fault .awaitingCommand →
      stepWith offer s = .refused .restoreBreaksInvariant)

/-- After power-on the state items have the values of R37, the CPU port holds halt(1) @ 0 and run(0) @ 0 and
the other ports are empty (R37, R210, R211). -/
def Obligations.PowerOnState : Prop :=
  State.reset.items = {
      now := 0, nextSeq := 0, nextHandle := 1, phase := .idle, cur := none, queue := [],
      asserted := #v[#v[false, false], #v[false, false]], secondaryEnabled := false, resetPending := true,
      primaryHalted := false, secondaryHalted := true, ba := false, fault := 0, diagCount := 0, lastDiag := 0 } ∧
    State.reset.cpuPort = [(.halt 1, 0), (.run 0, 0)] ∧ State.reset.firePort = [] ∧ State.reset.respPort = [] ∧
    State.reset.diagPort = [] ∧ State.reset.donePort = []

/-- A configuration has a power-on state exactly when L >= 2, N >= 1 and 0 < H < L; that the reset vector is
below 2^ADDR_BITS holds by its type (R8). -/
def Obligations.OnlyValidConfigurationsPowerOn : Prop :=
  ∀ p : Params, (State.powerOn? p).isSome = true ↔
    2 ≤ p.linePeriod ∧ 1 ≤ p.totalScanlines ∧ 0 < p.hblankStart ∧
      p.hblankStart < p.linePeriod

/-- The reset state keeps the invariant (R34 with R21, R25, R29, R36, R112, R161, R181, R182). -/
def Obligations.ResetKeepsTheInvariant : Prop := State.reset.Inv

/-- Every step from every state that keeps the invariant keeps it: the configuration's bounds, the memory's
canonical form, the halt bits, the order and the counters of Q, the times of a drain and the slots in use
(R34). -/
def Obligations.EveryStepKeepsTheInvariant : Prop :=
  ∀ s t : State, s.Inv → step s = .next t → t.Inv

/-- No step writes the configuration, and output ports are append-only: the history before a step is a prefix
of the history after it (R7, R32, R62). -/
def Obligations.HistoriesOnlyGrow : Prop :=
  ∀ s t : State, step s = .next t → t.cfg = s.cfg ∧ s.history <+: t.history

/-- Nothing cuts off a drain or a callback. (1) A cascade: a drain whose Q holds one due one-shot external event alone,
beside a client with an empty word-wide port that answers each firing with one SCHED of delay 0 and CBDONE: as many
instances fire as there are handles for them, all at the one time, four steps each (the firing, the wait in which the
client's offer is received, log 1, and the two commands), and the drain is still on (R221, R113, R119); a further one is
F_HANDLE_EXHAUSTED by R23 (log 25). (2) A callback: no step but the client's CBDONE ends it, and beside any client on a
word-wide port that offers whole commands whenever TIA waits, none of them CBDONE, it goes on without end (R108, R198). -/
def Obligations.CascadesAreNotCutOff : Prop :=
  (∀ (k : Nat) (offer : Nat → List PortWord × List PortWord) (s : State) (T h f y : Word) (q : Nat),
    s.items.phase = .draining T → s.items.fault = 0 → f.toNat ≤ T.toNat →
    s.items.queue = [⟨h, f, .ext y, false, 0, q⟩] → s.clientPort = .wordWide [] →
    (∀ n, (offer n).2 = [.w32 0x10000000, .w64 0, .w64 0, .w64 y, .w32 0x13000000]) →
    (∀ n, s.cfg.queueCapacity = some n → 1 ≤ n) → s.items.nextHandle.toNat + k < 2 ^ 64 →
    ∃ (t : State) (h' : Word) (q' : Nat) (hs : List Word), (coreWith offer).run (4 * k) s = .next t ∧
      hs.length = k ∧ t.firePort = s.firePort ++ hs.map (fun x => (x, y, f)) ∧ t.donePort = s.donePort ∧
      t.items.phase = .draining T ∧ t.items.queue = [⟨h', f, .ext y, false, 0, q'⟩]) ∧
  (∀ (offer : Nat → List PortWord × List PortWord) (s t : State) (T : Word), s.items.phase = .callback T →
    (∀ s', s.nextAction ≠ .command .cbdone s') → stepWith offer s = .next t → t.items.phase = .callback T) ∧
  ∀ (k : Nat) (offer : Nat → List PortWord × List PortWord) (s : State) (T : Word) (first : List Instr)
    (is : Nat → List Instr), s.items.phase = .callback T → s.clientPort = .wordWide (first.flatMap encode) →
    (∀ i ∈ first, i.wf = true ∧ i ≠ .cbdone) → (∀ n, ∀ i ∈ is n, i.wf = true ∧ i ≠ .cbdone) →
    (∀ n, is n ≠ [] ∧ (offer n).2 = (is n).flatMap encode) →
    ∃ t : State, (coreWith offer).run k s = .next t ∧ t.items.phase = .callback T
end

