-- ==== Sys2Proof/Laws/Decode.lean ====
section
/-! SUPPORT. What the header's fields and the two transports give back of what was encoded. -/
namespace Sys2Proof

/-- Every bit of a header built from its fields (R82). -/
theorem getLsbD_mkHeader (opc cpu line : Byte) (b e a r : Bool) (k : Nat) :
    (mkHeader opc cpu line b e a r).getLsbD k =
      if k = 0 then r else if k = 1 then a else if k = 2 then e else if k = 3 then b
      else if k < 8 then false else if k < 16 then line.getLsbD (k - 8)
      else if k < 24 then cpu.getLsbD (k - 16) else opc.getLsbD (k - 24) := by
  unfold mkHeader
  simp only [BitVec.getLsbD_append, BitVec.getLsbD_ofBool, BitVec.getLsbD_zero, Nat.sub_sub]
  rcases k with _ | _ | _ | _ | k
  all_goals try (simp; done)
  by_cases h1 : k < 4
  · simp [h1]
  by_cases h2 : k < 12
  · simp [h1, show ¬ k + 4 < 8 by omega, show k + 4 < 16 by omega, show k - 4 < 8 by omega]
  by_cases h3 : k < 20
  · simp [h1, show ¬ k + 4 < 8 by omega, show ¬ k + 4 < 16 by omega, show ¬ k - 4 < 8 by omega,
      show k + 4 < 24 by omega, show k - 12 < 8 by omega]
  · simp [h1, show ¬ k + 4 < 8 by omega, show ¬ k + 4 < 16 by omega, show ¬ k - 4 < 8 by omega,
      show ¬ k + 4 < 24 by omega, show ¬ k - 12 < 8 by omega]

section
variable (opc cpu line : Byte) (b e a r : Bool)

@[simp] theorem headerOpc_mkHeader : headerOpc (mkHeader opc cpu line b e a r) = opc := by
  refine BitVec.eq_of_getLsbD_eq fun i hi => ?_
  simp only [headerOpc, BitVec.getLsbD_extractLsb', getLsbD_mkHeader]
  simp [hi, show ¬ 24 + i < 8 by omega, show ¬ 24 + i < 16 by omega, show ¬ 24 + i < 24 by omega,
    show 24 + i ≠ 1 by omega, show 24 + i ≠ 2 by omega, show 24 + i ≠ 3 by omega]

@[simp] theorem headerCpu_mkHeader : headerCpu (mkHeader opc cpu line b e a r) = cpu := by
  refine BitVec.eq_of_getLsbD_eq fun i hi => ?_
  simp only [headerCpu, BitVec.getLsbD_extractLsb', getLsbD_mkHeader]
  simp [hi, show ¬ 16 + i < 8 by omega, show ¬ 16 + i < 16 by omega, show 16 + i < 24 by omega,
    show 16 + i ≠ 1 by omega, show 16 + i ≠ 2 by omega, show 16 + i ≠ 3 by omega]

@[simp] theorem headerLine_mkHeader : headerLine (mkHeader opc cpu line b e a r) = line := by
  refine BitVec.eq_of_getLsbD_eq fun i hi => ?_
  simp only [headerLine, BitVec.getLsbD_extractLsb', getLsbD_mkHeader]
  simp [hi, show ¬ 8 + i < 8 by omega, show 8 + i < 16 by omega,
    show 8 + i ≠ 1 by omega, show 8 + i ≠ 2 by omega, show 8 + i ≠ 3 by omega]

@[simp] theorem headerB_mkHeader : headerB (mkHeader opc cpu line b e a r) = b := by
  rw [headerB, getLsbD_mkHeader]; rfl

@[simp] theorem headerE_mkHeader : headerE (mkHeader opc cpu line b e a r) = e := by
  rw [headerE, getLsbD_mkHeader]; rfl

@[simp] theorem headerA_mkHeader : headerA (mkHeader opc cpu line b e a r) = a := by
  rw [headerA, getLsbD_mkHeader]; rfl

@[simp] theorem headerR_mkHeader : headerR (mkHeader opc cpu line b e a r) = r := by
  rw [headerR, getLsbD_mkHeader]; rfl

end

/-- R71 holds of a header exactly when every bit below the opcode that the row does not use is 0. -/
theorem brokenFields_eq_false {row : OpcodeRow} {h : HeaderWord} :
    brokenFields row h = false ↔ ∀ k < 24, row.fields.getLsbD k = false → h.getLsbD k = false := by
  have low : ∀ k < 24, BitVec.getLsbD 0xFF000000#32 k = false := by decide
  have high : ∀ k < 32, 24 ≤ k → BitVec.getLsbD 0xFF000000#32 k = true := by decide
  simp only [brokenFields, bne_eq_false_iff_eq]
  constructor
  · intro he k hk hf
    have h := congrArg (fun v => BitVec.getLsbD v k) he
    simp only [BitVec.getLsbD_and, BitVec.getLsbD_not, BitVec.getLsbD_or, low k hk, hf, Bool.or_self,
      Bool.not_false, show k < 32 by omega, decide_true, Bool.and_true] at h
    exact h.trans BitVec.getLsbD_zero
  · intro hz
    refine BitVec.eq_of_getLsbD_eq fun k hk => ?_
    simp only [BitVec.getLsbD_and, BitVec.getLsbD_not, BitVec.getLsbD_or]
    by_cases h24 : k < 24
    · cases hf : row.fields.getLsbD k with
      | true => simp
      | false => simp [hz k h24 hf]
    · simp [high k hk (by omega)]

theorem brokenFields_cpuLine (opc c l : Byte) (m n : Nat) :
    brokenFields ⟨0x00FFFF00, m, n⟩ (mkHeader opc c l false false false false) = false := by
  rw [brokenFields_eq_false]
  intro k hk hf
  have low : ∀ k < 24, BitVec.getLsbD (0x00FFFF00#32) k = false → k < 8 := by decide
  have := low k hk hf
  simp [getLsbD_mkHeader, this]

theorem brokenFields_cpu (opc c : Byte) (m n : Nat) :
    brokenFields ⟨0x00FF0000, m, n⟩ (mkHeader opc c 0 false false false false) = false := by
  rw [brokenFields_eq_false]
  intro k hk hf
  have low : ∀ k < 24, BitVec.getLsbD (0x00FF0000#32) k = false → k < 16 := by decide
  have := low k hk hf
  simp [getLsbD_mkHeader, this]

theorem brokenFields_plain (opc : Byte) (m n : Nat) :
    brokenFields ⟨0, m, n⟩ (mkHeader opc 0 0 false false false false) = false := by
  rw [brokenFields_eq_false]
  intro k hk _
  simp [getLsbD_mkHeader, hk]

theorem brokenFields_sched (a r : Bool) (m n : Nat) :
    brokenFields ⟨3, m, n⟩ (mkHeader 0x10 0 0 false false a r) = false := by
  rw [brokenFields_eq_false]
  intro k hk hf
  have low : ∀ k < 24, BitVec.getLsbD (3#32) k = false → k ≠ 0 ∧ k ≠ 1 := by decide
  have h01 := low k hk hf
  simp [getLsbD_mkHeader, hk, h01]

/-! ## Transports -/

/-- A header's four bytes give the header back (R55). -/
theorem takeHeader_bytes (h : HeaderWord) (rest : List Byte) :
    Port.takeHeader (.byteWide ((PortWord.w32 h).bytes ++ rest)) = some (h, .byteWide rest) := by
  simp only [PortWord.bytes, List.cons_append, List.nil_append, Port.takeHeader, Option.some.injEq,
    Prod.mk.injEq, and_true]
  refine BitVec.eq_of_getLsbD_eq fun i hi => ?_
  simp only [BitVec.getLsbD_append, BitVec.getLsbD_extractLsb', Nat.sub_sub]
  by_cases h1 : i < 8
  · simp [h1]
  by_cases h2 : i < 16
  · simp [h1, show i - 8 < 8 by omega, show 8 + (i - 8) = i by omega]
  by_cases h3 : i < 24
  · simp [h1, show ¬ i - 8 < 8 by omega, show i - 16 < 8 by omega, show 16 + (i - 16) = i by omega]
  · simp [h1, show ¬ i - 8 < 8 by omega, show ¬ i - 16 < 8 by omega, show i - 24 < 8 by omega,
      show 24 + (i - 24) = i by omega]

/-- An operand's eight bytes give the operand back (R55). -/
theorem takeOperand_bytes (o : Word) (rest : List Byte) :
    Port.takeOperand (.byteWide ((PortWord.w64 o).bytes ++ rest)) = some (o, .byteWide rest) := by
  simp only [PortWord.bytes, List.cons_append, List.nil_append, Port.takeOperand, Option.some.injEq,
    Prod.mk.injEq, and_true]
  refine BitVec.eq_of_getLsbD_eq fun i hi => ?_
  simp only [BitVec.getLsbD_append, BitVec.getLsbD_extractLsb', Nat.sub_sub]
  by_cases h1 : i < 8
  · simp [h1]
  by_cases h2 : i < 16
  · simp [h1, show i - 8 < 8 by omega, show 8 + (i - 8) = i by omega]
  by_cases h3 : i < 24
  · simp [h1, show ¬ i - 8 < 8 by omega, show i - 16 < 8 by omega, show 16 + (i - 16) = i by omega]
  by_cases h4 : i < 32
  · simp [h1, show ¬ i - 8 < 8 by omega, show ¬ i - 16 < 8 by omega, show i - 24 < 8 by omega,
      show 24 + (i - 24) = i by omega]
  by_cases h5 : i < 40
  · simp [h1, show ¬ i - 8 < 8 by omega, show ¬ i - 16 < 8 by omega, show ¬ i - 24 < 8 by omega,
      show i - 32 < 8 by omega, show 32 + (i - 32) = i by omega]
  by_cases h6 : i < 48
  · simp [h1, show ¬ i - 8 < 8 by omega, show ¬ i - 16 < 8 by omega, show ¬ i - 24 < 8 by omega,
      show ¬ i - 32 < 8 by omega, show i - 40 < 8 by omega, show 40 + (i - 40) = i by omega]
  by_cases h7 : i < 56
  · simp [h1, show ¬ i - 8 < 8 by omega, show ¬ i - 16 < 8 by omega, show ¬ i - 24 < 8 by omega,
      show ¬ i - 32 < 8 by omega, show ¬ i - 40 < 8 by omega, show i - 48 < 8 by omega,
      show 48 + (i - 48) = i by omega]
  · simp [h1, show ¬ i - 8 < 8 by omega, show ¬ i - 16 < 8 by omega, show ¬ i - 24 < 8 by omega,
      show ¬ i - 32 < 8 by omega, show ¬ i - 40 < 8 by omega, show ¬ i - 48 < 8 by omega,
      show i - 56 < 8 by omega, show 56 + (i - 56) = i by omega]

/-- Operands encoded on a byte-wide transport are taken back in order. -/
theorem takeOperands_bytes (os : List Word) (rest : List Byte) :
    Port.takeOperands os.length (.byteWide ((os.map PortWord.w64).flatMap PortWord.bytes ++ rest)) =
      some (os, .byteWide rest) := by
  induction os with
  | nil => rfl
  | cons o os ih =>
    simp only [List.map_cons, List.flatMap_cons, List.append_assoc, List.length_cons, Port.takeOperands,
      takeOperand_bytes, ih]

/-- Operands encoded on a word-wide transport are taken back in order. -/
theorem takeOperands_words (os : List Word) (rest : List PortWord) :
    Port.takeOperands os.length (.wordWide (os.map PortWord.w64 ++ rest)) = some (os, .wordWide rest) := by
  induction os with
  | nil => rfl
  | cons o os ih =>
    simp only [List.map_cons, List.cons_append, List.length_cons, Port.takeOperands, Port.takeOperand, ih]

end Sys2Proof
end

