-- ==== Sys2Proof/Laws/State.lean ====
section
/-! SUPPORT. What each state operation does to each field, one lemma a field, each true by unfolding the
operation once; later proofs rewrite with these and unfold no record update. -/
namespace Sys2Proof.Machine

@[simp] theorem emit_cfg (s : State) (m : Msg) : (s.emit m).cfg = s.cfg := rfl
@[simp] theorem emit_items (s : State) (m : Msg) : (s.emit m).items = s.items := rfl
@[simp] theorem emit_mem (s : State) (m : Msg) : (s.emit m).mem = s.mem := rfl
@[simp] theorem emit_hostPort (s : State) (m : Msg) : (s.emit m).hostPort = s.hostPort := rfl
@[simp] theorem emit_clientPort (s : State) (m : Msg) : (s.emit m).clientPort = s.clientPort := rfl
@[simp] theorem emit_hostOp (s : State) (m : Msg) : (s.emit m).hostOp = s.hostOp := rfl
@[simp] theorem emit_history (s : State) (m : Msg) : (s.emit m).history = s.history ++ [m] := rfl
@[simp] theorem emit_memReads (s : State) (m : Msg) : (s.emit m).memReads = s.memReads := rfl
@[simp] theorem emit_offers (s : State) (m : Msg) : (s.emit m).offers = s.offers := rfl

@[simp] theorem emitCpu_cfg (s : State) (m : CpuMsg) : (s.emitCpu m).cfg = s.cfg := rfl
@[simp] theorem emitCpu_items (s : State) (m : CpuMsg) : (s.emitCpu m).items = s.items := rfl
@[simp] theorem emitCpu_mem (s : State) (m : CpuMsg) : (s.emitCpu m).mem = s.mem := rfl
@[simp] theorem emitCpu_hostPort (s : State) (m : CpuMsg) : (s.emitCpu m).hostPort = s.hostPort := rfl
@[simp] theorem emitCpu_clientPort (s : State) (m : CpuMsg) : (s.emitCpu m).clientPort = s.clientPort := rfl
@[simp] theorem emitCpu_hostOp (s : State) (m : CpuMsg) : (s.emitCpu m).hostOp = s.hostOp := rfl
@[simp] theorem emitCpu_history (s : State) (m : CpuMsg) : (s.emitCpu m).history = s.history ++ [.cpu m s.items.now] := rfl
@[simp] theorem emitCpu_memReads (s : State) (m : CpuMsg) : (s.emitCpu m).memReads = s.memReads := rfl
@[simp] theorem emitCpu_offers (s : State) (m : CpuMsg) : (s.emitCpu m).offers = s.offers := rfl

@[simp] theorem respond_cfg (s : State) (ws : List Word) : (s.respond ws).cfg = s.cfg := rfl
@[simp] theorem respond_items (s : State) (ws : List Word) : (s.respond ws).items = s.items := rfl
@[simp] theorem respond_mem (s : State) (ws : List Word) : (s.respond ws).mem = s.mem := rfl
@[simp] theorem respond_hostPort (s : State) (ws : List Word) : (s.respond ws).hostPort = s.hostPort := rfl
@[simp] theorem respond_clientPort (s : State) (ws : List Word) : (s.respond ws).clientPort = s.clientPort := rfl
@[simp] theorem respond_hostOp (s : State) (ws : List Word) : (s.respond ws).hostOp = s.hostOp := rfl
@[simp] theorem respond_history (s : State) (ws : List Word) : (s.respond ws).history = s.history ++ ws.map .resp := rfl
@[simp] theorem respond_memReads (s : State) (ws : List Word) : (s.respond ws).memReads = s.memReads := rfl
@[simp] theorem respond_offers (s : State) (ws : List Word) : (s.respond ws).offers = s.offers := rfl

@[simp] theorem raiseFault_cfg (s : State) (f : FaultCode) (opc : Byte) : (s.raiseFault f opc).cfg = s.cfg := rfl
@[simp] theorem raiseFault_items (s : State) (f : FaultCode) (opc : Byte) : (s.raiseFault f opc).items = { s.items with fault := faultCode f } := rfl
@[simp] theorem raiseFault_mem (s : State) (f : FaultCode) (opc : Byte) : (s.raiseFault f opc).mem = s.mem := rfl
@[simp] theorem raiseFault_hostPort (s : State) (f : FaultCode) (opc : Byte) : (s.raiseFault f opc).hostPort = s.hostPort := rfl
@[simp] theorem raiseFault_clientPort (s : State) (f : FaultCode) (opc : Byte) : (s.raiseFault f opc).clientPort = s.clientPort := rfl
@[simp] theorem raiseFault_hostOp (s : State) (f : FaultCode) (opc : Byte) : (s.raiseFault f opc).hostOp = s.hostOp := rfl
@[simp] theorem raiseFault_history (s : State) (f : FaultCode) (opc : Byte) : (s.raiseFault f opc).history = s.history ++ [.fault (faultCode f) opc] := rfl
@[simp] theorem raiseFault_memReads (s : State) (f : FaultCode) (opc : Byte) : (s.raiseFault f opc).memReads = s.memReads := rfl
@[simp] theorem raiseFault_offers (s : State) (f : FaultCode) (opc : Byte) : (s.raiseFault f opc).offers = s.offers := rfl

@[simp] theorem recordDiag_cfg (s : State) (d : DiagCode) (opc : Byte) : (s.recordDiag d opc).cfg = s.cfg := rfl
@[simp] theorem recordDiag_items (s : State) (d : DiagCode) (opc : Byte) : (s.recordDiag d opc).items = { s.items with diagCount := s.items.diagCount + 1, lastDiag := diagCode d } := rfl
@[simp] theorem recordDiag_mem (s : State) (d : DiagCode) (opc : Byte) : (s.recordDiag d opc).mem = s.mem := rfl
@[simp] theorem recordDiag_hostPort (s : State) (d : DiagCode) (opc : Byte) : (s.recordDiag d opc).hostPort = s.hostPort := rfl
@[simp] theorem recordDiag_clientPort (s : State) (d : DiagCode) (opc : Byte) : (s.recordDiag d opc).clientPort = s.clientPort := rfl
@[simp] theorem recordDiag_hostOp (s : State) (d : DiagCode) (opc : Byte) : (s.recordDiag d opc).hostOp = s.hostOp := rfl
@[simp] theorem recordDiag_history (s : State) (d : DiagCode) (opc : Byte) : (s.recordDiag d opc).history = s.history ++ [.diag (diagCode d) opc] := rfl
@[simp] theorem recordDiag_memReads (s : State) (d : DiagCode) (opc : Byte) : (s.recordDiag d opc).memReads = s.memReads := rfl
@[simp] theorem recordDiag_offers (s : State) (d : DiagCode) (opc : Byte) : (s.recordDiag d opc).offers = s.offers := rfl

@[simp] theorem rearm_cfg (s : State) (e : Entry) : (s.rearm e).cfg = s.cfg := rfl
@[simp] theorem rearm_items (s : State) (e : Entry) : (s.rearm e).items = { s.items with
      queue := insertEntry { e with fireTime := BitVec.ofNat 64 (rearmTime e), seq := s.items.nextSeq } s.items.queue,
      nextSeq := s.items.nextSeq + 1 } := rfl
@[simp] theorem rearm_mem (s : State) (e : Entry) : (s.rearm e).mem = s.mem := rfl
@[simp] theorem rearm_hostPort (s : State) (e : Entry) : (s.rearm e).hostPort = s.hostPort := rfl
@[simp] theorem rearm_clientPort (s : State) (e : Entry) : (s.rearm e).clientPort = s.clientPort := rfl
@[simp] theorem rearm_hostOp (s : State) (e : Entry) : (s.rearm e).hostOp = s.hostOp := rfl
@[simp] theorem rearm_history (s : State) (e : Entry) : (s.rearm e).history = s.history := rfl
@[simp] theorem rearm_memReads (s : State) (e : Entry) : (s.rearm e).memReads = s.memReads := rfl
@[simp] theorem rearm_offers (s : State) (e : Entry) : (s.rearm e).offers = s.offers := rfl

@[simp] theorem insertNew_cfg (s : State) (ft : Nat) (pl : Payload) (r : Bool) (p : Word) : (s.insertNew ft pl r p).cfg = s.cfg := rfl
@[simp] theorem insertNew_items (s : State) (ft : Nat) (pl : Payload) (r : Bool) (p : Word) : (s.insertNew ft pl r p).items = { s.items with
      queue := insertEntry ⟨s.items.nextHandle, BitVec.ofNat 64 ft, pl, r, p, s.items.nextSeq⟩ s.items.queue,
      nextHandle := s.items.nextHandle + 1, nextSeq := s.items.nextSeq + 1 } := rfl
@[simp] theorem insertNew_mem (s : State) (ft : Nat) (pl : Payload) (r : Bool) (p : Word) : (s.insertNew ft pl r p).mem = s.mem := rfl
@[simp] theorem insertNew_hostPort (s : State) (ft : Nat) (pl : Payload) (r : Bool) (p : Word) : (s.insertNew ft pl r p).hostPort = s.hostPort := rfl
@[simp] theorem insertNew_clientPort (s : State) (ft : Nat) (pl : Payload) (r : Bool) (p : Word) : (s.insertNew ft pl r p).clientPort = s.clientPort := rfl
@[simp] theorem insertNew_hostOp (s : State) (ft : Nat) (pl : Payload) (r : Bool) (p : Word) : (s.insertNew ft pl r p).hostOp = s.hostOp := rfl
@[simp] theorem insertNew_history (s : State) (ft : Nat) (pl : Payload) (r : Bool) (p : Word) : (s.insertNew ft pl r p).history = s.history := rfl
@[simp] theorem insertNew_memReads (s : State) (ft : Nat) (pl : Payload) (r : Bool) (p : Word) : (s.insertNew ft pl r p).memReads = s.memReads := rfl
@[simp] theorem insertNew_offers (s : State) (ft : Nat) (pl : Payload) (r : Bool) (p : Word) : (s.insertNew ft pl r p).offers = s.offers := rfl

@[simp] theorem setLine_cfg (s : State) (c l : Fin 2) (v : Bool) : (s.setLine c l v).cfg = s.cfg := rfl
@[simp] theorem setLine_items (s : State) (c l : Fin 2) (v : Bool) : (s.setLine c l v).items = { s.items with asserted := s.items.asserted.set c (s.items.asserted[c].set l v) } := rfl
@[simp] theorem setLine_mem (s : State) (c l : Fin 2) (v : Bool) : (s.setLine c l v).mem = s.mem := rfl
@[simp] theorem setLine_hostPort (s : State) (c l : Fin 2) (v : Bool) : (s.setLine c l v).hostPort = s.hostPort := rfl
@[simp] theorem setLine_clientPort (s : State) (c l : Fin 2) (v : Bool) : (s.setLine c l v).clientPort = s.clientPort := rfl
@[simp] theorem setLine_hostOp (s : State) (c l : Fin 2) (v : Bool) : (s.setLine c l v).hostOp = s.hostOp := rfl
@[simp] theorem setLine_history (s : State) (c l : Fin 2) (v : Bool) : (s.setLine c l v).history = s.history := rfl
@[simp] theorem setLine_memReads (s : State) (c l : Fin 2) (v : Bool) : (s.setLine c l v).memReads = s.memReads := rfl
@[simp] theorem setLine_offers (s : State) (c l : Fin 2) (v : Bool) : (s.setLine c l v).offers = s.offers := rfl

@[simp] theorem setEnabled_cfg (s : State) (e : Bool) : (s.setEnabled e).cfg = s.cfg := rfl
@[simp] theorem setEnabled_items (s : State) (e : Bool) : (s.setEnabled e).items = { s.items with secondaryEnabled := e, primaryHalted := e, secondaryHalted := !e } := rfl
@[simp] theorem setEnabled_mem (s : State) (e : Bool) : (s.setEnabled e).mem = s.mem := rfl
@[simp] theorem setEnabled_hostPort (s : State) (e : Bool) : (s.setEnabled e).hostPort = s.hostPort := rfl
@[simp] theorem setEnabled_clientPort (s : State) (e : Bool) : (s.setEnabled e).clientPort = s.clientPort := rfl
@[simp] theorem setEnabled_hostOp (s : State) (e : Bool) : (s.setEnabled e).hostOp = s.hostOp := rfl
@[simp] theorem setEnabled_history (s : State) (e : Bool) : (s.setEnabled e).history = s.history := rfl
@[simp] theorem setEnabled_memReads (s : State) (e : Bool) : (s.setEnabled e).memReads = s.memReads := rfl
@[simp] theorem setEnabled_offers (s : State) (e : Bool) : (s.setEnabled e).offers = s.offers := rfl

@[simp] theorem memRead_cfg (s : State) (a : Address) : (s.memRead a).cfg = s.cfg := rfl
@[simp] theorem memRead_items (s : State) (a : Address) : (s.memRead a).items = s.items := rfl
@[simp] theorem memRead_mem (s : State) (a : Address) : (s.memRead a).mem = s.mem := rfl
@[simp] theorem memRead_hostPort (s : State) (a : Address) : (s.memRead a).hostPort = s.hostPort := rfl
@[simp] theorem memRead_clientPort (s : State) (a : Address) : (s.memRead a).clientPort = s.clientPort := rfl
@[simp] theorem memRead_hostOp (s : State) (a : Address) : (s.memRead a).hostOp = s.hostOp := rfl
@[simp] theorem memRead_history (s : State) (a : Address) : (s.memRead a).history = s.history ++ [.memRead a (s.memAnswer a)] := rfl
@[simp] theorem memRead_memReads (s : State) (a : Address) : (s.memRead a).memReads = s.memReads + 1 := rfl
@[simp] theorem memRead_offers (s : State) (a : Address) : (s.memRead a).offers = s.offers := rfl

@[simp] theorem memWrite_cfg (s : State) (a : Address) (v : Byte) : (s.memWrite a v).cfg = s.cfg := rfl
@[simp] theorem memWrite_items (s : State) (a : Address) (v : Byte) : (s.memWrite a v).items = s.items := rfl
@[simp] theorem memWrite_mem (s : State) (a : Address) (v : Byte) : (s.memWrite a v).mem = memStore s.mem a.toNat v := rfl
@[simp] theorem memWrite_hostPort (s : State) (a : Address) (v : Byte) : (s.memWrite a v).hostPort = s.hostPort := rfl
@[simp] theorem memWrite_clientPort (s : State) (a : Address) (v : Byte) : (s.memWrite a v).clientPort = s.clientPort := rfl
@[simp] theorem memWrite_hostOp (s : State) (a : Address) (v : Byte) : (s.memWrite a v).hostOp = s.hostOp := rfl
@[simp] theorem memWrite_history (s : State) (a : Address) (v : Byte) : (s.memWrite a v).history = s.history ++ [.memWrite a v] := rfl
@[simp] theorem memWrite_memReads (s : State) (a : Address) (v : Byte) : (s.memWrite a v).memReads = s.memReads := rfl
@[simp] theorem memWrite_offers (s : State) (a : Address) (v : Byte) : (s.memWrite a v).offers = s.offers := rfl

@[simp] theorem installResetVector_cfg (s : State) : (s.installResetVector).cfg = s.cfg := rfl
@[simp] theorem installResetVector_items (s : State) : (s.installResetVector).items = { s.items with resetPending := false } := rfl
@[simp] theorem installResetVector_mem (s : State) : (s.installResetVector).mem = s.mem := rfl
@[simp] theorem installResetVector_hostPort (s : State) : (s.installResetVector).hostPort = s.hostPort := rfl
@[simp] theorem installResetVector_clientPort (s : State) : (s.installResetVector).clientPort = s.clientPort := rfl
@[simp] theorem installResetVector_hostOp (s : State) : (s.installResetVector).hostOp = s.hostOp := rfl
@[simp] theorem installResetVector_history (s : State) : (s.installResetVector).history = s.history ++ [.cpu (.setProgramCounter 1 s.cfg.secondaryResetVector) s.items.now] := rfl
@[simp] theorem installResetVector_memReads (s : State) : (s.installResetVector).memReads = s.memReads := rfl
@[simp] theorem installResetVector_offers (s : State) : (s.installResetVector).offers = s.offers := rfl

@[simp] theorem takeSnapshot_cfg (s : State) : (s.takeSnapshot).cfg = s.cfg := rfl
@[simp] theorem takeSnapshot_items (s : State) : (s.takeSnapshot).items = s.items := rfl
@[simp] theorem takeSnapshot_mem (s : State) : (s.takeSnapshot).mem = s.mem := rfl
@[simp] theorem takeSnapshot_hostPort (s : State) : (s.takeSnapshot).hostPort = s.hostPort := rfl
@[simp] theorem takeSnapshot_clientPort (s : State) : (s.takeSnapshot).clientPort = s.clientPort := rfl
@[simp] theorem takeSnapshot_hostOp (s : State) : (s.takeSnapshot).hostOp = s.hostOp := rfl
@[simp] theorem takeSnapshot_history (s : State) : (s.takeSnapshot).history = s.history ++ [.snapshot s.items] := rfl
@[simp] theorem takeSnapshot_memReads (s : State) : (s.takeSnapshot).memReads = s.memReads := rfl
@[simp] theorem takeSnapshot_offers (s : State) : (s.takeSnapshot).offers = s.offers := rfl

@[simp] theorem lineAssert_cfg (s : State) (c l : Fin 2) : (s.lineAssert c l).cfg = s.cfg := by unfold State.lineAssert; split <;> rfl
@[simp] theorem lineAssert_mem (s : State) (c l : Fin 2) : (s.lineAssert c l).mem = s.mem := by unfold State.lineAssert; split <;> rfl
@[simp] theorem lineAssert_hostPort (s : State) (c l : Fin 2) : (s.lineAssert c l).hostPort = s.hostPort := by unfold State.lineAssert; split <;> rfl
@[simp] theorem lineAssert_clientPort (s : State) (c l : Fin 2) : (s.lineAssert c l).clientPort = s.clientPort := by unfold State.lineAssert; split <;> rfl
@[simp] theorem lineAssert_hostOp (s : State) (c l : Fin 2) : (s.lineAssert c l).hostOp = s.hostOp := by unfold State.lineAssert; split <;> rfl
@[simp] theorem lineAssert_memReads (s : State) (c l : Fin 2) : (s.lineAssert c l).memReads = s.memReads := by unfold State.lineAssert; split <;> rfl
@[simp] theorem lineAssert_offers (s : State) (c l : Fin 2) : (s.lineAssert c l).offers = s.offers := by unfold State.lineAssert; split <;> rfl

@[simp] theorem lineClear_cfg (s : State) (c l : Fin 2) : (s.lineClear c l).cfg = s.cfg := by unfold State.lineClear; split <;> rfl
@[simp] theorem lineClear_mem (s : State) (c l : Fin 2) : (s.lineClear c l).mem = s.mem := by unfold State.lineClear; split <;> rfl
@[simp] theorem lineClear_hostPort (s : State) (c l : Fin 2) : (s.lineClear c l).hostPort = s.hostPort := by unfold State.lineClear; split <;> rfl
@[simp] theorem lineClear_clientPort (s : State) (c l : Fin 2) : (s.lineClear c l).clientPort = s.clientPort := by unfold State.lineClear; split <;> rfl
@[simp] theorem lineClear_hostOp (s : State) (c l : Fin 2) : (s.lineClear c l).hostOp = s.hostOp := by unfold State.lineClear; split <;> rfl
@[simp] theorem lineClear_memReads (s : State) (c l : Fin 2) : (s.lineClear c l).memReads = s.memReads := by unfold State.lineClear; split <;> rfl
@[simp] theorem lineClear_offers (s : State) (c l : Fin 2) : (s.lineClear c l).offers = s.offers := by unfold State.lineClear; split <;> rfl

@[simp] theorem haltSwapOutputs_cfg (s : State) (e : Bool) : (s.haltSwapOutputs e).cfg = s.cfg := by unfold State.haltSwapOutputs; split <;> rfl
@[simp] theorem haltSwapOutputs_items (s : State) (e : Bool) : (s.haltSwapOutputs e).items = s.items := by unfold State.haltSwapOutputs; split <;> rfl
@[simp] theorem haltSwapOutputs_mem (s : State) (e : Bool) : (s.haltSwapOutputs e).mem = s.mem := by unfold State.haltSwapOutputs; split <;> rfl
@[simp] theorem haltSwapOutputs_hostPort (s : State) (e : Bool) : (s.haltSwapOutputs e).hostPort = s.hostPort := by unfold State.haltSwapOutputs; split <;> rfl
@[simp] theorem haltSwapOutputs_clientPort (s : State) (e : Bool) : (s.haltSwapOutputs e).clientPort = s.clientPort := by unfold State.haltSwapOutputs; split <;> rfl
@[simp] theorem haltSwapOutputs_hostOp (s : State) (e : Bool) : (s.haltSwapOutputs e).hostOp = s.hostOp := by unfold State.haltSwapOutputs; split <;> rfl
@[simp] theorem haltSwapOutputs_memReads (s : State) (e : Bool) : (s.haltSwapOutputs e).memReads = s.memReads := by unfold State.haltSwapOutputs; split <;> rfl
@[simp] theorem haltSwapOutputs_offers (s : State) (e : Bool) : (s.haltSwapOutputs e).offers = s.offers := by unfold State.haltSwapOutputs; split <;> rfl

@[simp] theorem haltSwapOutputs_history (s : State) (e : Bool) : (s.haltSwapOutputs e).history = s.history ++
    [.cpu (.halt (if e then 0 else 1)) s.items.now, .cpu (.run (if e then 1 else 0)) s.items.now] := by
  cases e <;> simp [State.haltSwapOutputs]

@[simp] theorem lineAssert_items_now (s : State) (c l : Fin 2) : (s.lineAssert c l).items.now = s.items.now := by unfold State.lineAssert; split <;> rfl
@[simp] theorem lineAssert_items_nextSeq (s : State) (c l : Fin 2) : (s.lineAssert c l).items.nextSeq = s.items.nextSeq := by unfold State.lineAssert; split <;> rfl
@[simp] theorem lineAssert_items_nextHandle (s : State) (c l : Fin 2) : (s.lineAssert c l).items.nextHandle = s.items.nextHandle := by unfold State.lineAssert; split <;> rfl
@[simp] theorem lineAssert_items_phase (s : State) (c l : Fin 2) : (s.lineAssert c l).items.phase = s.items.phase := by unfold State.lineAssert; split <;> rfl
@[simp] theorem lineAssert_items_cur (s : State) (c l : Fin 2) : (s.lineAssert c l).items.cur = s.items.cur := by unfold State.lineAssert; split <;> rfl
@[simp] theorem lineAssert_items_queue (s : State) (c l : Fin 2) : (s.lineAssert c l).items.queue = s.items.queue := by unfold State.lineAssert; split <;> rfl
@[simp] theorem lineAssert_items_secondaryEnabled (s : State) (c l : Fin 2) : (s.lineAssert c l).items.secondaryEnabled = s.items.secondaryEnabled := by unfold State.lineAssert; split <;> rfl
@[simp] theorem lineAssert_items_resetPending (s : State) (c l : Fin 2) : (s.lineAssert c l).items.resetPending = s.items.resetPending := by unfold State.lineAssert; split <;> rfl
@[simp] theorem lineAssert_items_primaryHalted (s : State) (c l : Fin 2) : (s.lineAssert c l).items.primaryHalted = s.items.primaryHalted := by unfold State.lineAssert; split <;> rfl
@[simp] theorem lineAssert_items_secondaryHalted (s : State) (c l : Fin 2) : (s.lineAssert c l).items.secondaryHalted = s.items.secondaryHalted := by unfold State.lineAssert; split <;> rfl
@[simp] theorem lineAssert_items_ba (s : State) (c l : Fin 2) : (s.lineAssert c l).items.ba = s.items.ba := by unfold State.lineAssert; split <;> rfl
@[simp] theorem lineAssert_items_fault (s : State) (c l : Fin 2) : (s.lineAssert c l).items.fault = s.items.fault := by unfold State.lineAssert; split <;> rfl
@[simp] theorem lineAssert_items_diagCount (s : State) (c l : Fin 2) : (s.lineAssert c l).items.diagCount = s.items.diagCount := by unfold State.lineAssert; split <;> rfl
@[simp] theorem lineAssert_items_lastDiag (s : State) (c l : Fin 2) : (s.lineAssert c l).items.lastDiag = s.items.lastDiag := by unfold State.lineAssert; split <;> rfl

@[simp] theorem lineClear_items_now (s : State) (c l : Fin 2) : (s.lineClear c l).items.now = s.items.now := by unfold State.lineClear; split <;> rfl
@[simp] theorem lineClear_items_nextSeq (s : State) (c l : Fin 2) : (s.lineClear c l).items.nextSeq = s.items.nextSeq := by unfold State.lineClear; split <;> rfl
@[simp] theorem lineClear_items_nextHandle (s : State) (c l : Fin 2) : (s.lineClear c l).items.nextHandle = s.items.nextHandle := by unfold State.lineClear; split <;> rfl
@[simp] theorem lineClear_items_phase (s : State) (c l : Fin 2) : (s.lineClear c l).items.phase = s.items.phase := by unfold State.lineClear; split <;> rfl
@[simp] theorem lineClear_items_cur (s : State) (c l : Fin 2) : (s.lineClear c l).items.cur = s.items.cur := by unfold State.lineClear; split <;> rfl
@[simp] theorem lineClear_items_queue (s : State) (c l : Fin 2) : (s.lineClear c l).items.queue = s.items.queue := by unfold State.lineClear; split <;> rfl
@[simp] theorem lineClear_items_secondaryEnabled (s : State) (c l : Fin 2) : (s.lineClear c l).items.secondaryEnabled = s.items.secondaryEnabled := by unfold State.lineClear; split <;> rfl
@[simp] theorem lineClear_items_resetPending (s : State) (c l : Fin 2) : (s.lineClear c l).items.resetPending = s.items.resetPending := by unfold State.lineClear; split <;> rfl
@[simp] theorem lineClear_items_primaryHalted (s : State) (c l : Fin 2) : (s.lineClear c l).items.primaryHalted = s.items.primaryHalted := by unfold State.lineClear; split <;> rfl
@[simp] theorem lineClear_items_secondaryHalted (s : State) (c l : Fin 2) : (s.lineClear c l).items.secondaryHalted = s.items.secondaryHalted := by unfold State.lineClear; split <;> rfl
@[simp] theorem lineClear_items_ba (s : State) (c l : Fin 2) : (s.lineClear c l).items.ba = s.items.ba := by unfold State.lineClear; split <;> rfl
@[simp] theorem lineClear_items_fault (s : State) (c l : Fin 2) : (s.lineClear c l).items.fault = s.items.fault := by unfold State.lineClear; split <;> rfl
@[simp] theorem lineClear_items_diagCount (s : State) (c l : Fin 2) : (s.lineClear c l).items.diagCount = s.items.diagCount := by unfold State.lineClear; split <;> rfl
@[simp] theorem lineClear_items_lastDiag (s : State) (c l : Fin 2) : (s.lineClear c l).items.lastDiag = s.items.lastDiag := by unfold State.lineClear; split <;> rfl

end Sys2Proof.Machine
end

