-- ==== Sys2Proof/Laws/Ops.lean ====
section
/-! SUPPORT. For each shared operation, once, everything it can do. -/
namespace Sys2Proof.Machine

/-! ## The fault gate (R184) -/

theorem unlessFaulted_of_unfaulted {s : State} (f : State → State) (h : s.items.fault = 0) :
    s.unlessFaulted f = f s := if_pos h

theorem unlessFaulted_of_faulted {s : State} (f : State → State) (h : s.items.fault ≠ 0) :
    s.unlessFaulted f = s := if_neg h

/-! ## Keys and the event set -/

theorem before_iff (a b : Entry) : a.before b = true ↔ keyLess a b := by
  simp [Entry.before, keyLess]

theorem keyLess_irrefl (a : Entry) : ¬ keyLess a a := by simp [keyLess]

theorem keyLess_trans {a b c : Entry} (h1 : keyLess a b) (h2 : keyLess b c) : keyLess a c := by
  unfold keyLess at *; omega

/-- Two entries with different seqs are ordered one way or the other. -/
theorem keyLess_total {a b : Entry} (h : a.seq ≠ b.seq) : keyLess a b ∨ keyLess b a := by
  unfold keyLess; omega

theorem minKey_eq_none {q : List Entry} : minKey q = none ↔ q = [] := by
  cases q with
  | nil => simp [minKey]
  | cons x xs =>
    simp only [minKey, reduceCtorEq, iff_false]
    split
    · simp
    · split <;> simp

/-- `minKey` answers a member that no other member's key is less than. -/
theorem minKey_spec {q : List Entry} {e : Entry} (h : minKey q = some e) :
    e ∈ q ∧ ∀ x ∈ q, ¬ keyLess x e := by
  induction q generalizing e with
  | nil => simp [minKey] at h
  | cons x xs ih =>
    rw [minKey] at h
    cases hm : minKey xs with
    | none =>
      obtain rfl : x = e := by simpa [hm] using h
      rw [minKey_eq_none] at hm
      subst hm
      simp [keyLess_irrefl]
    | some y =>
      obtain ⟨hy, hmin⟩ := ih hm
      rw [hm] at h
      by_cases hb : y.before x = true
      · obtain rfl : y = e := by simpa [hb] using h
        refine ⟨List.mem_cons_of_mem _ hy, ?_⟩
        intro z hz
        rcases List.mem_cons.1 hz with rfl | hz
        · intro hlt
          exact keyLess_irrefl _ (keyLess_trans hlt ((before_iff _ _).1 hb))
        · exact hmin z hz
      · obtain rfl : x = e := by simpa [hb] using h
        rw [before_iff] at hb
        refine ⟨List.mem_cons_self, ?_⟩
        intro z hz hlt
        rcases List.mem_cons.1 hz with rfl | hz
        · exact keyLess_irrefl _ hlt
        · have := hmin z hz
          unfold keyLess at *
          omega

theorem insertEntry_perm (e : Entry) (q : List Entry) : (insertEntry e q).Perm (e :: q) := by
  induction q with
  | nil => simp [insertEntry]
  | cons x xs ih =>
    rw [insertEntry]
    split
    · exact List.Perm.refl _
    · exact (ih.cons x).trans (List.Perm.swap e x xs)

@[simp] theorem mem_insertEntry {e x : Entry} {q : List Entry} : x ∈ insertEntry e q ↔ x = e ∨ x ∈ q := by
  rw [(insertEntry_perm e q).mem_iff, List.mem_cons]

@[simp] theorem length_insertEntry (e : Entry) (q : List Entry) : (insertEntry e q).length = q.length + 1 := by
  rw [(insertEntry_perm e q).length_eq, List.length_cons]

/-- Inserting an entry whose seq is fresh keeps Q sorted by key. -/
theorem insertEntry_sorted {e : Entry} {q : List Entry} (hq : q.Pairwise keyLess)
    (hf : ∀ x ∈ q, x.seq ≠ e.seq) : (insertEntry e q).Pairwise keyLess := by
  induction q with
  | nil => simp [insertEntry]
  | cons x xs ih =>
    rw [List.pairwise_cons] at hq
    rw [insertEntry]
    split
    · next hb =>
      rw [before_iff] at hb
      rw [List.pairwise_cons]
      refine ⟨?_, List.pairwise_cons.2 hq⟩
      intro z hz
      rcases List.mem_cons.1 hz with rfl | hz
      · exact hb
      · exact keyLess_trans hb (hq.1 z hz)
    · next hb =>
      rw [before_iff] at hb
      have hxe : keyLess x e :=
        (keyLess_total (hf x List.mem_cons_self)).resolve_right hb
      rw [List.pairwise_cons]
      refine ⟨?_, ih hq.2 fun z hz => hf z (List.mem_cons_of_mem _ hz)⟩
      intro z hz
      rcases mem_insertEntry.1 hz with rfl | hz
      · exact hxe
      · exact hq.1 z hz

theorem mem_removeHandle {h : Word} {q : List Entry} {e : Entry} :
    e ∈ removeHandle h q ↔ e ∈ q ∧ e.handle ≠ h := by
  simp [removeHandle]

theorem mem_dueEntries {T : Word} {q : List Entry} {e : Entry} :
    e ∈ dueEntries T q ↔ e ∈ q ∧ e.fireTime.toNat ≤ T.toNat := by
  simp [dueEntries]

theorem findHandle_some {h : Word} {q : List Entry} {e : Entry} (hf : findHandle h q = some e) :
    e ∈ q ∧ e.handle = h := by
  have h1 := List.mem_of_find?_eq_some hf
  have h2 := List.find?_some hf
  exact ⟨h1, by simpa using h2⟩

theorem findHandle_none {h : Word} {q : List Entry} : findHandle h q = none ↔ ∀ e ∈ q, e.handle ≠ h := by
  simp [findHandle]

/-- What `lookup` can answer (R35): an entry of Q with that handle; the live current event with it, Q holding
none; or nothing with it. -/
theorem lookup_cases (t : Items) (h : Word) :
    (∃ e ∈ t.queue, e.handle = h ∧ t.lookup h = .queued e) ∨
    ((∀ e ∈ t.queue, e.handle ≠ h) ∧ ∃ c, t.cur = some c ∧ c.live = true ∧ c.entry.handle = h ∧
      t.lookup h = .firing c) ∨
    ((∀ e ∈ t.queue, e.handle ≠ h) ∧ (∀ c, t.cur = some c → c.live = true → c.entry.handle ≠ h) ∧
      t.lookup h = .stale) := by
  unfold Items.lookup
  cases hf : findHandle h t.queue with
  | some e =>
    obtain ⟨h1, h2⟩ := findHandle_some hf
    exact .inl ⟨e, h1, h2, rfl⟩
  | none =>
    rw [findHandle_none] at hf
    refine .inr ?_
    cases hc : t.cur with
    | none => exact .inr ⟨hf, by simp, rfl⟩
    | some c =>
      by_cases hl : (c.live && c.entry.handle == h) = true
      · refine .inl ⟨hf, c, rfl, ?_⟩
        have hl' := hl
        simp only [Bool.and_eq_true, beq_iff_eq] at hl
        simp only [hl', ↓reduceIte]
        exact ⟨hl.1, hl.2, trivial⟩
      · refine .inr ⟨hf, ?_, by simp only [hl]; rfl⟩
        intro c' hc' hlive heq
        obtain rfl : c = c' := by simpa using hc'
        exact hl (by simp [hlive, heq])

/-- R35: what it is for a handle to be valid. -/
theorem validHandle_iff (t : Items) (h : Word) : t.validHandle h = true ↔
    (∃ e ∈ t.queue, e.handle = h) ∨ ∃ c, t.cur = some c ∧ c.live = true ∧ c.entry.handle = h := by
  unfold Items.validHandle
  obtain ⟨e, he, hh, hl⟩ | ⟨-, c, hc, hl, hh, hk⟩ | ⟨hn, hn', hk⟩ := lookup_cases t h
  · simp only [hl, true_iff]
    exact .inl ⟨e, he, hh⟩
  · simp only [hk, true_iff]
    exact .inr ⟨c, hc, hl, hh⟩
  · simp only [hk, Bool.false_eq_true, false_iff]
    rintro (⟨e, he, hh⟩ | ⟨c, hc, hl, hh⟩)
    · exact hn e he hh
    · exact hn' c hc hl hh

/-! ## Operands -/

theorem lineOf_some {c l : Byte} {i j : Fin 2} (h : lineOf c l = some (i, j)) :
    i.val = c.toNat ∧ j.val = l.toNat := by
  unfold lineOf at h
  split at h
  · obtain ⟨rfl, rfl⟩ := by simpa using h
    exact ⟨rfl, rfl⟩
  · simp at h

theorem lineOf_none {c l : Byte} : lineOf c l = none ↔ 2 ≤ c.toNat ∨ 2 ≤ l.toNat := by
  unfold lineOf
  split <;> simp <;> omega

theorem cpuOf_some {c : Byte} {i : Fin 2} (h : cpuOf c = some i) : i.val = c.toNat := by
  unfold cpuOf at h
  split at h
  · obtain rfl := by simpa using h
    rfl
  · simp at h

theorem cpuOf_none {c : Byte} : cpuOf c = none ↔ 2 ≤ c.toNat := by
  unfold cpuOf
  split <;> simp <;> omega

theorem addressOf_some {a : Word} {b : Address} (h : addressOf a = some b) : b.toNat = a.toNat := by
  unfold addressOf at h
  split at h
  · obtain rfl := by simpa using h
    simp only [BitVec.extractLsb'_toNat, Nat.shiftRight_zero]
    omega
  · simp at h

theorem addressOf_none {a : Word} : addressOf a = none ↔ 2 ^ 16 ≤ a.toNat := by
  unfold addressOf
  split <;> simp <;> omega

theorem dataOf_some {d : Word} {v : Byte} (h : dataOf d = some v) : v.toNat = d.toNat := by
  unfold dataOf at h
  split at h
  · obtain rfl := by simpa using h
    simp only [BitVec.extractLsb'_toNat, Nat.shiftRight_zero]
    omega
  · simp at h

theorem dataOf_none {d : Word} : dataOf d = none ↔ 2 ^ 8 ≤ d.toNat := by
  unfold dataOf
  split <;> simp <;> omega

/-! ## Interrupt lines -/

theorem line_setLine (s : State) (c l c' l' : Fin 2) (v : Bool) :
    (s.setLine c l v).items.line c' l' = if c = c' ∧ l = l' then v else s.items.line c' l' := by
  simp only [setLine_items, Items.line, Fin.getElem_fin, Vector.getElem_set]
  by_cases hc : c = c'
  · subst hc
    by_cases hl : l = l'
    · subst hl; simp
    · have : l.val ≠ l'.val := fun h => hl (Fin.ext h)
      simp [this, hl]
  · have : c.val ≠ c'.val := fun h => hc (Fin.ext h)
    simp [this, hc]

/-- LineAssert leaves the named line asserted and every other as it was (R134). -/
theorem line_lineAssert (s : State) (c l c' l' : Fin 2) :
    (s.lineAssert c l).items.line c' l' = if c = c' ∧ l = l' then true else s.items.line c' l' := by
  unfold State.lineAssert
  by_cases h : s.items.line c l = true
  · simp only [h, ↓reduceIte]
    split
    · next hc => obtain ⟨rfl, rfl⟩ := hc; exact h
    · rfl
  · simp only [h, Bool.false_eq_true, ↓reduceIte, emitCpu_items, line_setLine]

/-- LineClear leaves the named line clear and every other as it was (R134). -/
theorem line_lineClear (s : State) (c l c' l' : Fin 2) :
    (s.lineClear c l).items.line c' l' = if c = c' ∧ l = l' then false else s.items.line c' l' := by
  unfold State.lineClear
  by_cases h : s.items.line c l = true
  · simp only [h, ↓reduceIte, emitCpu_items, line_setLine]
  · simp only [h, Bool.false_eq_true, ↓reduceIte]
    split
    · next hc => obtain ⟨rfl, rfl⟩ := hc; simpa using h
    · rfl

/-- All that LineAssert does (R134): `asserted` (see `line_lineAssert`) and, if the line was clear, one message. -/
theorem lineAssert_eq (s : State) (c l : Fin 2) : s.lineAssert c l = { s with
    items := { s.items with asserted := (s.lineAssert c l).items.asserted }
    history := s.history ++
      (if s.items.line c l = true then [] else [.cpu (.assertLine c l) s.items.now]) } := by
  unfold State.lineAssert
  cases h : s.items.line c l <;> simp [State.emitCpu, State.emit, State.setLine]

/-- All that LineClear does (R134): `asserted` (see `line_lineClear`) and, if the line was set, one message. -/
theorem lineClear_eq (s : State) (c l : Fin 2) : s.lineClear c l = { s with
    items := { s.items with asserted := (s.lineClear c l).items.asserted }
    history := s.history ++
      (if s.items.line c l = false then [] else [.cpu (.clearLine c l) s.items.now]) } := by
  unfold State.lineClear
  cases h : s.items.line c l <;> simp [State.emitCpu, State.emit, State.setLine]

/-! ## Shared memory -/

@[simp] theorem memLookup_memStore (m : List Host.Cell) (a b : Nat) (v : Byte) :
    memLookup (memStore m a v) b = if a = b then some v else memLookup m b := by
  induction m with
  | nil => simp [memStore, memLookup]
  | cons x xs ih =>
    obtain ⟨c, w⟩ := x
    simp only [memStore]
    split
    · simp [memLookup]
    · split
      · next h => subst h; simp only [memLookup]; split <;> rfl
      · next h =>
        simp only [memLookup, ih]
        split
        · next hc => subst hc; simp [h]
        · rfl

theorem memWf_cons {b : Nat} {v : Byte} {m : List Host.Cell} :
    Memory.wf ((b, v) :: m) = true ↔ b < 2 ^ 16 ∧ Memory.wf m = true ∧ ∀ c w r, m = (c, w) :: r → b < c := by
  cases m with
  | nil => simp [Memory.wf]
  | cons x xs =>
    obtain ⟨c, w⟩ := x
    simp only [Memory.wf, Bool.and_eq_true, decide_eq_true_eq]
    constructor
    · rintro ⟨h1, h2⟩
      refine ⟨?_, h2, ?_⟩
      · cases xs with
        | nil => simp [Memory.wf] at h2; omega
        | cons y ys =>
          obtain ⟨d, u⟩ := y
          have : ∀ (l : List Host.Cell) (d : Nat) (u : Byte), Memory.wf ((d, u) :: l) = true → d < 2 ^ 16 := by
            intro l
            induction l with
            | nil => intro d u h; simpa [Memory.wf] using h
            | cons z zs ih =>
              intro d u h
              obtain ⟨f, g⟩ := z
              simp only [Memory.wf, Bool.and_eq_true, decide_eq_true_eq] at h
              have := ih f g h.2
              omega
          have := this _ _ _ h2
          omega
      · rintro c' w' r' h
        simp only [List.cons.injEq, Prod.mk.injEq] at h
        omega
    · rintro ⟨_, h2, h3⟩
      exact ⟨h3 c w xs rfl, h2⟩

/-- A store keeps the canonical form. -/
theorem memStore_wf {m : List Host.Cell} {a : Nat} {v : Byte} (hm : Memory.wf m = true) (ha : a < 2 ^ 16) :
    Memory.wf (memStore m a v) = true := by
  induction m with
  | nil => simpa [memStore, Memory.wf] using ha
  | cons x xs ih =>
    obtain ⟨b, w⟩ := x
    have hm' := memWf_cons.1 hm
    rw [memStore]
    split
    · next h => exact memWf_cons.2 ⟨ha, hm, by rintro c u r heq; simp at heq; omega⟩
    · split
      · next h => subst h; exact memWf_cons.2 hm'
      · next h1 h2 =>
        refine memWf_cons.2 ⟨hm'.1, ih hm'.2.1, ?_⟩
        intro c u r heq
        cases xs with
        | nil => simp [memStore] at heq; omega
        | cons y ys =>
          obtain ⟨d, f⟩ := y
          have hbd := hm'.2.2 d f ys rfl
          rw [memStore] at heq
          split at heq
          · simp at heq; omega
          · split at heq <;> (simp at heq; omega)

/-- Every memory operation of a step keeps the canonical form: reads change no byte, writes store one. -/
theorem memWrite_wf {s : State} (a : Address) (v : Byte) (h : Memory.wf s.mem = true) :
    Memory.wf (s.memWrite a v).mem = true := memStore_wf h a.isLt

theorem memRead_wf {s : State} (a : Address) (h : Memory.wf s.mem = true) :
    Memory.wf (s.memRead a).mem = true := h

theorem reset_mem_wf : Memory.wf State.reset.mem = true := rfl

/-! ## Configuration -/

/-- The machine's configuration meets R7 whatever the free constants are (R8). -/
theorem params_valid : Config.params.valid = true := by
  have hL : 2 ≤ Config.linePeriod := by unfold Config.linePeriod; split <;> simp_all
  have hN : 1 ≤ Config.totalScanlines := by unfold Config.totalScanlines; split <;> simp_all
  have hH : 0 < Config.hblankStart ∧ Config.hblankStart < Config.linePeriod := by
    unfold Config.hblankStart
    split
    · assumption
    · simp; omega
  simp [Params.valid, Config.params, hL, hN, hH.1, hH.2]

end Sys2Proof.Machine
end

