-- ==== Sys2Proof/Laws/Exec.lean ====
section
/-! SUPPORT. What a command, a drain step and a step can do, said once: an inversion lemma for each. -/
namespace Sys2Proof.Machine

/-! ## Operand arithmetic -/

theorem roomFor_iff {p : Params} {n : Nat} :
    roomFor p n = true ↔ ∀ k, p.queueCapacity = some k → n ≤ k := by
  unfold roomFor
  cases p.queueCapacity <;> simp

theorem fireTime_cast (now : Word) (absolute : Bool) (t : Int) :
    (fireTime now absolute t : Int) = max (now.toNat : Int) (if absolute then t else now.toNat + t) := by
  unfold fireTime
  omega

theorem le_fireTime (now : Word) (absolute : Bool) (t : Int) : now.toNat ≤ fireTime now absolute t := by
  have := fireTime_cast now absolute t
  omega

theorem le_firstAssert {p : Params} (h : p.valid = true) (now : Word) (line : Nat) :
    now.toNat ≤ firstAssert p now line := by
  simp only [Params.valid, Bool.and_eq_true, decide_eq_true_eq] at h
  have hfp : 0 < framePeriod p := Nat.mul_pos (by omega) (by omega)
  unfold firstAssert
  simp only [frameOrigin, Nat.zero_add]
  split
  · omega
  · generalize line * p.linePeriod = t0 at *
    generalize framePeriod p = fp at *
    have h1 := Nat.div_add_mod (now.toNat - t0 + (fp - 1)) fp
    have h2 := Nat.mod_lt (now.toNat - t0 + (fp - 1)) hfp
    rw [Nat.mul_comm] at h1
    omega

/-! ## What a command does to the state items -/

/-- The state items a command can leave, from `x`, with everything the command has checked; `W` says that the
command is well formed. -/
inductive ItemsEffect (W : Prop) (p : Params) (x : Items) : Items → Prop where
  | same : ItemsEffect W p x x
  | raise (f : FaultCode) (h : x.fault = 0) : ItemsEffect W p x { x with fault := faultCode f }
  | record (d : DiagCode) (h : x.fault = 0) :
      ItemsEffect W p x { x with diagCount := x.diagCount + 1, lastDiag := diagCode d }
  | insert (ft : Nat) (pl : Payload) (r : Bool) (per : Word) (h : x.fault = 0)
      (now : x.now.toNat ≤ ft) (fits : ft < 2 ^ 64) (room : roomFor p (x.occ + 1) = true)
      (handle : x.nextHandle.toNat + 1 < 2 ^ 64) (ext : ∃ y, pl = .ext y)
      (period : W → if r = true then 0 < per.toNat else per.toNat = 0) :
      ItemsEffect W p x { x with
        queue := insertEntry ⟨x.nextHandle, BitVec.ofNat 64 ft, pl, r, per, x.nextSeq⟩ x.queue
        nextHandle := x.nextHandle + 1
        nextSeq := x.nextSeq + 1 }
  | pulse (c l : Fin 2) (line : Word) (h : x.fault = 0) (hline : line.toNat < p.totalScanlines)
      (fits : firstAssert p x.now line.toNat + p.hblankStart < 2 ^ 64) (period : framePeriod p < 2 ^ 64)
      (room : roomFor p (x.occ + 2) = true) (handle : x.nextHandle.toNat + 2 < 2 ^ 64) :
      ItemsEffect W p x { x with
        queue := insertEntry ⟨x.nextHandle + 1,
            BitVec.ofNat 64 (firstAssert p x.now line.toNat + p.hblankStart), .irqClear c l, true,
            BitVec.ofNat 64 (framePeriod p), x.nextSeq + 1⟩
          (insertEntry ⟨x.nextHandle, BitVec.ofNat 64 (firstAssert p x.now line.toNat), .irqAssert c l, true,
            BitVec.ofNat 64 (framePeriod p), x.nextSeq⟩ x.queue)
        nextHandle := x.nextHandle + 1 + 1
        nextSeq := x.nextSeq + 1 + 1 }
  | cancelQueued (e : Entry) (h : x.fault = 0) (mem : e ∈ x.queue) :
      ItemsEffect W p x { x with queue := removeHandle e.handle x.queue }
  | cancelFiring (c : CurEvent) (h : x.fault = 0) (cur : x.cur = some c) :
      ItemsEffect W p x { x with cur := some { c with live := false } }
  | advance (T : Word) (h : x.fault = 0) (le : x.now.toNat ≤ T.toNat) (phase : ∀ U, x.phase ≠ .callback U) :
      ItemsEffect W p x { x with phase := .draining T }
  | callbackEnd (T : Word) (c : CurEvent) (h : x.fault = 0) (phase : x.phase = .callback T)
      (cur : x.cur = some c) (dead : c.live = false) :
      ItemsEffect W p x { x with cur := none, phase := .draining T }
  | callbackRearm (T : Word) (c : CurEvent) (h : x.fault = 0) (phase : x.phase = .callback T)
      (cur : x.cur = some c) (live : c.live = true) (fits : rearmTime c.entry < 2 ^ 64) :
      ItemsEffect W p x { x with
        queue := insertEntry { c.entry with fireTime := BitVec.ofNat 64 (rearmTime c.entry), seq := x.nextSeq } x.queue
        nextSeq := x.nextSeq + 1
        cur := none
        phase := .draining T }
  | lines (a : Vector (Vector Bool 2) 2) (h : x.fault = 0) : ItemsEffect W p x { x with asserted := a }
  | enable (e pend : Bool) (h : x.fault = 0) (hpend : e = true → x.secondaryEnabled = false → pend = false)
      (hkeep : e = true → x.secondaryEnabled = true → pend = x.resetPending) :
      ItemsEffect W p x { x with
        resetPending := pend, secondaryEnabled := e, primaryHalted := e, secondaryHalted := !e }
  | busAvailable (b : Bool) (h : x.fault = 0) : ItemsEffect W p x { x with ba := b }

theorem lineAssert_items_eq (s : State) (c l : Fin 2) :
    (s.lineAssert c l).items = { s.items with asserted := (s.lineAssert c l).items.asserted } := by
  unfold State.lineAssert
  split <;> rfl

theorem lineClear_items_eq (s : State) (c l : Fin 2) :
    (s.lineClear c l).items = { s.items with asserted := (s.lineClear c l).items.asserted } := by
  unfold State.lineClear
  split <;> rfl

/-- Whatever a command does to the state items is one of `ItemsEffect`. -/
theorem exec_items {i : Instr} {s t : State} (h : exec i s = .next t) :
    ItemsEffect (i.wf = true) s.cfg s.items t.items := by
  by_cases hf : s.items.fault = 0
  swap
  · have : t = s ∨ t = s.respond (statusWords s.items) := by
      cases i <;>
        simp only [exec, execNop, execStatus, execSched, execCancel, execAdvance, execCbdone, execRdnow, execQuery,
          execRdscan, execIrqSet, execIrqClr, execIrqPer, execIrqRd, execArbEn, execArbRst, execArbBa, execArbRd,
          execArbWr, execArbRds, unlessFaulted_of_faulted _ hf, hf, ↓reduceIte, Host.Outcome.next.injEq] at h <;>
        simp [h]
    rcases this with rfl | rfl <;> exact .same
  cases i with
  | nop => obtain rfl := Host.Outcome.next.inj h; exact .same
  | status => obtain rfl := Host.Outcome.next.inj h; exact .same
  | sched absolute t' recurring p y =>
    obtain rfl := Host.Outcome.next.inj h
    rw [unlessFaulted_of_unfaulted _ hf, State.schedule]
    split
    · exact .record _ hf
    split
    · exact .raise _ hf
    split
    · exact .raise _ hf
    split
    · exact .raise _ hf
    split
    · exact .raise _ hf
    · next h1 h2 h3 h4 h5 =>
      refine .insert _ _ _ _ hf (le_fireTime ..) (by omega) (by simpa using h4) (by omega) ⟨y, rfl⟩ fun hw => ?_
      simp only [Instr.wf, inS64, Bool.and_eq_true, decide_eq_true_eq] at hw
      cases recurring with
      | false => simp
      | true =>
        have hp : 0 < p := by simpa using h2
        simp only [↓reduceIte, BitVec.toNat_ofInt]
        omega
  | cancel hnd =>
    obtain rfl := Host.Outcome.next.inj h
    rw [unlessFaulted_of_unfaulted _ hf, State.cancelHandle]
    obtain ⟨e, he, -, hl⟩ | ⟨-, c, hc, -, -, hl⟩ | ⟨-, -, hl⟩ := lookup_cases s.items hnd <;> rw [hl]
    · exact .cancelQueued e hf he
    · exact .cancelFiring c hf hc
    · exact .record _ hf
  | advance T =>
    obtain rfl := Host.Outcome.next.inj h
    rw [unlessFaulted_of_unfaulted _ hf, State.advanceTo]
    cases hp : s.items.phase with
    | callback U => exact .raise _ hf
    | idle =>
      simp only
      split
      · exact .record _ hf
      · exact .advance T hf (by omega) (by simp [hp])
    | draining U =>
      simp only
      split
      · exact .record _ hf
      · exact .advance T hf (by omega) (by simp [hp])
  | cbdone =>
    rw [exec, execCbdone, if_pos hf, State.callbackDone] at h
    cases hp : s.items.phase with
    | idle => rw [hp] at h; obtain rfl := Host.Outcome.next.inj h; exact .record _ hf
    | draining U => rw [hp] at h; obtain rfl := Host.Outcome.next.inj h; exact .record _ hf
    | callback T =>
      rw [hp] at h
      cases hc : s.items.cur with
      | none => rw [hc] at h; exact absurd h (by simp)
      | some c =>
        rw [hc] at h
        obtain rfl := Host.Outcome.next.inj h
        rw [State.endCallback]
        split
        · next hl =>
          split
          · exact .raise _ hf
          · exact .callbackRearm T c hf hp hc hl (by omega)
        · next hl => exact .callbackEnd T c hf hp hc (by simpa using hl)
  | rdnow =>
    obtain rfl := Host.Outcome.next.inj h
    rw [unlessFaulted_of_unfaulted _ hf]; exact .same
  | query hnd =>
    obtain rfl := Host.Outcome.next.inj h
    rw [unlessFaulted_of_unfaulted _ hf, State.queryHandle]
    split <;> exact .same
  | rdscan =>
    obtain rfl := Host.Outcome.next.inj h
    rw [unlessFaulted_of_unfaulted _ hf]; exact .same
  | irqSet c l =>
    obtain rfl := Host.Outcome.next.inj h
    rw [unlessFaulted_of_unfaulted _ hf, State.onLine]
    split
    · exact .raise _ hf
    · rw [lineAssert_items_eq]; exact .lines _ hf
  | irqClr c l =>
    obtain rfl := Host.Outcome.next.inj h
    rw [unlessFaulted_of_unfaulted _ hf, State.onLine]
    split
    · exact .raise _ hf
    · rw [lineClear_items_eq]; exact .lines _ hf
  | irqPer c l line =>
    obtain rfl := Host.Outcome.next.inj h
    rw [unlessFaulted_of_unfaulted _ hf, State.onLine]
    split
    · exact .raise _ hf
    rw [State.pulse]
    split
    · exact .raise _ hf
    split
    · exact .raise _ hf
    split
    · exact .raise _ hf
    split
    · exact .raise _ hf
    · next h1 h2 h3 h4 => exact .pulse _ _ line hf (by omega) (by omega) (by omega) (by simpa using h3) (by omega)
  | irqRd c l =>
    obtain rfl := Host.Outcome.next.inj h
    rw [unlessFaulted_of_unfaulted _ hf, State.onLine]
    split
    · exact .raise _ hf
    · exact .same
  | arbEn e =>
    obtain rfl := Host.Outcome.next.inj h
    rw [unlessFaulted_of_unfaulted _ hf, State.arbEnable, haltSwapOutputs_items]
    split
    · next hc => exact .enable e false hf (fun _ _ => rfl) (fun _ hx => by simp [hc.1] at hx)
    · next hc =>
      refine .enable e s.items.resetPending hf ?_ (fun _ _ => rfl)
      intro he hx
      simpa [he, hx] using hc
  | arbRst =>
    obtain rfl := Host.Outcome.next.inj h
    rw [unlessFaulted_of_unfaulted _ hf]
    exact .enable false true hf (by simp) (by simp)
  | arbBa b =>
    obtain rfl := Host.Outcome.next.inj h
    rw [unlessFaulted_of_unfaulted _ hf]
    exact .busAvailable b hf
  | arbRd c a =>
    obtain rfl := Host.Outcome.next.inj h
    rw [unlessFaulted_of_unfaulted _ hf, State.arbRead]
    split
    · exact .raise _ hf
    split
    · exact .record _ hf
    split
    · exact .record _ hf
    · exact .same
  | arbWr c a d =>
    obtain rfl := Host.Outcome.next.inj h
    rw [unlessFaulted_of_unfaulted _ hf, State.arbWrite]
    split
    · exact .raise _ hf
    split
    · exact .record _ hf
    split
    · exact .record _ hf
    split
    · exact .record _ hf
    · exact .same
  | arbRds =>
    obtain rfl := Host.Outcome.next.inj h
    rw [unlessFaulted_of_unfaulted _ hf]; exact .same

/-! ## What a command does to the rest of the state -/

/-- What every state operation leaves alone: the configuration, the ports, the host operation, the count of offers;
and the history before it is a prefix of the history after it. -/
structure Frame (s t : State) : Prop where
  cfg : t.cfg = s.cfg
  hostPort : t.hostPort = s.hostPort
  clientPort : t.clientPort = s.clientPort
  hostOp : t.hostOp = s.hostOp
  offers : t.offers = s.offers
  history : s.history <+: t.history

theorem Frame.refl (s : State) : Frame s s := ⟨rfl, rfl, rfl, rfl, rfl, List.prefix_refl _⟩

theorem Frame.trans {s t u : State} (h1 : Frame s t) (h2 : Frame t u) : Frame s u :=
  ⟨h2.cfg.trans h1.cfg, h2.hostPort.trans h1.hostPort, h2.clientPort.trans h1.clientPort,
    h2.hostOp.trans h1.hostOp, h2.offers.trans h1.offers, h1.history.trans h2.history⟩

theorem frame_emit (s : State) (m : Msg) : Frame s (s.emit m) := ⟨rfl, rfl, rfl, rfl, rfl, List.prefix_append _ _⟩
theorem frame_emitCpu (s : State) (m : CpuMsg) : Frame s (s.emitCpu m) := frame_emit ..
theorem frame_respond (s : State) (ws : List Word) : Frame s (s.respond ws) :=
  ⟨rfl, rfl, rfl, rfl, rfl, List.prefix_append _ _⟩
theorem frame_raiseFault (s : State) (f : FaultCode) (opc : Byte) : Frame s (s.raiseFault f opc) :=
  ⟨rfl, rfl, rfl, rfl, rfl, List.prefix_append _ _⟩
theorem frame_recordDiag (s : State) (d : DiagCode) (opc : Byte) : Frame s (s.recordDiag d opc) :=
  ⟨rfl, rfl, rfl, rfl, rfl, List.prefix_append _ _⟩
theorem frame_rearm (s : State) (e : Entry) : Frame s (s.rearm e) := ⟨rfl, rfl, rfl, rfl, rfl, List.prefix_refl _⟩
theorem frame_insertNew (s : State) (ft : Nat) (pl : Payload) (r : Bool) (p : Word) :
    Frame s (s.insertNew ft pl r p) := ⟨rfl, rfl, rfl, rfl, rfl, List.prefix_refl _⟩
theorem frame_setLine (s : State) (c l : Fin 2) (v : Bool) : Frame s (s.setLine c l v) :=
  ⟨rfl, rfl, rfl, rfl, rfl, List.prefix_refl _⟩
theorem frame_setEnabled (s : State) (e : Bool) : Frame s (s.setEnabled e) :=
  ⟨rfl, rfl, rfl, rfl, rfl, List.prefix_refl _⟩
theorem frame_memRead (s : State) (a : Address) : Frame s (s.memRead a) :=
  ⟨rfl, rfl, rfl, rfl, rfl, List.prefix_append _ _⟩
theorem frame_memWrite (s : State) (a : Address) (v : Byte) : Frame s (s.memWrite a v) :=
  ⟨rfl, rfl, rfl, rfl, rfl, List.prefix_append _ _⟩
/-- Writing state items leaves the rest alone. -/
theorem frame_items (s : State) (x : Items) : Frame s { s with items := x } :=
  ⟨rfl, rfl, rfl, rfl, rfl, List.prefix_refl _⟩
theorem frame_installResetVector (s : State) : Frame s s.installResetVector :=
  ⟨rfl, rfl, rfl, rfl, rfl, List.prefix_append _ _⟩
theorem frame_takeSnapshot (s : State) : Frame s s.takeSnapshot := frame_emit ..

theorem frame_lineAssert (s : State) (c l : Fin 2) : Frame s (s.lineAssert c l) := by
  unfold State.lineAssert
  split
  · exact .refl _
  · exact (frame_setLine ..).trans (frame_emitCpu ..)

theorem frame_lineClear (s : State) (c l : Fin 2) : Frame s (s.lineClear c l) := by
  unfold State.lineClear
  split
  · exact (frame_setLine ..).trans (frame_emitCpu ..)
  · exact .refl _

theorem frame_haltSwapOutputs (s : State) (e : Bool) : Frame s (s.haltSwapOutputs e) := by
  unfold State.haltSwapOutputs
  split <;> exact (frame_emitCpu ..).trans (frame_emitCpu ..)

theorem frame_unlessFaulted {s : State} {f : State → State} (h : s.items.fault = 0 → Frame s (f s)) :
    Frame s (s.unlessFaulted f) := by
  unfold State.unlessFaulted
  split
  · exact h ‹_›
  · exact .refl _

theorem frame_onLine {s : State} {opc c l : Byte} {f : State → Fin 2 → Fin 2 → State}
    (h : ∀ i j, Frame s (f s i j)) : Frame s (s.onLine opc c l f) := by
  unfold State.onLine
  split
  · exact frame_raiseFault ..
  · exact h ..

/-- A command leaves the configuration, both sides of the command port and the host operation alone, and only
appends to the history. -/
theorem exec_frame {i : Instr} {s t : State} (h : exec i s = .next t) : Frame s t := by
  cases i with
  | nop => obtain rfl := Host.Outcome.next.inj h; exact .refl _
  | status => obtain rfl := Host.Outcome.next.inj h; exact frame_respond ..
  | sched absolute t' recurring p y =>
    obtain rfl := Host.Outcome.next.inj h
    refine frame_unlessFaulted fun _ => ?_
    unfold State.schedule
    split_ifs
    · exact (frame_recordDiag ..).trans (frame_respond ..)
    all_goals first
      | exact frame_raiseFault ..
      | exact (frame_insertNew ..).trans (frame_respond ..)
  | cancel hnd =>
    obtain rfl := Host.Outcome.next.inj h
    refine frame_unlessFaulted fun _ => ?_
    unfold State.cancelHandle
    split
    · exact frame_items ..
    · exact frame_items ..
    · exact frame_recordDiag ..
  | advance T =>
    obtain rfl := Host.Outcome.next.inj h
    refine frame_unlessFaulted fun _ => ?_
    unfold State.advanceTo
    split
    · exact frame_raiseFault ..
    all_goals
      split
      · exact frame_recordDiag ..
      · exact frame_items ..
  | cbdone =>
    rw [exec, execCbdone] at h
    split at h
    swap
    · obtain rfl := Host.Outcome.next.inj h; exact .refl _
    unfold State.callbackDone at h
    split at h
    · split at h
      · obtain rfl := Host.Outcome.next.inj h
        unfold State.endCallback
        split
        · split
          · exact frame_raiseFault ..
          · exact (frame_rearm ..).trans (frame_items ..)
        · exact frame_items ..
      · exact absurd h (by simp)
    · obtain rfl := Host.Outcome.next.inj h; exact frame_recordDiag ..
    · obtain rfl := Host.Outcome.next.inj h; exact frame_recordDiag ..
  | rdnow => obtain rfl := Host.Outcome.next.inj h; exact frame_unlessFaulted fun _ => frame_respond ..
  | query hnd =>
    obtain rfl := Host.Outcome.next.inj h
    refine frame_unlessFaulted fun _ => ?_
    unfold State.queryHandle
    split <;> exact frame_respond ..
  | rdscan => obtain rfl := Host.Outcome.next.inj h; exact frame_unlessFaulted fun _ => frame_respond ..
  | irqSet c l =>
    obtain rfl := Host.Outcome.next.inj h
    exact frame_unlessFaulted fun _ => frame_onLine fun i j => frame_lineAssert ..
  | irqClr c l =>
    obtain rfl := Host.Outcome.next.inj h
    exact frame_unlessFaulted fun _ => frame_onLine fun i j => frame_lineClear ..
  | irqPer c l line =>
    obtain rfl := Host.Outcome.next.inj h
    refine frame_unlessFaulted fun _ => frame_onLine fun i j => ?_
    unfold State.pulse
    split_ifs
    all_goals first
      | exact frame_raiseFault ..
      | exact ((frame_insertNew ..).trans (frame_insertNew ..)).trans (frame_respond ..)
  | irqRd c l =>
    obtain rfl := Host.Outcome.next.inj h
    exact frame_unlessFaulted fun _ => frame_onLine fun i j => frame_respond ..
  | arbEn e =>
    obtain rfl := Host.Outcome.next.inj h
    refine frame_unlessFaulted fun _ => ?_
    unfold State.arbEnable
    refine Frame.trans ?_ ((frame_setEnabled ..).trans (frame_haltSwapOutputs ..))
    split
    · exact frame_installResetVector ..
    · exact .refl _
  | arbRst =>
    obtain rfl := Host.Outcome.next.inj h
    exact frame_unlessFaulted fun _ =>
      (frame_items ..).trans ((frame_setEnabled ..).trans (frame_haltSwapOutputs ..))
  | arbBa b => obtain rfl := Host.Outcome.next.inj h; exact frame_unlessFaulted fun _ => frame_items ..
  | arbRd c a =>
    obtain rfl := Host.Outcome.next.inj h
    refine frame_unlessFaulted fun _ => ?_
    unfold State.arbRead
    split
    · exact frame_raiseFault ..
    split
    · exact (frame_recordDiag ..).trans (frame_respond ..)
    split
    · exact (frame_recordDiag ..).trans (frame_respond ..)
    · exact (frame_memRead ..).trans (frame_respond ..)
  | arbWr c a d =>
    obtain rfl := Host.Outcome.next.inj h
    refine frame_unlessFaulted fun _ => ?_
    unfold State.arbWrite
    split
    · exact frame_raiseFault ..
    split
    · exact frame_recordDiag ..
    split
    · exact frame_recordDiag ..
    split
    · exact frame_recordDiag ..
    · exact frame_memWrite ..
  | arbRds => obtain rfl := Host.Outcome.next.inj h; exact frame_unlessFaulted fun _ => frame_respond ..

/-- A command leaves the memory alone, or makes one MemWrite (R54). -/
theorem exec_mem {i : Instr} {s t : State} (h : exec i s = .next t) :
    t.mem = s.mem ∨ ∃ (a : Address) (v : Byte), t.mem = (s.memWrite a v).mem := by
  cases i with
  | cbdone =>
    left
    simp only [exec, execCbdone, State.callbackDone, State.endCallback] at h
    repeat' split at h
    all_goals first
      | (simp at h; done)
      | (obtain rfl := Host.Outcome.next.inj h; rfl)
  | arbWr c a d =>
    obtain rfl := Host.Outcome.next.inj h
    simp only [State.unlessFaulted, State.arbWrite]
    repeat' (first | exact .inl rfl | exact .inr ⟨_, _, rfl⟩ | split)
  | _ =>
    obtain rfl := Host.Outcome.next.inj h
    left
    first
      | rfl
      | (simp only [State.unlessFaulted, State.schedule, State.cancelHandle, State.advanceTo, State.queryHandle,
           State.onLine, State.pulse, State.arbEnable, State.arbReset, State.arbRead]
         repeat' (first | rfl | split)
         all_goals simp)

/-- A command neither reads nor writes the pending host operation (R173). -/
theorem exec_withHostOp (i : Instr) (s : State) (op : Option HostOp) :
    exec i { s with hostOp := op } =
      match exec i s with
      | .next t => .next { t with hostOp := op }
      | .fault r => .fault r
      | .refused r => .refused r := by
  cases i <;>
    (simp only [exec, execNop, execStatus, execSched, execCancel, execAdvance, execCbdone, execRdnow, execQuery,
      execRdscan, execIrqSet, execIrqClr, execIrqPer, execIrqRd, execArbEn, execArbRst, execArbBa, execArbRd, execArbWr,
      execArbRds, State.unlessFaulted, State.schedule, State.cancelHandle, State.advanceTo, State.callbackDone,
      State.endCallback, State.queryHandle, State.onLine, State.pulse, State.arbEnable, State.arbReset, State.arbRead,
      State.arbWrite, State.lineAssert, State.lineClear, State.setLine, State.installResetVector,
      State.haltSwapOutputs, State.setEnabled]
     repeat' (first | rfl | split))

/-! ## What a drain step does -/

/-- What a drain step to `T` can do (R106): end the drain with nothing due; fault before the due event of least
key; or fire that event. -/
theorem drainStep_cases (s : State) (T : Word) :
    ((∀ e ∈ s.items.queue, T.toNat < e.fireTime.toNat) ∧
      s.drainStep T = { s with
        items := { s.items with now := T, phase := .idle }, history := s.history ++ [.done T] }) ∨
    ∃ e ∈ s.items.queue, e.fireTime.toNat ≤ T.toNat ∧ (∀ x ∈ s.items.queue, ¬ keyLess x e) ∧
      ((e.recurring = true ∧ 2 ^ 64 ≤ rearmTime e ∧ s.drainStep T = s.raiseFault .timeOverflow 0xFF) ∨
        ((e.recurring = true → rearmTime e < 2 ^ 64) ∧ s.drainStep T = s.fireEvent T e)) := by
  unfold State.drainStep
  cases hm : minKey (dueEntries T s.items.queue) with
  | none =>
    refine .inl ⟨fun e he => ?_, rfl⟩
    rw [minKey_eq_none] at hm
    by_contra hle
    have : e ∈ dueEntries T s.items.queue := mem_dueEntries.2 ⟨he, by omega⟩
    rw [hm] at this
    simp at this
  | some e =>
    obtain ⟨he, hmin⟩ := minKey_spec hm
    rw [mem_dueEntries] at he
    refine .inr ⟨e, he.1, he.2, fun x hx hlt => ?_, ?_⟩
    · refine hmin x (mem_dueEntries.2 ⟨hx, ?_⟩) hlt
      unfold keyLess at hlt
      omega
    · simp only
      split
      · next hc => exact .inl ⟨hc.1, hc.2, rfl⟩
      · next hc => exact .inr ⟨fun hr => by by_contra hge; exact hc ⟨hr, by omega⟩, rfl⟩

/-- What firing the event `e` leaves (R106): the state items by the kind of its payload, and the rest. -/
theorem fireEvent_items (s : State) (T : Word) (e : Entry) :
    (∃ y, e.payload = .ext y ∧ (s.fireEvent T e).items = { s.items with
      queue := removeHandle e.handle s.items.queue, now := e.fireTime
      cur := some { entry := e, live := e.recurring }, phase := .callback T }) ∨
    ((∀ y, e.payload ≠ .ext y) ∧ e.recurring = false ∧ (s.fireEvent T e).items = { s.items with
      queue := removeHandle e.handle s.items.queue, now := e.fireTime
      asserted := (s.fireEvent T e).items.asserted }) ∨
    ((∀ y, e.payload ≠ .ext y) ∧ e.recurring = true ∧ (s.fireEvent T e).items = { s.items with
      queue := insertEntry { e with fireTime := BitVec.ofNat 64 (rearmTime e), seq := s.items.nextSeq }
        (removeHandle e.handle s.items.queue)
      now := e.fireTime, nextSeq := s.items.nextSeq + 1, asserted := (s.fireEvent T e).items.asserted }) := by
  unfold State.fireEvent
  split
  · next c l hp =>
    right
    cases hr : e.recurring with
    | false => exact .inl ⟨by simp [hp], rfl, lineAssert_items_eq ..⟩
    | true => exact .inr ⟨by simp [hp], rfl, by simp [hr]⟩
  · next c l hp =>
    right
    cases hr : e.recurring with
    | false => exact .inl ⟨by simp [hp], rfl, lineClear_items_eq ..⟩
    | true => exact .inr ⟨by simp [hp], rfl, by simp [hr]⟩
  · next y hp => exact .inl ⟨y, hp, rfl⟩

theorem frame_fireEvent (s : State) (T : Word) (e : Entry) : Frame s (s.fireEvent T e) := by
  unfold State.fireEvent
  split
  · split
    · exact (frame_items ..).trans ((frame_lineAssert ..).trans (frame_rearm ..))
    · exact (frame_items ..).trans (frame_lineAssert ..)
  · split
    · exact (frame_items ..).trans ((frame_lineClear ..).trans (frame_rearm ..))
    · exact (frame_items ..).trans (frame_lineClear ..)
  · exact (frame_items ..).trans (frame_emit ..)

theorem frame_drainStep (s : State) (T : Word) : Frame s (s.drainStep T) := by
  unfold State.drainStep
  split
  · exact (frame_items ..).trans (frame_emit ..)
  · split
    · exact frame_raiseFault ..
    · exact frame_fireEvent ..

@[simp] theorem fireEvent_mem (s : State) (T : Word) (e : Entry) : (s.fireEvent T e).mem = s.mem := by
  unfold State.fireEvent
  split
  · split <;> simp
  · split <;> simp
  · rfl

@[simp] theorem drainStep_mem (s : State) (T : Word) : (s.drainStep T).mem = s.mem := by
  unfold State.drainStep
  split
  · rfl
  · split
    · rfl
    · exact fireEvent_mem ..

@[simp] theorem fireEvent_memReads (s : State) (T : Word) (e : Entry) :
    (s.fireEvent T e).memReads = s.memReads := by
  unfold State.fireEvent
  split
  · split <;> simp
  · split <;> simp
  · rfl

@[simp] theorem drainStep_memReads (s : State) (T : Word) : (s.drainStep T).memReads = s.memReads := by
  unfold State.drainStep
  split
  · rfl
  · split
    · rfl
    · exact fireEvent_memReads ..

/-! ## What a step does -/

theorem instrOf_wf {h : HeaderWord} {ops : List Word} {i : Instr} (hi : instrOf h ops = some i) : i.wf = true := by
  unfold instrOf at hi
  split at hi <;> first
    | (obtain rfl := Option.some.inj hi; rfl)
    | (obtain rfl := Option.some.inj hi
       simp only [Instr.wf, timeOperand]
       have h1 := (ops.getD 0 0).isLt
       have h2 := BitVec.le_toInt (ops.getD 0 0)
       have h3 := BitVec.toInt_lt (x := ops.getD 0 0)
       have h4 := BitVec.le_toInt (ops.getD 1 0)
       have h5 := BitVec.toInt_lt (x := ops.getD 1 0)
       split <;> simp only [inU64, inS64, Bool.and_eq_true, decide_eq_true_eq] <;> omega)
    | simp at hi

/-- Every command the decoder gives is well formed (R83). -/
theorem decode_wf {p rest : Port} {i : Instr} (h : decode p = .command i rest) : i.wf = true := by
  unfold decode at h
  split at h
  · simp at h
  split at h
  · simp at h
  split at h
  · simp at h
  split at h
  · simp at h
  split at h
  · simp at h
  · next hi =>
    obtain ⟨rfl, -⟩ := by simpa using h
    exact instrOf_wf hi

/-- `s'` is `s` with a command taken from its port. -/
def TakenFrom (s s' : State) : Prop := s' = { s with hostPort := s'.hostPort, clientPort := s'.clientPort }

theorem takeFromHost_taken {s s' : State} :
    (∀ i, s.takeFromHost = .command i s' → TakenFrom s s' ∧ i.wf = true) ∧
    (∀ opc, s.takeFromHost = .badFields opc s' → TakenFrom s s') ∧
    (∀ w, s.takeFromHost = .unknown w s' → TakenFrom s s') ∧
    (∀ op, s.takeFromHost ≠ .serve op) ∧ ∀ T, s.takeFromHost ≠ .drain T := by
  unfold State.takeFromHost
  split
  · next i rest hd =>
    refine ⟨?_, by simp, by simp, by simp, by simp⟩
    rintro j h
    obtain ⟨rfl, rfl⟩ := by simpa using h
    exact ⟨rfl, decode_wf hd⟩
  · refine ⟨by simp, ?_, by simp, by simp, by simp⟩
    rintro j h
    obtain ⟨rfl, rfl⟩ := by simpa using h
    rfl
  · refine ⟨by simp, by simp, ?_, by simp, by simp⟩
    rintro j h
    obtain ⟨rfl, rfl⟩ := by simpa using h
    rfl
  · simp

theorem takeFromClient_taken {s s' : State} :
    (∀ i, s.takeFromClient = .command i s' → TakenFrom s s' ∧ i.wf = true) ∧
    (∀ opc, s.takeFromClient = .badFields opc s' → TakenFrom s s') ∧
    (∀ w, s.takeFromClient = .unknown w s' → TakenFrom s s') ∧
    (∀ op, s.takeFromClient ≠ .serve op) ∧ ∀ T, s.takeFromClient ≠ .drain T := by
  unfold State.takeFromClient
  split
  · next i rest hd =>
    refine ⟨?_, by simp, by simp, by simp, by simp⟩
    rintro j h
    obtain ⟨rfl, rfl⟩ := by simpa using h
    exact ⟨rfl, decode_wf hd⟩
  · refine ⟨by simp, ?_, by simp, by simp, by simp⟩
    rintro j h
    obtain ⟨rfl, rfl⟩ := by simpa using h
    rfl
  · refine ⟨by simp, by simp, ?_, by simp, by simp⟩
    rintro j h
    obtain ⟨rfl, rfl⟩ := by simpa using h
    rfl
  · simp

theorem takeFromEither_eq (s : State) :
    s.takeFromEither = s.takeFromClient ∨ s.takeFromEither = s.takeFromHost := by
  unfold State.takeFromEither
  split
  · exact .inr rfl
  · exact .inl rfl

theorem takeCommand_cases (s : State) :
    (∃ T, s.items.phase = .draining T ∧ s.items.fault = 0 ∧ s.takeCommand = .drain T) ∨
      s.takeCommand = s.takeFromHost ∨ s.takeCommand = s.takeFromClient := by
  unfold State.takeCommand
  split
  · exact .inr (.inl rfl)
  · next T hp =>
    split
    · next hf => exact .inl ⟨T, hp, hf, rfl⟩
    · exact .inr (.inl rfl)
  · split
    · exact .inr (.inr rfl)
    · exact .inr (takeFromEither_eq s).symm

/-- Where nothing can move there is no next state. -/
theorem standStill_ne_next (s t : State) : s.standStill ≠ .next t := by
  unfold State.standStill
  repeat' split
  all_goals simp

/-- Without a host operation asked for in IDLE, standing still is the wait for a command. -/
theorem standStill_of_held {s : State} (h : s.hostOp = none ∨ s.items.phase ≠ .idle) :
    s.standStill = .fault .awaitingCommand := by
  unfold State.standStill
  cases ho : s.hostOp with
  | none => rfl
  | some op => simp [h.resolve_left (by simp [ho])]

/-- Beside a host operation that is refused in IDLE, standing still is its refusal. -/
theorem standStill_of_refused {s : State} {op : HostOp} {r : Refusal} (hp : s.items.phase = .idle)
    (ho : s.hostOp = some op) (hr : s.hostOpRefusal op = some r) : s.standStill = .refused r := by
  simp [State.standStill, ho, hp, hr]

/-- What receiving an offer can do: nothing where both sides are silent, else only the two ports and the count of
offers change. -/
theorem receiveOffer_cases (s : State) (words : List PortWord × List PortWord) :
    (words = ([], []) ∧ s.receiveOffer words = s.standStill) ∨
    (words ≠ ([], []) ∧ s.receiveOffer words = .next { s with
      hostPort := s.hostPort.offer words.1, clientPort := s.clientPort.offer words.2, offers := s.offers + 1 }) := by
  obtain ⟨hw, cw⟩ := words
  unfold State.receiveOffer
  by_cases h : hw = [] ∧ cw = [] <;> simp [h]

/-- Which action comes next: a host operation asked for in IDLE that is not refused, else what the phase gives. -/
theorem nextAction_cases (s : State) :
    (∃ op, s.hostOp = some op ∧ s.items.phase = .idle ∧ s.hostOpRefusal op = none ∧ s.nextAction = .serve op) ∨
    ((s.items.phase = .idle → ∀ op, s.hostOp = some op → s.hostOpRefusal op ≠ none) ∧
      s.nextAction = s.takeCommand) := by
  unfold State.nextAction
  cases ho : s.hostOp with
  | none => simp
  | some op => by_cases h : s.items.phase = .idle ∧ s.hostOpRefusal op = none <;> simp_all

/-- With no host operation asked for, or in another phase than IDLE, the phase gives the next action. -/
theorem nextAction_of_held {s : State} (h : s.hostOp = none ∨ s.items.phase ≠ .idle) :
    s.nextAction = s.takeCommand := by
  rcases nextAction_cases s with ⟨op, ho, hp, -⟩ | ⟨-, hn⟩
  · simp [ho, hp] at h
  · exact hn

/-- What is taken from the port is never a host operation. -/
theorem takeCommand_ne_serve (s : State) (op : HostOp) : s.takeCommand ≠ .serve op := by
  rcases takeCommand_cases s with ⟨T, -, -, h⟩ | h | h <;> rw [h]
  · simp
  · exact (takeFromHost_taken (s' := s)).2.2.2.1 op
  · exact (takeFromClient_taken (s' := s)).2.2.2.1 op

/-- With no host operation asked for, or in another phase than IDLE, none is served. -/
theorem not_served_of_held {s : State} (h : s.hostOp = none ∨ s.items.phase ≠ .idle) (op : HostOp) :
    s.nextAction ≠ .serve op := by
  rw [nextAction_of_held h]
  exact takeCommand_ne_serve s op

/-- A host operation that is refused is not served, and neither is any other. -/
theorem not_served_of_refused {s : State} {op : HostOp} {r : Refusal} (ho : s.hostOp = some op)
    (hr : s.hostOpRefusal op = some r) (op' : HostOp) : s.nextAction ≠ .serve op' := by
  rcases nextAction_cases s with ⟨x, hx, -, h, -⟩ | ⟨-, h⟩
  · obtain rfl := Option.some.inj (ho.symm.trans hx)
    simp [hr] at h
  · rw [h]
    exact takeCommand_ne_serve s op'

/-- Where no host operation is served the phase gives the next action. -/
theorem nextAction_of_not_served {s : State} (h : ∀ op, s.nextAction ≠ .serve op) : s.nextAction = s.takeCommand := by
  rcases nextAction_cases s with ⟨op, -, -, -, hn⟩ | ⟨-, hn⟩
  · exact absurd hn (h op)
  · exact hn

/-- What serving a host operation can do: a SNAPSHOT puts the tuple of the items into the history; a RESTORE that is not
refused replaces them. -/
theorem serveHostOp_cases {s t : State} {op : HostOp} (h : s.serveHostOp op = .next t) :
    (op = .snapshot ∧ t = { s with hostOp := none, history := s.history ++ [.snapshot s.items] }) ∨
    ∃ x, op = .restore x ∧ s.items.fault = 0 ∧ x.meetsR34 s.cfg = true ∧ x.isTuple = true ∧
      t = { s with hostOp := none, items := x } := by
  cases op with
  | snapshot => exact .inl ⟨rfl, (Host.Outcome.next.inj h).symm⟩
  | restore x =>
    right
    simp only [State.serveHostOp, State.restoreItems, State.restoreRefusal] at h
    split at h
    · next hr =>
      split at hr
      · simp at hr
      · next hf =>
        split at hr
        · next hx =>
          simp only [Bool.and_eq_true] at hx
          exact ⟨x, rfl, by simpa using hf, hx.1, hx.2, (Host.Outcome.next.inj h).symm⟩
        · simp at hr
    · simp at h

/-- What a step that answers a next state has done: served a host operation in IDLE, taken a drain step, run a
well-formed command taken from the port, rejected a header, or received an offer of the environment while it waited.
The action it took stands beside what it did. -/
theorem stepWith_cases {offer : Nat → List PortWord × List PortWord} {s t : State} (h : stepWith offer s = .next t) :
    (∃ op, s.nextAction = .serve op ∧ s.hostOp = some op ∧ s.items.phase = .idle ∧ s.serveHostOp op = .next t) ∨
    (∃ T, s.items.phase = .draining T ∧ s.items.fault = 0 ∧ t = s.drainStep T) ∨
    (∃ i s', s.nextAction = .command i s' ∧ TakenFrom s s' ∧ i.wf = true ∧ exec i s' = .next t) ∨
    (∃ opc s', TakenFrom s s' ∧ t = s'.rejectFields opc) ∨
    (∃ w s', TakenFrom s s' ∧ t = s'.rejectUnknown w) ∨
    ∃ hp cp, t = { s with hostPort := hp, clientPort := cp, offers := s.offers + 1 } := by
  unfold stepWith at h
  rcases nextAction_cases s with ⟨op, ho, hp, -, hk⟩ | ⟨-, hk⟩
  · rw [hk] at h
    exact .inl ⟨op, hk, ho, hp, h⟩
  rw [hk] at h
  rcases takeCommand_cases s with ⟨T, hp, hf, hT⟩ | hT
  · rw [hT] at h
    exact .inr (.inl ⟨T, hp, hf, (Host.Outcome.next.inj h).symm⟩)
  · have facts : ∀ a, s.takeCommand = a →
        (∀ i s', a = .command i s' → TakenFrom s s' ∧ i.wf = true) ∧
        (∀ opc s', a = .badFields opc s' → TakenFrom s s') ∧ (∀ w s', a = .unknown w s' → TakenFrom s s') ∧
        (∀ op, a ≠ .serve op) ∧ ∀ T, a ≠ .drain T := by
      rintro a rfl
      rcases hT with hT | hT <;> rw [hT]
      · exact ⟨fun i s' h => takeFromHost_taken.1 i h, fun o s' h => takeFromHost_taken.2.1 o h,
          fun w s' h => takeFromHost_taken.2.2.1 w h, (takeFromHost_taken (s' := s)).2.2.2.1,
          (takeFromHost_taken (s' := s)).2.2.2.2⟩
      · exact ⟨fun i s' h => takeFromClient_taken.1 i h, fun o s' h => takeFromClient_taken.2.1 o h,
          fun w s' h => takeFromClient_taken.2.2.1 w h, (takeFromClient_taken (s' := s)).2.2.2.1,
          (takeFromClient_taken (s' := s)).2.2.2.2⟩
    obtain ⟨f1, f2, f3, f4, f5⟩ := facts _ rfl
    cases ha : s.takeCommand with
    | serve op => exact absurd ha (f4 op)
    | drain T => exact absurd ha (f5 T)
    | command i s' =>
      rw [ha] at h
      exact .inr (.inr (.inl ⟨i, s', hk.trans ha, (f1 i s' ha).1, (f1 i s' ha).2, h⟩))
    | badFields opc s' =>
      rw [ha] at h
      exact .inr (.inr (.inr (.inl ⟨opc, s', f2 opc s' ha, (Host.Outcome.next.inj h).symm⟩)))
    | unknown w s' =>
      rw [ha] at h
      exact .inr (.inr (.inr (.inr (.inl ⟨w, s', f3 w s' ha, (Host.Outcome.next.inj h).symm⟩))))
    | wait =>
      rw [ha] at h
      obtain ⟨-, hr⟩ | ⟨-, hr⟩ := receiveOffer_cases s (offer s.offers)
      · exact absurd (hr.symm.trans h) (standStill_ne_next s t)
      · exact .inr (.inr (.inr (.inr (.inr ⟨_, _, Host.Outcome.next.inj (h.symm.trans hr)⟩))))

/-- `stepWith_cases` for the machine's own step. -/
theorem step_cases {s t : State} (h : step s = .next t) :
    (∃ op, s.nextAction = .serve op ∧ s.hostOp = some op ∧ s.items.phase = .idle ∧ s.serveHostOp op = .next t) ∨
    (∃ T, s.items.phase = .draining T ∧ s.items.fault = 0 ∧ t = s.drainStep T) ∨
    (∃ i s', s.nextAction = .command i s' ∧ TakenFrom s s' ∧ i.wf = true ∧ exec i s' = .next t) ∨
    (∃ opc s', TakenFrom s s' ∧ t = s'.rejectFields opc) ∨
    (∃ w s', TakenFrom s s' ∧ t = s'.rejectUnknown w) ∨
    ∃ hp cp, t = { s with hostPort := hp, clientPort := cp, offers := s.offers + 1 } := stepWith_cases h

/-- In a drain of an unfaulted TIA the step is the drain step, whatever is offered (R33, R106). -/
theorem stepWith_of_draining (offer : Nat → List PortWord × List PortWord) {s : State} {T : Word}
    (hp : s.items.phase = .draining T) (hf : s.items.fault = 0) : stepWith offer s = .next (s.drainStep T) := by
  have : s.nextAction = .drain T := by
    rw [nextAction_of_held (.inr (by simp [hp])), State.takeCommand]
    simp [hp, hf]
  simp [stepWith, this]

/-- `stepWith_of_draining` for the machine's own step. -/
theorem step_of_draining {s : State} {T : Word} (hp : s.items.phase = .draining T) (hf : s.items.fault = 0) :
    step s = .next (s.drainStep T) := stepWith_of_draining _ hp hf

theorem rejectFields_items (s : State) (opc : Byte) :
    (s.rejectFields opc).items = s.items ∨ (s.items.fault = 0 ∧ (s.rejectFields opc).items =
      { s.items with diagCount := s.items.diagCount + 1, lastDiag := diagCode .reservedField }) := by
  unfold State.rejectFields State.unlessFaulted
  split
  · next hf => right; split <;> exact ⟨hf, rfl⟩
  · exact .inl rfl

theorem rejectUnknown_items (s : State) (w : HeaderWord) :
    (s.rejectUnknown w).items = s.items ∨ (s.items.fault = 0 ∧ (s.rejectUnknown w).items =
      { s.items with diagCount := s.items.diagCount + 1, lastDiag := diagCode .unknownOpcode }) := by
  unfold State.rejectUnknown State.unlessFaulted
  split
  · next hf => exact .inr ⟨hf, rfl⟩
  · exact .inl rfl

theorem frame_rejectFields (s : State) (opc : Byte) : Frame s (s.rejectFields opc) := by
  refine frame_unlessFaulted fun _ => ?_
  split
  · exact (frame_recordDiag ..).trans (frame_respond ..)
  · exact frame_recordDiag ..

theorem frame_rejectUnknown (s : State) (w : HeaderWord) : Frame s (s.rejectUnknown w) :=
  frame_unlessFaulted fun _ => frame_recordDiag ..

@[simp] theorem rejectFields_mem (s : State) (opc : Byte) : (s.rejectFields opc).mem = s.mem := by
  unfold State.rejectFields State.unlessFaulted
  split
  · split <;> rfl
  · rfl

@[simp] theorem rejectUnknown_mem (s : State) (w : HeaderWord) : (s.rejectUnknown w).mem = s.mem := by
  unfold State.rejectUnknown State.unlessFaulted
  split <;> rfl

end Sys2Proof.Machine
end

