-- ==== Sys2Proof/Laws/PerInstr.lean ====
section
/-! SUPPORT. Facts about every command as syntax, one lemma per constructor of Instr. -/
namespace Sys2Proof.Laws.HeaderKeepsItsRow

open Sys2Proof

/-- The header of `i` carries its opcode, the opcode map has a row for it, that row counts its operands, and
the header keeps R71 for that row. -/
def Statement (i : Instr) : Prop :=
  headerOpc i.header = i.opcode ∧
    ∃ row, opcodeRow i.opcode = some row ∧ row.operands = i.operands.length ∧ brokenFields row i.header = false

theorem nop : Statement .nop := ⟨headerOpc_mkHeader .., _, rfl, rfl, brokenFields_plain ..⟩
theorem status : Statement .status := ⟨headerOpc_mkHeader .., _, rfl, rfl, brokenFields_plain ..⟩
theorem sched (absolute : Bool) (t : Int) (recurring : Bool) (p : Int) (y : Word) :
    Statement (.sched absolute t recurring p y) :=
  ⟨headerOpc_mkHeader .., _, rfl, rfl, brokenFields_sched ..⟩
theorem cancel (h : Word) : Statement (.cancel h) := ⟨headerOpc_mkHeader .., _, rfl, rfl, brokenFields_plain ..⟩
theorem advance (t : Word) : Statement (.advance t) := ⟨headerOpc_mkHeader .., _, rfl, rfl, brokenFields_plain ..⟩
theorem cbdone : Statement .cbdone := ⟨headerOpc_mkHeader .., _, rfl, rfl, brokenFields_plain ..⟩
theorem rdnow : Statement .rdnow := ⟨headerOpc_mkHeader .., _, rfl, rfl, brokenFields_plain ..⟩
theorem query (h : Word) : Statement (.query h) := ⟨headerOpc_mkHeader .., _, rfl, rfl, brokenFields_plain ..⟩
theorem rdscan : Statement .rdscan := ⟨headerOpc_mkHeader .., _, rfl, rfl, brokenFields_plain ..⟩
theorem irqSet (c l : Byte) : Statement (.irqSet c l) :=
  ⟨headerOpc_mkHeader .., _, rfl, rfl, brokenFields_cpuLine ..⟩
theorem irqClr (c l : Byte) : Statement (.irqClr c l) :=
  ⟨headerOpc_mkHeader .., _, rfl, rfl, brokenFields_cpuLine ..⟩
theorem irqPer (c l : Byte) (s : Word) : Statement (.irqPer c l s) :=
  ⟨headerOpc_mkHeader .., _, rfl, rfl, brokenFields_cpuLine ..⟩
theorem irqRd (c l : Byte) : Statement (.irqRd c l) :=
  ⟨headerOpc_mkHeader .., _, rfl, rfl, brokenFields_cpuLine ..⟩
theorem arbEn (e : Bool) : Statement (.arbEn e) := ⟨headerOpc_mkHeader .., _, rfl, rfl, by cases e <;> rfl⟩
theorem arbRst : Statement .arbRst := ⟨headerOpc_mkHeader .., _, rfl, rfl, brokenFields_plain ..⟩
theorem arbBa (b : Bool) : Statement (.arbBa b) := ⟨headerOpc_mkHeader .., _, rfl, rfl, by cases b <;> rfl⟩
theorem arbRd (c : Byte) (a : Word) : Statement (.arbRd c a) :=
  ⟨headerOpc_mkHeader .., _, rfl, rfl, brokenFields_cpu ..⟩
theorem arbWr (c : Byte) (a d : Word) : Statement (.arbWr c a d) :=
  ⟨headerOpc_mkHeader .., _, rfl, rfl, brokenFields_cpu ..⟩
theorem arbRds : Statement .arbRds := ⟨headerOpc_mkHeader .., _, rfl, rfl, brokenFields_plain ..⟩

end Sys2Proof.Laws.HeaderKeepsItsRow
end

