-- ==== Sys2Proof/Tests/Slice0.lean ====
section
/-! SUPPORT. The model's own tests. Expected values come from spec/: the words from 30_encoding.md R82 and R66,
the effects from 95_test_vectors.md (each test names its vector), the refused terms from R83. The witness
theorems show states and operands that meet the hypotheses of the statements of Obligations.lean. -/
namespace Sys2Proof.Tests
open Sys2Proof.Machine

/-! ## WellFormed refuses an ill-formed term for each of its checks (R83) -/

theorem test_wf_delay_too_large : (Instr.sched false (2 ^ 63) false 0 1).wf = false := by decide
theorem test_wf_delay_too_small : (Instr.sched false (-2 ^ 63 - 1) false 0 1).wf = false := by decide
theorem test_wf_absolute_negative : (Instr.sched true (-1) false 0 1).wf = false := by decide
theorem test_wf_absolute_too_large : (Instr.sched true (2 ^ 64) false 0 1).wf = false := by decide
theorem test_wf_period_too_large : (Instr.sched true 0 true (2 ^ 63) 1).wf = false := by decide
theorem test_wf_period_too_small : (Instr.sched true 0 true (-2 ^ 63 - 1) 1).wf = false := by decide
theorem test_wf_admits_the_bounds : (Instr.sched true (2 ^ 64 - 1) true (-2 ^ 63) 1).wf = true ∧
    (Instr.sched false (-2 ^ 63) true (2 ^ 63 - 1) 1).wf = true := by decide

/-! ## Decoding: the words of R82 and 95_test_vectors.md, written out -/

/-- The words of a command, delivered whole. -/
def port (h : HeaderWord) (ops : List Word) : Port := .wordWide (.w32 h :: ops.map .w64)

theorem test_decode_nop : decode (port 0x00000000 []) = .command .nop (.wordWide []) := by decide
theorem test_decode_status : decode (port 0x01000000 []) = .command .status (.wordWide []) := by decide
theorem test_decode_sched_rel : decode (port 0x10000000 [0xA, 0, 7]) =
    .command (.sched false 10 false 0 7) (.wordWide []) := by decide
theorem test_decode_sched_negative : decode (port 0x10000001 [0xFFFFFFFFFFFFFFFD, 0xFFFFFFFFFFFFFFFB, 1]) =
    .command (.sched false (-3) true (-5) 1) (.wordWide []) := by decide
theorem test_decode_sched_abs : decode (port 0x10000003 [0xFFFFFFFFFFFFFFF0, 0x20, 1]) =
    .command (.sched true 0xFFFFFFFFFFFFFFF0 true 32 1) (.wordWide []) := by decide
theorem test_decode_cancel : decode (port 0x11000000 [3]) = .command (.cancel 3) (.wordWide []) := by decide
theorem test_decode_advance : decode (port 0x12000000 [0x104]) = .command (.advance 260) (.wordWide []) := by decide
theorem test_decode_cbdone : decode (port 0x13000000 []) = .command .cbdone (.wordWide []) := by decide
theorem test_decode_rdnow : decode (port 0x14000000 []) = .command .rdnow (.wordWide []) := by decide
theorem test_decode_query : decode (port 0x15000000 [1]) = .command (.query 1) (.wordWide []) := by decide
theorem test_decode_rdscan : decode (port 0x16000000 []) = .command .rdscan (.wordWide []) := by decide
theorem test_decode_irqSet : decode (port 0x20000100 []) = .command (.irqSet 0 1) (.wordWide []) := by decide
theorem test_decode_irqClr : decode (port 0x21010000 []) = .command (.irqClr 1 0) (.wordWide []) := by decide
theorem test_decode_irqPer : decode (port 0x22010100 [0x40]) = .command (.irqPer 1 1 64) (.wordWide []) := by decide
theorem test_decode_irqRd : decode (port 0x23000200 []) = .command (.irqRd 0 2) (.wordWide []) := by decide
theorem test_decode_arbEn : decode (port 0x30000004 []) = .command (.arbEn true) (.wordWide []) ∧
    decode (port 0x30000000 []) = .command (.arbEn false) (.wordWide []) := by decide
theorem test_decode_arbRst : decode (port 0x31000000 []) = .command .arbRst (.wordWide []) := by decide
theorem test_decode_arbBa : decode (port 0x32000008 []) = .command (.arbBa true) (.wordWide []) ∧
    decode (port 0x32000000 []) = .command (.arbBa false) (.wordWide []) := by decide
theorem test_decode_arbRd : decode (port 0x33010000 [0x1234]) = .command (.arbRd 1 0x1234) (.wordWide []) := by decide
theorem test_decode_arbWr : decode (port 0x34000000 [0x1234, 0x5A]) =
    .command (.arbWr 0 0x1234 0x5A) (.wordWide []) := by decide
theorem test_decode_arbRds : decode (port 0x35000000 []) = .command .arbRds (.wordWide []) := by decide

/-- Bytes go least significant first (R55): SCHED rel, -3, once, 1. -/
theorem test_decode_bytes : decode (.byteWide [0x00, 0x00, 0x00, 0x10,
      0xFD, 0xFF, 0xFF, 0xFF, 0xFF, 0xFF, 0xFF, 0xFF, 0, 0, 0, 0, 0, 0, 0, 0, 1, 0, 0, 0, 0, 0, 0, 0, 0x35]) =
    .command (.sched false (-3) false 0 1) (.byteWide [0x35]) := by decide
/-- The words the encoder writes are those of R82. -/
theorem test_encode_words : encode (.sched true 100 true 50 9) = [.w32 0x10000003, .w64 0x64, .w64 0x32, .w64 9] ∧
    encode (.irqSet 0 1) = [.w32 0x20000100] ∧ encode (.arbWr 0 0x1234 0x5A) = [.w32 0x34000000, .w64 0x1234, .w64 0x5A] ∧
    encode (.arbBa true) = [.w32 0x32000008] := by decide
/-- R73, BLK-4: an unassigned opcode, the custom space included, is one word. -/
theorem test_decode_unknown : decode (port 0xE0000000 [5]) = .unknown 0xE0000000 (.wordWide [.w64 5]) ∧
    decode (port 0x02000000 []) = .unknown 0x02000000 (.wordWide []) := by decide
/-- R72, ARB-8, TMR-5, ILC-10: a non-zero field the opcode does not use, with the command's full length. -/
theorem test_decode_reserved : decode (port 0x3000000C []) = .badFields 0x30 1 (.wordWide []) ∧
    decode (port 0x31000100 []) = .badFields 0x31 1 (.wordWide []) ∧
    decode (port 0x10000010 [0xA, 0, 1]) = .badFields 0x10 4 (.wordWide []) ∧
    decode (port 0x23000010 []) = .badFields 0x23 1 (.wordWide []) := by decide
/-- R56: a partial command is no command. -/
theorem test_decode_partial : decode (.byteWide [0, 0, 0]) = .incomplete ∧
    decode (port 0x11000000 []) = .incomplete := by decide
/-- R216: out of step on a word-wide transport, a 64-bit word is read as a header by its low 32 bits. -/
theorem test_decode_low_half : decode (.wordWide [.w64 0x1234567813000000]) = .command .cbdone (.wordWide []) := by decide
/-- The table's numbering: SCHED abs, 100, every 50, 9, its four words from bit 0 up. -/
theorem test_decode_table_word : decodeTableWord 224
    (0x10000003 + 0x64 * 2 ^ 32 + 0x32 * 2 ^ 96 + 9 * 2 ^ 160) = some (.sched true 100 true 50 9) := by decide
/-- R80, R81: the assembler's spelling and a pseudo-instruction. -/
theorem test_asm : (Instr.irqPer 0 0 64).asm = "IRQ.PER PRI, IRQ, 64" ∧
    (Instr.sched true 100 true 50 9).asm = "SCHED abs, 100, every 50, 9" ∧
    pseudoEvery 50 9 = [.sched false 50 true 50 9] := by decide

/-! ## One step of each command, on small states -/

/-- The vectors' constants (L = 100, N = 262, H = 80), QUEUE_CAPACITY unbounded. -/
def cfg : Params := ⟨100, 262, 80, 0x4000, none⟩
/-- A configuration at its bounds: L = 2, N = 1, H = 1, QUEUE_CAPACITY = 2. -/
def tight : Params := ⟨2, 1, 1, 0xFFFF, some 2⟩
/-- Power-on (PO). -/
def po : State := State.initial cfg
/-- Power-on of the tight configuration. -/
def poTight : State := State.initial tight
/-- PO with a queue, a time and a phase, two handles and seqs used. -/
def busy (now : Word) (ph : Phase) (q : List Entry) : State :=
  { po with items := { po.items with now := now, phase := ph, queue := q, nextHandle := 3, nextSeq := 2 } }
/-- PO in the callback of `e` in an ADVANCE to `T`. -/
def calling (T : Word) (e : Entry) (live : Bool) (q : List Entry) : State :=
  { po with items := { po.items with
      now := e.fireTime, phase := .callback T, cur := some ⟨e, live⟩, queue := q, nextHandle := 3, nextSeq := 2 } }
/-- PO with a fault set. -/
def broken (ph : Phase) : State := { po with items := { po.items with fault := 1, phase := ph } }
/-- The outcome is a next state with the property `f`. -/
def gives (o : Result) (f : State → Bool) : Bool :=
  match o with
  | .next t => f t
  | .fault _ => false
  | .refused _ => false
/-- What an outcome appended to PO's history. -/
def sent (o : Result) (ms : List Msg) : Bool := gives o fun t => decide (t.history = po.history ++ ms)

/-- A one-shot event and a recurring one. -/
def once1 : Entry := ⟨1, 10, .ext 7, false, 0, 0⟩
def every2 : Entry := ⟨2, 10, .ext 8, true, 10, 1⟩

theorem test_nop : gives (exec .nop po) (fun t => decide (t = po)) = true := by decide
/-- BLK-1. -/
theorem test_status : sent (exec .status po) [.resp 0, .resp 0, .resp 0, .resp 0] = true := by decide
/-- TMR-10: after F_REENTRANT in CALLBACK(10). -/
theorem test_status_faulted : sent (exec .status { po with items := { po.items with fault := 5, phase := .callback 10 } })
    [.resp 0x205, .resp 0, .resp 0, .resp 10] = true := by decide
/-- TMR-1. -/
theorem test_sched : gives (exec (.sched false 10 false 0 7) po) (fun t =>
    decide (t.items.queue = [⟨1, 10, .ext 7, false, 0, 0⟩] ∧ t.items.nextHandle = 2 ∧ t.items.nextSeq = 1 ∧
      t.respPort = [1])) = true := by decide
/-- TMR-2: a negative delay is clamped to `now`. -/
theorem test_sched_clamps : gives (exec (.sched false (-3) false 0 1) (busy 100 .idle [])) (fun t =>
    decide (t.items.queue = [⟨3, 100, .ext 1, false, 0, 2⟩])) = true := by decide
/-- TMR-8. -/
theorem test_cancel : gives (exec (.cancel 1) (busy 0 .idle [once1, every2])) (fun t =>
    decide (t.items.queue = [every2] ∧ t.items.diagCount = 0)) = true := by decide
/-- TMR-12: a recurring event's own callback cancels it. -/
theorem test_cancel_in_callback : gives (exec (.cancel 2) (calling 100 every2 true [])) (fun t =>
    decide (t.items.cur = some ⟨every2, false⟩ ∧ t.items.diagCount = 0)) = true := by decide
/-- TMR-9. -/
theorem test_advance_backward : sent (exec (.advance 50) (busy 100 .idle [])) [.diag 0x04 0x12] = true := by decide
theorem test_advance : gives (exec (.advance 260) po) (fun t => decide (t.items.phase = .draining 260)) = true := by decide
/-- TMR-13: the re-armed event takes a fresh seq. -/
theorem test_cbdone : gives (exec .cbdone (calling 20 every2 true [⟨1, 20, .ext 7, false, 0, 0⟩])) (fun t =>
    decide (t.items.queue = [⟨1, 20, .ext 7, false, 0, 0⟩, ⟨2, 20, .ext 8, true, 10, 2⟩] ∧ t.items.cur = none ∧
      t.items.phase = .draining 20)) = true := by decide
/-- TMR-14. -/
theorem test_cbdone_idle : sent (exec .cbdone po) [.diag 0x06 0x13] = true := by decide
/-- TMR-16. -/
theorem test_rdnow : sent (exec .rdnow (busy 26300 .idle [])) [.resp 26300] = true := by decide
/-- TMR-15: in the callback, valid, recurring and firing are set. -/
theorem test_query_firing : sent (exec (.query 2) (calling 10 every2 true [])) [.resp 7, .resp 10, .resp 10, .resp 8] =
    true := by decide
/-- ILC-9. -/
theorem test_query_internal : sent (exec (.query 1) (busy 0 .idle [⟨1, 6400, .irqAssert 1 1, true, 26200, 0⟩]))
    [.resp 0x103, .resp 6400, .resp 26200, .resp 0x101] = true := by decide
/-- TMR-16. -/
theorem test_rdscan : sent (exec .rdscan (busy 26300 .idle [])) [.resp 1, .resp 262, .resp 80] = true := by decide
/-- A configuration that R7 admits and no 64-bit word holds: a scanline of 2^64 ticks, so `now` is in scanline 0. -/
theorem test_rdscan_wide : gives (exec .rdscan (State.initial ⟨2 ^ 64, 2 ^ 64, 1, 0, none⟩)) (fun t =>
    decide ((t.respPort.take 1, t.respPort.drop 2, t.respPort.length) = ([0], [1], 3))) = true := by decide
/-- ILC-1. -/
theorem test_irqSet : gives (exec (.irqSet 0 1) po) (fun t => decide (t.items.line 0 1 = true ∧
    t.items.line 1 0 = false ∧ t.history = po.history ++ [.cpu (.assertLine 0 1) 0])) = true := by decide
/-- ILC-3. -/
theorem test_irqSet_bad : sent (exec (.irqSet 2 0) po) [.fault 0x02 0x20] = true := by decide
/-- ILC-1: clearing a clear line sends nothing. -/
theorem test_irqClr_coalesces : sent (exec (.irqClr 0 1) po) [] = true := by decide
theorem test_irqClr : sent (exec (.irqClr 1 0) (po.setLine 1 0 true)) [.cpu (.clearLine 1 0) 0] = true := by decide
/-- EX-7. -/
theorem test_irqPer : gives (exec (.irqPer 0 0 64) po) (fun t => decide (t.items.queue =
    [⟨1, 6400, .irqAssert 0 0, true, 26200, 0⟩, ⟨2, 6480, .irqClear 0 0, true, 26200, 1⟩] ∧
    t.respPort = [1, 2])) = true := by decide
/-- ILC-7: in the active portion, the pulse starts one frame later. -/
theorem test_irqPer_next_frame : gives (exec (.irqPer 0 0 64) (busy 6450 .idle [])) (fun t =>
    decide (t.items.queue.map (·.fireTime) = [32600, 32680])) = true := by decide
/-- ILC-1. -/
theorem test_irqRd : sent (exec (.irqRd 0 1) (po.setLine 0 1 true)) [.resp 1] = true := by decide
/-- EX-6. -/
theorem test_arbEn : sent (exec (.arbEn true) po)
    [.cpu (.setProgramCounter 1 0x4000) 0, .cpu (.halt 0) 0, .cpu (.run 1) 0] = true := by decide
/-- ARB-2. -/
theorem test_arbEn_off : sent (exec (.arbEn false) po) [.cpu (.halt 1) 0, .cpu (.run 0) 0] = true := by decide
/-- ARB-3. -/
theorem test_arbRst : gives (exec .arbRst po) (fun t => decide (t.items = po.items ∧
    t.history = po.history ++ [.cpu (.halt 1) 0, .cpu (.run 0) 0])) = true := by decide
/-- ARB-4. -/
theorem test_arbBa : gives (exec (.arbBa true) po) (fun t => decide (t.items.ba = true ∧ t.history = po.history)) =
    true := by decide
/-- ARB-5. -/
theorem test_arbRd_halted : sent (exec (.arbRd 1 0x1234) po) [.diag 0x05 0x33, .resp 0xFF] = true := by decide
/-- ARB-6. -/
theorem test_arbRd_reserved : sent (exec (.arbRd 0 0x10000) po) [.diag 0x02 0x33, .resp 0] = true := by decide
/-- ARB-5. -/
theorem test_arbWr : gives (exec (.arbWr 0 0x1234 0x5A) po) (fun t => decide (t.mem = [(0x1234, 0x5A)] ∧
    t.busRecord = [.memWrite 0x1234 0x5A])) = true := by decide
/-- ARB-6. -/
theorem test_arbWr_reserved : sent (exec (.arbWr 0 0x1234 0x100) po) [.diag 0x02 0x34] = true := by decide
/-- ARB-1. -/
theorem test_arbRds : sent (exec .arbRds po) [.resp 0x0A] = true := by decide

/-! ## One step of the machine -/

/-- TMR-1: the drain step fires the event that is due. -/
theorem test_drain_fires : gives (step (busy 0 (.draining 10) [once1])) (fun t => decide (t.firePort = [(1, 7, 10)] ∧
    t.items.queue = [] ∧ t.items.phase = .callback 10 ∧ t.items.now = 10)) = true := by decide
/-- EX-7 and ILC-5: an internal event fires and is re-armed one frame later. -/
theorem test_drain_internal : gives (step (busy 0 (.draining 30099) [⟨1, 6400, .irqAssert 0 0, true, 26200, 0⟩]))
    (fun t => decide (t.items.queue = [⟨1, 32600, .irqAssert 0 0, true, 26200, 2⟩] ∧
      t.history = po.history ++ [.cpu (.assertLine 0 0) 6400])) = true := by decide
/-- TMR-7: a re-arm time of 2^64 or more faults before the firing. -/
theorem test_drain_overflow : sent (step (busy 0 (.draining 0xFFFFFFFFFFFFFFF0)
    [⟨1, 0xFFFFFFFFFFFFFFF0, .ext 1, true, 0x20, 0⟩])) [.fault 0x04 0xFF] = true := by decide
/-- BLK-2: the first of the bytes the host sent is an unknown header; the operand's bytes stay. -/
theorem test_step_unknown : gives (step { po with
      hostPort := .byteWide [0x00, 0x00, 0x00, 0x40, 0x00, 0x00, 0x00, 0x13, 0, 0, 0, 0] }) (fun t =>
    decide (t.items.diagCount = 1 ∧ t.items.lastDiag = 1 ∧
      t.hostPort = .byteWide [0x00, 0x00, 0x00, 0x13, 0, 0, 0, 0])) = true := by decide
/-- P4 of the vectors: a faulted machine takes an ADVANCE and ignores it. -/
theorem test_step_faulted : gives (step { broken .idle with hostPort := port 0x12000000 [0x2710] }) (fun t =>
    decide (t = { broken .idle with hostPort := .wordWide [] })) = true := by decide
/-- BLK-6: RESTORE of a tuple with both CPUs halted is refused. -/
def refusing : State := { po with hostOp := some (.restore { po.items with primaryHalted := true }) }
theorem test_step_restore_refused :
    stepWith (fun _ => ([], [])) refusing = .refused .restoreBreaksInvariant := by rfl
/-- R184, BLK-5: a faulted TIA in IDLE executes a STATUS and consumes a RDNOW beside the RESTORE it refuses. -/
def faultedRefusing (h : HeaderWord) : State :=
  { broken .idle with hostOp := some (.restore po.items), hostPort := port h [] }
theorem test_status_beside_refused_restore :
    gives (step (faultedRefusing 0x01000000)) (fun t => decide (t.respPort.length = 4 ∧ t.hostPort = .wordWide [])) =
      true := by decide
theorem test_rdnow_beside_refused_restore : gives (step (faultedRefusing 0x14000000)) (fun t =>
    decide (t = { faultedRefusing 0x14000000 with hostPort := .wordWide [] })) = true := by decide
/-- A tuple in a callback whose current event is `e`. -/
def inCallback (e : Entry) (live : Bool) : Items :=
  { po.items with phase := .callback 10, now := 10, cur := some ⟨e, live⟩, nextHandle := 3, nextSeq := 2 }
/-- R34 (f), R21 and R25 bind the entry that `cur` holds: period 0 while recurring, handle 0, a handle not issued,
a one-shot event that is live, an internal event. -/
theorem test_restore_checks_cur : (inCallback every2 true).meetsR34 cfg = true ∧ (inCallback every2 true).isTuple = true ∧
    (inCallback { every2 with period := 0 } true).meetsR34 cfg = false ∧
    (inCallback { every2 with handle := 0 } true).isTuple = false ∧
    (inCallback { every2 with handle := 3 } true).meetsR34 cfg = false ∧
    (inCallback once1 true).isTuple = false ∧
    (inCallback { every2 with payload := .irqAssert 0 0 } true).isTuple = false := by decide
/-- R198: a client that offers RDNOW, and a client and a host that stay silent, while TIA waits for CBDONE. -/
theorem test_wait_offered :
    gives (stepWith (fun _ => ([], [.w32 0x14000000])) { calling 10 every2 true [] with clientPort := .wordWide [] })
      (fun t => decide (t.clientPort = .wordWide [.w32 0x14000000] ∧ t.hostPort = .byteWide [] ∧ t.offers = 1)) = true := by
  decide
theorem test_wait_silent : gives (stepWith (fun _ => ([], [])) (calling 10 every2 true [])) (fun _ => true) = false := by
  decide
/-- The first step after reset runs the command placed at the host's port. -/
theorem test_first_step : gives (step (State.reset.withFetchWord 32 0x35000000)) (fun t =>
    decide (t.respPort = [0x0A])) = true := by decide

/-! ## Witnesses: states and operands that meet the hypotheses of the statements, at the bounds of each clause -/

theorem witness_DecodeInvertsEncode : (Instr.sched true (2 ^ 64 - 1) true (-2 ^ 63) 0).wf = true := by decide
theorem witness_EachCommandHasOneEncoding :
    decode (.byteWide [0, 0, 0, 0x14, 9]) = .command .rdnow (.byteWide [9]) := by decide
theorem witness_StepRunsTheDecodedCommand :
    (po.items.phase = .idle ∧ (∀ op, po.nextAction ≠ .serve op) ∧ (∀ op, refusing.nextAction ≠ .serve op) ∧
      decode (.byteWide [0, 0, 0, 0x14]) = .command .rdnow (.byteWide [])) ∧
    ((calling 10 every2 true []).items.phase = .callback 10 ∧ (calling 10 every2 true []).items.fault = 0) ∧
    ((broken (.draining 0)).items.phase = .draining 0 ∧ (broken (.draining 0)).items.fault ≠ 0) ∧
    ((broken (.callback 0)).items.phase = .callback 0 ∧ (broken (.callback 0)).items.fault ≠ 0 ∧
      decode (broken (.callback 0)).clientPort = .incomplete) :=
  ⟨⟨rfl, not_served_of_held (.inl rfl), not_served_of_refused rfl (by decide : _ = some .restoreBreaksInvariant), by decide⟩,
    by decide, by decide, by decide⟩
/-- The four waits, beside a silent environment and beside one that offers half a command. -/
theorem witness_StepWaitsForAWholeCommand :
    (po.items.phase = .idle ∧ (∀ op, po.nextAction ≠ .serve op) ∧ po.hostOp = none ∧
      decode po.hostPort = .incomplete) ∧
    ((calling 10 every2 true []).items.phase = .callback 10 ∧ (calling 10 every2 true []).items.fault = 0 ∧
      decode (calling 10 every2 true []).clientPort = .incomplete) ∧
    ((broken (.draining 0)).items.phase = .draining 0 ∧ (broken (.draining 0)).items.fault ≠ 0 ∧
      decode (broken (.draining 0)).hostPort = .incomplete) ∧
    ((broken (.callback 0)).items.phase = .callback 0 ∧ (broken (.callback 0)).items.fault ≠ 0 ∧
      decode (broken (.callback 0)).clientPort = .incomplete ∧
      decode (broken (.callback 0)).hostPort = .incomplete) ∧
    (fun _ => ([], []) : Nat → List PortWord × List PortWord) po.offers = ([], []) ∧
    (fun _ => ([.w32 0x11000000], []) : Nat → List PortWord × List PortWord) po.offers ≠ ([], []) :=
  ⟨⟨rfl, not_served_of_held (.inl rfl), rfl, by decide⟩, by decide, by decide, by decide, by decide, by decide⟩
/-- 0x02 and 0xFF, the least and the greatest unassigned opcode. -/
theorem witness_UnknownOpcodeConsumesOneWord :
    (∀ h : HeaderWord, h = 0x02000000 ∨ h = 0xFF000000 →
      headerOpc h ∉ ([0x00, 0x01, 0x10, 0x11, 0x12, 0x13, 0x14, 0x15, 0x16, 0x20, 0x21, 0x22, 0x23,
        0x30, 0x31, 0x32, 0x33, 0x34, 0x35] : List Byte) ∧
      (Port.wordWide [.w32 h]).takeHeader = some (h, .wordWide [])) ∧
    (po.items.fault = 0 ∧ po.items.phase = .idle ∧ ∀ op, po.nextAction ≠ .serve op) ∧
    ((calling 10 every2 true []).items.phase = .callback 10) := by
  refine ⟨?_, ⟨rfl, rfl, not_served_of_held (.inl rfl)⟩, rfl⟩
  rintro h (rfl | rfl) <;> decide
/-- The lowest and the highest header bit below the opcode. -/
theorem witness_ReservedHeaderFieldIsADiagnostic :
    ((headerOpc 0x14000001, 0, 0, 1) = ((0x14, 0, 0, 1) : Byte × HeaderWord × Nat × Nat) ∧ BitVec.getLsbD (0 : HeaderWord) 0 = false ∧
      BitVec.getLsbD (0x14000001 : HeaderWord) 0 = true ∧
      (Port.wordWide []).takeOperands 0 = some ([], .wordWide [])) ∧
    ((headerOpc 0x11800000, 0, 1, 0) = ((0x11, 0, 1, 0) : Byte × HeaderWord × Nat × Nat) ∧ BitVec.getLsbD (0x11800000 : HeaderWord) 23 = true ∧
      (Port.wordWide [.w64 5]).takeOperands 1 = some ([5], .wordWide []) ∧
      (port 0x11800000 [5]).takeHeader = some (0x11800000, .wordWide [.w64 5])) ∧
    (po.items.fault = 0 ∧ po.items.phase = .idle ∧ ∀ op, po.nextAction ≠ .serve op) ∧
    (calling 10 every2 true []).items.phase = .callback 10 :=
  ⟨by decide, by decide, ⟨rfl, rfl, not_served_of_held (.inl rfl)⟩, rfl⟩
theorem witness_OffersAreHeldWhileDraining :
    (busy 0 (.draining 0) []).items.phase = .draining 0 ∧ (busy 0 (.draining 0) []).items.fault = 0 := by decide
theorem witness_NopLeavesEverythingUnchanged : headerOpc 0x00000001 = 0 ∧ (0x00000001 : HeaderWord) ≠ 0 := by decide

/-- `now` ten ticks before the end of time, one event in a queue of two slots, and one handle left. -/
def lateTight : State := { poTight with items := { poTight.items with
  now := 0xFFFFFFFFFFFFFFF6, queue := [⟨1, 0xFFFFFFFFFFFFFFFF, .ext 7, false, 0, 0⟩], nextSeq := 2
  nextHandle := 0xFFFFFFFFFFFFFFFE } }
/-- A delay that ends at 2^64 - 1, the last slot and the last handle; recurring with period 1, and one-shot. -/
theorem witness_SchedInsertsTheEvent : lateTight.items.fault = 0 ∧ (Instr.sched false 9 true 1 0).wf = true ∧
    (Instr.sched true (2 ^ 64 - 1) false 0 0).wf = true ∧
    max (lateTight.items.now.toNat : Int) (if false then 9 else lateTight.items.now.toNat + 9) < 2 ^ 64 ∧
    max (lateTight.items.now.toNat : Int) (2 ^ 64 - 1) < 2 ^ 64 ∧
    (∀ n, lateTight.cfg.queueCapacity = some n → lateTight.items.occ < n) ∧
    lateTight.items.nextHandle.toNat + 1 < 2 ^ 64 := by
  refine ⟨rfl, by decide, by decide, by decide, by decide, ?_, by decide⟩
  rintro n h
  obtain rfl := Option.some.inj h
  decide
/-- A full queue of two, and an unbounded queue with no handle left. -/
def full : State := { poTight with items := { poTight.items with queue := [once1, every2] } }
def noHandle : State := { po with items := { po.items with nextHandle := 0xFFFFFFFFFFFFFFFF } }
/-- A delay to exactly 2^64; a full queue; no handle left (the two period clauses have operands only). -/
theorem witness_SchedRefusalsInOrder :
    (lateTight.items.fault = 0 ∧
      2 ^ 64 ≤ max (lateTight.items.now.toNat : Int) (if false then 10 else lateTight.items.now.toNat + 10)) ∧
    (full.items.fault = 0 ∧ max (full.items.now.toNat : Int) (if false then 10 else full.items.now.toNat + 10) < 2 ^ 64 ∧
      full.cfg.queueCapacity = some 2 ∧ 2 ≤ full.items.occ) ∧
    (noHandle.items.fault = 0 ∧
      max (noHandle.items.now.toNat : Int) (if false then 10 else noHandle.items.now.toNat + 10) < 2 ^ 64 ∧
      (∀ n, noHandle.cfg.queueCapacity = some n → noHandle.items.occ < n) ∧
      noHandle.items.nextHandle.toNat = 2 ^ 64 - 1) := by
  refine ⟨by decide, by decide, rfl, by decide, ?_, by decide⟩
  rintro n h
  simp [noHandle, po, State.initial, cfg] at h
theorem witness_CancelByHandle :
    ((busy 0 .idle [once1]).items.fault = 0 ∧ ∃ e ∈ (busy 0 .idle [once1]).items.queue, e.handle = 1) ∧
    ((∀ e ∈ (calling 100 every2 true [once1]).items.queue, e.handle ≠ 2) ∧
      (calling 100 every2 true [once1]).items.cur = some ⟨every2, true⟩ ∧ every2.handle = 2) ∧
    ((∀ e ∈ po.items.queue, e.handle ≠ 0) ∧ ∀ c, po.items.cur = some c → c.live = true → c.entry.handle ≠ 0) := by
  refine ⟨by decide, by decide, by decide, ?_⟩
  rintro c h
  simp [po, State.initial, Items.powerOn] at h
theorem witness_AdvanceStartsTheDrain :
    ((busy 100 .idle []).items.fault = 0 ∧ (busy 100 .idle []).items.phase = .idle ∧
      (busy 100 .idle []).items.now.toNat ≤ (100 : Word).toNat ∧
      (99 : Word).toNat < (busy 100 .idle []).items.now.toNat) ∧
    (calling 10 once1 false []).items.phase = .callback 10 := by decide
/-- A re-arm time of 2^64 - 1; an event that is not live; and IDLE. -/
theorem witness_CbdoneEndsTheCallback :
    ((calling 0xFFFFFFFFFFFFFFF0 ⟨1, 0xFFFFFFFFFFFFFFF0, .ext 7, true, 15, 0⟩ true []).items.fault = 0 ∧
      (0xFFFFFFFFFFFFFFF0 : Word).toNat + (15 : Word).toNat < 2 ^ 64) ∧
    ((calling 10 once1 false []).items.phase = .callback 10 ∧
      (calling 10 once1 false []).items.cur = some ⟨once1, false⟩) ∧ po.items.phase = .idle := by decide
theorem witness_RdnowAnswersNow : po.items.fault = 0 := rfl
theorem witness_RdscanAnswersThePosition : (busy 26300 .idle []).items.fault = 0 := rfl
theorem witness_QueryReportsTheEvent :
    (once1 ∈ (busy 0 .idle [once1, every2]).items.queue ∧
      ∀ x ∈ (busy 0 .idle [once1, every2]).items.queue, x.handle = 1 → x = once1) ∧
    ((∀ e ∈ (calling 10 every2 true [once1]).items.queue, e.handle ≠ 2) ∧
      (calling 10 every2 true [once1]).items.cur = some ⟨every2, true⟩ ∧ every2.handle = 2 ∧
      every2.payload = .ext 8) ∧
    ((∀ e ∈ (calling 10 once1 false []).items.queue, e.handle ≠ 1) ∧
      ∀ c, (calling 10 once1 false []).items.cur = some c → c.live = true → c.entry.handle ≠ 1) := by
  refine ⟨by decide, by decide, by decide, ?_⟩
  rintro c h hl
  obtain rfl := Option.some.inj h
  exact absurd hl (by decide)

/-- An event one tick past the target. -/
theorem witness_DrainEndsWhenNothingIsDue :
    (busy 0 (.draining 9) [once1]).items.phase = .draining 9 ∧ (busy 0 (.draining 9) [once1]).items.fault = 0 ∧
      ∀ e ∈ (busy 0 (.draining 9) [once1]).items.queue, (9 : Word).toNat < e.fireTime.toNat := by decide
/-- Two events due at the target, and the lower seq is the least key. -/
theorem once1_least : ∀ x ∈ [once1, every2], x ≠ once1 → keyLess once1 x := by
  intro x hx hne
  rcases List.mem_cons.1 hx with rfl | hx
  · exact absurd rfl hne
  · obtain rfl := List.mem_singleton.1 hx
    exact .inr ⟨rfl, by decide⟩
theorem witness_DrainCallsTheClientOfTheLeastKey :
    (busy 0 (.draining 10) [once1, every2]).items.phase = .draining 10 ∧
      once1 ∈ (busy 0 (.draining 10) [once1, every2]).items.queue ∧ once1.fireTime.toNat ≤ (10 : Word).toNat ∧
      (∀ x ∈ (busy 0 (.draining 10) [once1, every2]).items.queue, x ≠ once1 → keyLess once1 x) ∧
      once1.payload = .ext 7 ∧
      (once1.recurring = true → once1.fireTime.toNat + once1.period.toNat < 2 ^ 64) :=
  ⟨rfl, by decide, by decide, once1_least, rfl, by decide⟩
/-- A recurring assert whose next time is 2^64 - 1. -/
def lateAssert : Entry := ⟨1, 0xFFFFFFFFFFFFFFF0, .irqAssert 1 0, true, 15, 0⟩
theorem alone_least (e : Entry) : ∀ x ∈ [e], x ≠ e → keyLess e x := by
  intro x hx hne
  exact absurd (List.mem_singleton.1 hx) hne
theorem witness_DrainFiresInternalEvents :
    (busy 0 (.draining 0xFFFFFFFFFFFFFFF0) [lateAssert]).items.fault = 0 ∧
      lateAssert.fireTime.toNat ≤ (0xFFFFFFFFFFFFFFF0 : Word).toNat ∧
      (∀ x ∈ (busy 0 (.draining 0xFFFFFFFFFFFFFFF0) [lateAssert]).items.queue, x ≠ lateAssert →
        keyLess lateAssert x) ∧
      lateAssert.payload = (if true then .irqAssert 1 0 else .irqClear 1 0) ∧
      (lateAssert.recurring = true → lateAssert.fireTime.toNat + lateAssert.period.toNat < 2 ^ 64) :=
  ⟨rfl, by decide, alone_least _, rfl, by decide⟩
/-- A recurring event whose next time is exactly 2^64. -/
def tooLate : Entry := ⟨1, 0xFFFFFFFFFFFFFFF0, .ext 7, true, 16, 0⟩
theorem witness_DrainFaultsBeforeAnOverflow :
    (busy 0 (.draining 0xFFFFFFFFFFFFFFF0) [tooLate]).items.fault = 0 ∧ tooLate.recurring = true ∧
      (∀ x ∈ (busy 0 (.draining 0xFFFFFFFFFFFFFFF0) [tooLate]).items.queue, x ≠ tooLate → keyLess tooLate x) ∧
      2 ^ 64 ≤ tooLate.fireTime.toNat + tooLate.period.toNat :=
  ⟨rfl, rfl, alone_least _, by decide⟩
theorem witness_NoDrainEndsWithAnEventDue :
    gives (step (busy 0 (.draining 9) [once1])) (fun t => decide (t.items.phase = .idle)) = true := by decide

/-- A drain with two events due keeps the invariant. -/
theorem busy_inv : (busy 0 (.draining 10) [once1, every2]).Inv := by
  refine ⟨by decide, ?_, rfl, by simp [busy, po, State.initial]⟩
  constructor
  case sorted =>
    refine List.Pairwise.cons (fun x hx => ?_) (List.pairwise_singleton ..)
    obtain rfl := List.mem_singleton.1 hx
    exact .inr ⟨rfl, by decide⟩
  case room => rfl
  all_goals simp [busy, po, State.initial, Items.powerOn, once1, every2]
theorem witness_FiringLeavesOnlyLaterKeys : (busy 0 (.draining 10) [once1, every2]).Inv ∧
    once1 ∈ (busy 0 (.draining 10) [once1, every2]).items.queue ∧
    (∀ x ∈ (busy 0 (.draining 10) [once1, every2]).items.queue, x ≠ once1 → keyLess once1 x) ∧
    once1.recurring = false := ⟨busy_inv, by decide, once1_least, rfl⟩
/-- Right before the first key of the queue, and with a step to take. -/
theorem witness_FiringsComeInKeyOrder : (busy 0 (.draining 10) [once1, every2]).Inv ∧
    (∀ x, (busy 0 (.draining 10) [once1, every2]).hostOp ≠ some (.restore x)) ∧
    (busy 0 (.draining 10) [once1, every2]).AfterKey 0 1 ∧
    gives (core.run 1 (busy 0 (.draining 10) [once1, every2])) (fun _ => true) = true := by
  refine ⟨busy_inv, by simp [busy, po, State.initial], ⟨by decide, by decide, ?_, ?_⟩, by decide⟩
  · intro e he
    rcases List.mem_cons.1 he with rfl | he
    · exact .inl (by decide)
    · obtain rfl := List.mem_singleton.1 he
      exact .inl (by decide)
  · intro c h
    simp [busy, po, State.initial, Items.powerOn] at h
/-- Two pulses due, the second clear exactly at the target (ILC-6), and another event one tick past it. -/
theorem witness_OneAdvanceRunsEveryPulse : cfg.valid = true ∧ framePeriod cfg < 2 ^ 64 ∧ (1 : Word) ≠ 2 ∧
    6400 + 2 * framePeriod cfg + cfg.hblankStart < 2 ^ 64 ∧
    (∀ j < 2, 6400 + j * framePeriod cfg + cfg.hblankStart ≤ (32680 : Word).toNat) ∧
    (∀ e ∈ [(⟨3, 32681, .ext 7, false, 0, 2⟩ : Entry)], (32680 : Word).toNat < e.fireTime.toNat ∧
      e.handle ≠ 1 ∧ e.handle ≠ 2) ∧
    (busy 0 (.draining 32680) [⟨1, BitVec.ofNat 64 6400, .irqAssert 0 0, true, BitVec.ofNat 64 26200, 0⟩,
      ⟨2, BitVec.ofNat 64 (6400 + 80), .irqClear 0 0, true, BitVec.ofNat 64 26200, 1⟩]).items.line 0 0 = false := by
  decide
/-- EX-2: 125 and 150 in the drain to 160, and a third instance that is not due. -/
theorem witness_RecurringFiringsDoNotDrift : 125 + 2 * (25 : Word).toNat < 2 ^ 64 ∧
    (∀ j < 2, 125 + j * (25 : Word).toNat ≤ (160 : Word).toNat) ∧
    (busy 100 (.draining 160) [⟨1, BitVec.ofNat 64 125, .ext 5, true, 25, 0⟩]).items.fault = 0 := by decide
/-- A drain to the time of the one event that is due, and a callback, in which nothing has been offered. -/
def cascading : State := { busy 10 (.draining 10) [once1] with clientPort := .wordWide [] }
def answering : State := { calling 10 once1 false [] with clientPort := .wordWide [] }
/-- A client that schedules the next event with delay 0 and ends its callback, and one that sends a NOP and an ADVANCE
(F_REENTRANT) at each offer and never ends it. -/
def chaining (_ : Nat) : List PortWord × List PortWord :=
  ([], [.w32 0x10000000, .w64 0, .w64 0, .w64 7, .w32 0x13000000])
def hanging (_ : Nat) : List PortWord × List PortWord := ([], [.w32 0x00000000, .w32 0x12000000, .w64 0xFF])
/-- As many instances as there are handles left; every offer of either client is what its clause asks; and a step in
a callback that takes no CBDONE. -/
theorem witness_CascadesAreNotCutOff :
    (cascading.items.phase = .draining 10 ∧ cascading.items.fault = 0 ∧ (10 : Word).toNat ≤ (10 : Word).toNat ∧
      cascading.items.queue = [⟨1, 10, .ext 7, false, 0, 0⟩] ∧ cascading.clientPort = .wordWide [] ∧
      cascading.cfg.queueCapacity = none ∧ cascading.items.nextHandle.toNat + (2 ^ 64 - 4) < 2 ^ 64) ∧
    (∀ n, (chaining n).2 = [.w32 0x10000000, .w64 0, .w64 0, .w64 7, .w32 0x13000000]) ∧
    (answering.items.phase = .callback 10 ∧ answering.nextAction = .wait ∧
      gives (stepWith hanging answering) (fun _ => true) = true) ∧
    answering.clientPort = .wordWide (([] : List Instr).flatMap encode) ∧
    (∀ i ∈ [Instr.nop, .advance 0xFF], i.wf = true ∧ i ≠ .cbdone) ∧
    ∀ n, (hanging n).2 = [Instr.nop, .advance 0xFF].flatMap encode :=
  ⟨by decide, fun _ => rfl, by decide, rfl, by decide, fun _ => rfl⟩
/-- A drain step, and steps that are none: a command, one of a faulted drain. None serves a RESTORE. -/
theorem witness_NowNeverDecreases : (∀ x, (busy 0 (.draining 10) [once1, every2]).nextAction ≠ .serve (.restore x)) ∧
    (∀ x, State.nextAction { po with hostPort := port 0x14000000 [] } ≠ .serve (.restore x)) ∧ (busy 0 (.draining 10) [once1, every2]).Inv ∧
    gives (step (busy 0 (.draining 10) [once1, every2])) (fun _ => true) = true ∧
    gives (exec .rdnow po) (fun _ => true) = true ∧
    gives (step { po with hostPort := port 0x14000000 [] }) (fun _ => true) = true ∧
    (broken (.draining 0)).items.fault ≠ 0 ∧
    gives (step { broken (.draining 0) with hostPort := port 0x14000000 [] }) (fun _ => true) = true :=
  ⟨fun _ => not_served_of_held (.inl rfl) _, fun _ => not_served_of_held (.inl rfl) _, busy_inv, by decide, by decide,
    by decide, by decide, by decide⟩
/-- Handle 2 has been issued and cancelled; a one-shot event's handle goes stale as it fires. -/
theorem witness_StaleHandlesStayStale :
    (∀ x, (busy 0 (.draining 10) [once1]).nextAction ≠ .serve (.restore x)) ∧
    gives (step (busy 0 (.draining 10) [once1])) (fun _ => true) = true ∧
    (2 : Word).toNat < (busy 0 (.draining 10) [once1]).items.nextHandle.toNat ∧
    (busy 0 (.draining 10) [once1]).items.validHandle 2 = false :=
  ⟨fun _ => not_served_of_held (.inl rfl) _, by decide, by decide, by decide⟩

theorem witness_IrqSetAndClrWriteOneLine :
    po.items.fault = 0 ∧ (1 : Byte).toNat = (1 : Fin 2).val ∧ (0 : Byte).toNat = (0 : Fin 2).val := by decide
theorem witness_IrqRdAnswersTheLevel :
    po.items.fault = 0 ∧ (1 : Byte).toNat = (1 : Fin 2).val ∧ (0 : Byte).toNat = (0 : Fin 2).val := by decide
theorem witness_IlcChecksIdsFirst : po.items.fault = 0 ∧
    (2 ≤ (2 : Byte).toNat ∨ 2 ≤ (0 : Byte).toNat) ∧ (2 ≤ (1 : Byte).toNat ∨ 2 ≤ (255 : Byte).toNat) := by decide
/-- The tight configuration's only scanline, an empty queue of two slots and the last two handles. -/
def twoHandlesLeft : State := { poTight with items := { poTight.items with nextHandle := 0xFFFFFFFFFFFFFFFD } }
theorem witness_IrqPerInsertsAPulse : twoHandlesLeft.items.fault = 0 ∧
    (1 : Byte).toNat = (1 : Fin 2).val ∧ (0 : Word).toNat < tight.totalScanlines ∧
    0 = firstAssert tight 0 0 ∧ 0 + tight.hblankStart < 2 ^ 64 ∧
    tight.totalScanlines * tight.linePeriod < 2 ^ 64 ∧
    (∀ n, twoHandlesLeft.cfg.queueCapacity = some n → twoHandlesLeft.items.occ + 2 ≤ n) ∧
    twoHandlesLeft.items.nextHandle.toNat + 2 < 2 ^ 64 := by
  refine ⟨rfl, rfl, by decide, by decide, by decide, by decide, ?_, by decide⟩
  rintro n h
  obtain rfl := Option.some.inj h
  decide
/-- A scanline of N; a clear at 2^64; a frame period of 2^64; one slot too few; no two handles left. -/
theorem witness_IrqPerFaultsInOrder :
    (po.items.fault = 0 ∧ (1 : Byte).toNat < 2 ∧ cfg.totalScanlines ≤ (262 : Word).toNat) ∧
    ((0 : Word).toNat < tight.totalScanlines ∧
      2 ^ 64 ≤ firstAssert tight 0xFFFFFFFFFFFFFFFF 0 + tight.hblankStart) ∧
    (Params.valid ⟨0x100000000, 0x100000000, 1, 0, none⟩ = true ∧
      2 ^ 64 ≤ 0x100000000 * 0x100000000) ∧
    (lateTight.items.fault = 0 ∧
      firstAssert lateTight.cfg lateTight.items.now 0 + lateTight.cfg.hblankStart < 2 ^ 64 ∧
      lateTight.cfg.totalScanlines * lateTight.cfg.linePeriod < 2 ^ 64 ∧
      lateTight.cfg.queueCapacity = some 2 ∧ 2 < lateTight.items.occ + 2) ∧
    (noHandle.items.fault = 0 ∧ (0 : Word).toNat < noHandle.cfg.totalScanlines ∧
      firstAssert noHandle.cfg noHandle.items.now 0 + noHandle.cfg.hblankStart < 2 ^ 64 ∧
      noHandle.cfg.totalScanlines * noHandle.cfg.linePeriod < 2 ^ 64 ∧
      (∀ n, noHandle.cfg.queueCapacity = some n → noHandle.items.occ + 2 ≤ n) ∧
      2 ^ 64 ≤ noHandle.items.nextHandle.toNat + 2) := by
  refine ⟨by decide, by decide, by decide, by decide, rfl, by decide, by decide, by decide, ?_, by decide⟩
  rintro n h
  simp [noHandle, po, State.initial, cfg] at h
theorem witness_FirstAssertIsTheEarliestStart : tight.valid = true ∧ 0 < tight.totalScanlines ∧
    cfg.valid = true ∧ 261 < cfg.totalScanlines := by decide
theorem witness_OneClearUndoesAnyNumberOfAsserts :
    po.items.fault = 0 ∧ (1 : Byte).toNat = (1 : Fin 2).val ∧ (0 : Byte).toNat = (0 : Fin 2).val := by decide
theorem witness_OnlyIrqSetAndClrWriteLines : gives (exec (.arbEn true) po) (fun _ => true) = true ∧
    (∀ c l, Instr.arbEn true ≠ .irqSet c l) ∧ ∀ c l, Instr.arbEn true ≠ .irqClr c l :=
  ⟨by decide, by simp, by simp⟩

theorem witness_ArbEnSwapsTheHalts : po.items.fault = 0 := rfl
theorem witness_ArbRstResetsOnlyTheArbiter : po.items.fault = 0 := rfl
theorem witness_ArbBaRecordsTheSignal : po.items.fault = 0 := rfl
theorem witness_ArbRdReadsOrIdles : po.items.fault = 0 ∧ 2 ≤ (2 : Byte).toNat ∧
    ((1 : Byte).toNat < 2 ∧ 2 ^ 16 ≤ (0x10000 : Word).toNat) ∧ (0xFFFF : Word).toNat < 2 ^ 16 ∧
    (if (1 : Byte) = 0 then po.items.primaryHalted else po.items.secondaryHalted) = true ∧
    (if (0 : Byte) = 0 then po.items.primaryHalted else po.items.secondaryHalted) = false := by decide
theorem witness_ArbWrStoresOneByte : po.items.fault = 0 ∧ 2 ≤ (2 : Byte).toNat ∧
    (2 ^ 16 ≤ (0x10000 : Word).toNat ∧ 2 ^ 8 ≤ (0x100 : Word).toNat) ∧
    ((0xFFFF : Word).toNat < 2 ^ 16 ∧ (0xFF : Word).toNat < 2 ^ 8) ∧
    (if (1 : Byte) = 0 then po.items.primaryHalted else po.items.secondaryHalted) = true ∧
    (if (0 : Byte) = 0 then po.items.primaryHalted else po.items.secondaryHalted) = false := by decide
theorem witness_ArbRdsAnswersTheBits : po.items.fault = 0 := rfl
theorem witness_ExactlyOneCpuIsHalted : po.items.primaryHalted ≠ po.items.secondaryHalted ∧
    gives (step { po with hostPort := port 0x14000000 [] }) (fun _ => true) = true ∧ po.items.fault = 0 ∧
    gives (exec .rdnow po) (fun _ => true) = true ∧
    State.nextAction { po with hostPort := port 0x14000000 [] } =
      .command .rdnow { po with hostPort := .wordWide [] } := by decide
theorem witness_ResetOnEnable : po.items.fault = 0 := rfl
/-- The two enabled states: after power-on, and after ARB.EN 1; and a step that is no RESTORE. -/
theorem witness_ArbiterStaysInItsThreeStates :
    (po.items.secondaryEnabled = false ∧ po.items.primaryHalted = false ∧ po.items.secondaryHalted = true) ∧
    State.nextAction { po with hostPort := port 0x30000004 [] } =
      .command (.arbEn true) { po with hostPort := .wordWide [] } ∧
    gives (step { po with hostPort := port 0x30000004 [] }) (fun _ => true) = true ∧
    gives (exec (.arbEn true) po) (fun t => decide (t.items.secondaryEnabled = true ∧
      t.items.resetPending = false ∧ t.items.primaryHalted = true ∧ t.items.secondaryHalted = false)) = true := by
  decide
theorem witness_OnlyArbitratedAccessesTouchMemory : gives (exec .rdnow po) (fun _ => true) = true ∧
    (∀ c a d, Instr.rdnow ≠ .arbWr c a d) ∧ (∀ c a, Instr.rdnow ≠ .arbRd c a) ∧
    State.nextAction (busy 0 (.draining 10) [once1]) = .drain 10 ∧
    gives (step (busy 0 (.draining 10) [once1])) (fun _ => true) = true :=
  ⟨by decide, by simp, by simp, by decide, by decide⟩

/-- With and without a RESTORE pending, in each phase. -/
theorem witness_FaultedMachineIgnoresCommands : (broken .idle).items.fault ≠ 0 ∧
    (broken .idle).hostOp ≠ some .snapshot ∧
    ({ faultedRefusing 0x01000000 with hostPort := .wordWide [] }.hostOp = some (.restore po.items) ∧
      decode (.wordWide []) = .incomplete ∧ (faultedRefusing 0x01000000).items.phase = .idle) ∧
    decode (faultedRefusing 0x01000000).hostPort = .command .status (.wordWide []) ∧
    gives (step (faultedRefusing 0x01000000)) (fun _ => true) = true ∧
    Instr.rdnow ≠ .status ∧ (broken (.draining 0)).items.phase = .draining 0 ∧
    ((broken (.callback 0)).items.phase = .callback 0 ∧ decode (broken (.callback 0)).clientPort = .incomplete) ∧
    decode (port 0x14000000 []) = .command .rdnow (.wordWide []) ∧
    decode (port 0x14000001 []) = .badFields 0x14 1 (.wordWide []) ∧
    decode (port 0x02000000 []) = .unknown 0x02000000 (.wordWide []) := by decide
theorem witness_FirstFaultIsKept : (broken .idle).items.fault ≠ 0 ∧
    gives (step { broken .idle with hostPort := port 0x14000000 [] }) (fun _ => true) = true := by decide
/-- IRQ.SET of CPU 2; and a drain step that overflows beside a SNAPSHOT that is held. -/
theorem witness_FaultsArePrecise :
    (∀ x, State.nextAction { po with hostPort := port 0x20020000 [] } ≠ .serve (.restore x)) ∧ po.items.fault = 0 ∧
    gives (step { po with hostPort := port 0x20020000 [] }) (fun t => decide (t.items.fault ≠ 0)) = true ∧
    gives (step { busy 0 (.draining 0xFFFFFFFFFFFFFFF0) [⟨1, 0xFFFFFFFFFFFFFFF0, .ext 1, true, 0x20, 0⟩] with
      hostOp := some .snapshot }) (fun t => decide (t.items.fault ≠ 0)) = true :=
  ⟨fun _ => not_served_of_held (.inl rfl) _, by decide, by decide, by decide⟩
/-- A diagnostic when the count is about to wrap. -/
theorem witness_DiagnosticsCorruptNothing :
    (∀ x, State.nextAction { po with
        hostPort := port 0x13000000 [], items := { po.items with diagCount := 0xFFFFFFFFFFFFFFFF } } ≠
      .serve (.restore x)) ∧
    gives (step { po with
        hostPort := port 0x13000000 [], items := { po.items with diagCount := 0xFFFFFFFFFFFFFFFF } })
      (fun t => decide (t.items.diagCount = 0)) = true :=
  ⟨fun _ => not_served_of_held (.inl rfl) _, by decide⟩
theorem witness_ReadsHaveNoSideEffect :
    gives (exec (.irqRd 1 1) po) (fun t => decide (t.items.fault = po.items.fault)) = true := by decide

/-- Power-on with the vectors' constants keeps the invariant, and a SNAPSHOT is asked for. -/
theorem witness_RestoreOfASnapshotPutsItBack : State.Inv { po with hostOp := some .snapshot } ∧
    { po with hostOp := some (.restore po.items) }.cfg = po.cfg ∧
    { po with hostOp := some (.restore po.items) }.items.phase = .idle ∧
    { po with hostOp := some (.restore po.items) }.items.fault = 0 := by
  refine ⟨⟨by decide, ?_, rfl, by simp⟩, rfl, rfl, rfl⟩
  constructor <;> simp [po, State.initial, Items.powerOn, roomFor, cfg]
/-- Both CPUs halted (BLK-6); and a current event that is recurring with period 0. -/
theorem witness_RestoreRefusesABrokenTuple : refusing.items.phase = .idle ∧ refusing.items.fault = 0 ∧
    gives (stepWith (fun _ => ([], [])) { refusing with hostOp := none, hostPort := port 0x14000000 [] })
      (fun _ => true) = true ∧
    stepWith (fun _ => ([], [])) { refusing with hostOp := none } = .fault .awaitingCommand ∧
    ¬ Items.R34 cfg { po.items with primaryHalted := true } ∧
    ¬ Items.R34 cfg (inCallback { every2 with period := 0 } true) :=
  ⟨rfl, rfl, by decide, rfl, fun h => h.1 rfl, fun h =>
    absurd ((h.2.2.2.2.2.2.2 _ (.inr ⟨_, rfl, rfl⟩)).1 rfl) (by decide)⟩
theorem witness_EveryStepKeepsTheInvariant : (busy 0 (.draining 10) [once1, every2]).Inv ∧
    gives (step (busy 0 (.draining 10) [once1, every2])) (fun _ => true) = true := ⟨busy_inv, by decide⟩
theorem witness_HistoriesOnlyGrow :
    gives (step { po with hostPort := port 0x14000000 [] }) (fun _ => true) = true := by decide

/-! The assembler (R80 to R82). -/

/-- The words of one source line. -/
def asmWords (line : String) : Option (List PortWord) :=
  (assembleLine line).map fun is => is.flatMap encode

theorem test_assemble_sched_rel :
    asmWords "SCHED rel, -3, once, 1" = some [.w32 0x10000000, .w64 0xFFFFFFFFFFFFFFFD, .w64 0, .w64 1] := by decide
theorem test_assemble_every : asmWords " EVERY 7, 0x2 ; a pulse" = some [.w32 0x10000001, .w64 7, .w64 7, .w64 2] := by decide
/-- R80: the e of ARB.EN is a number, decimal or hexadecimal, of value 0 or 1. -/
theorem test_assemble_bit : asmWords "ARB.EN 0x1" = some [.w32 0x30000004] ∧ asmWords "ARB.EN 00" = some [.w32 0x30000000] ∧
    asmWords "ARB.BA 2" = none := by decide
theorem test_assemble_names : asmWords "IRQ.SET SEC, FIRQ" = some [.w32 0x20010100] := by decide
theorem test_assemble_comment : asmWords "  ; nothing" = some [] := by decide
theorem test_assemble_malformed : asmWords "RDNOW 1" = none := by decide
/-- `IRQ.PERLIST PRI, IRQ, {3, 9}`. -/
theorem test_assemble_perlist :
    assembleOperands "IRQ.PERLIST" (" PRI, IRQ, ".toList ++ Char.ofNat 123 :: "3, 9".toList ++ [Char.ofNat 125])
      = some [.irqPer 0 0 3, .irqPer 0 0 9] := by decide

end Sys2Proof.Tests
end

section
/-! PROOFS. Which configurations have a power-on state (R8), and that every step keeps the configuration and only
appends to the output ports (R7, R32, R62). -/
namespace Sys2Proof.Machine

/-! ## Power-on -/

/-- The Boolean check of a configuration is the conjunction of R7's constraints. -/
theorem params_valid_iff (p : Params) : p.valid = true ↔
    2 ≤ p.linePeriod ∧ 1 ≤ p.totalScanlines ∧ 0 < p.hblankStart ∧ p.hblankStart < p.linePeriod := by
  simp only [Params.valid, Bool.and_eq_true, decide_eq_true_eq, and_assoc]

/-- Power-on refuses exactly the configurations that fail the check. -/
theorem isSome_powerOn?_iff (p : Params) : (State.powerOn? p).isSome = true ↔ p.valid = true := by
  unfold State.powerOn?
  split
  · next hvalid => simp [hvalid]
  · next hvalid => simp [hvalid]

/-- Settles O56: power-on succeeds exactly where the check of R8 does, and that check is R7's constraints. -/
theorem onlyValidConfigurationsPowerOn : Obligations.OnlyValidConfigurationsPowerOn := fun p =>
  (isSome_powerOn?_iff p).trans (params_valid_iff p)

/-! ## What taking a command from its port leaves alone -/

theorem TakenFrom.cfg_eq {s s' : State} (h : TakenFrom s s') : s'.cfg = s.cfg := by
  rw [TakenFrom] at h
  rw [h]

theorem TakenFrom.history_eq {s s' : State} (h : TakenFrom s s') : s'.history = s.history := by
  rw [TakenFrom] at h
  rw [h]

/-- An operation on the state left by taking a command frames the state before the command was taken too. -/
theorem TakenFrom.keeps_cfg_history {s s' t : State} (htaken : TakenFrom s s') (hframe : Frame s' t) :
    t.cfg = s.cfg ∧ s.history <+: t.history :=
  ⟨hframe.cfg.trans htaken.cfg_eq, htaken.history_eq ▸ hframe.history⟩

/-! ## Every step -/

/-- A SNAPSHOT appends its tuple to the history; a RESTORE writes the state items alone (R173). -/
theorem serveHostOp_keeps_cfg_history {s t : State} {op : HostOp} (h : s.serveHostOp op = .next t) :
    t.cfg = s.cfg ∧ s.history <+: t.history := by
  obtain ⟨-, rfl⟩ | ⟨x, -, -, -, -, rfl⟩ := serveHostOp_cases h
  · exact ⟨rfl, List.prefix_append ..⟩
  · exact ⟨rfl, List.prefix_refl _⟩

/-- A step beside any environment keeps the configuration and only appends to the history. -/
theorem stepWith_keeps_cfg_history {offer : Nat → List PortWord × List PortWord} {s t : State}
    (h : stepWith offer s = .next t) : t.cfg = s.cfg ∧ s.history <+: t.history := by
  obtain ⟨op, -, -, -, hserve⟩ | ⟨T, -, -, rfl⟩ | ⟨i, s', -, htaken, -, hexec⟩ | ⟨opc, s', htaken, rfl⟩ |
    ⟨w, s', htaken, rfl⟩ | ⟨hp, cp, rfl⟩ := stepWith_cases h
  · exact serveHostOp_keeps_cfg_history hserve
  · exact ⟨(frame_drainStep s T).cfg, (frame_drainStep s T).history⟩
  · exact htaken.keeps_cfg_history (exec_frame hexec)
  · exact htaken.keeps_cfg_history (frame_rejectFields s' opc)
  · exact htaken.keeps_cfg_history (frame_rejectUnknown s' w)
  · exact ⟨rfl, List.prefix_refl _⟩

/-- Settles O59, by the cases of a step: each is framed, up to the command port and the host operation. -/
theorem historiesOnlyGrow : Obligations.HistoriesOnlyGrow := fun _ _ h => stepWith_keeps_cfg_history h

end Sys2Proof.Machine
end

section
/-! PROOFS. The invariant of R34 holds at reset and every step keeps it. What the invariant says of Q is split off
as `QueueInv`, with one rule for an insertion, a removal and a change of time; every effect of a command or a firing is
then an assembly of these rules. -/
namespace Sys2Proof.Machine

/-! ## Q by itself -/

/-- What `Items.Inv` says of Q, of a queue `q` beside a time and the two counters. -/
structure QueueInv (now nextHandle nextSeq : Nat) (q : List Entry) : Prop where
  notPast : ∀ e ∈ q, now ≤ e.fireTime.toNat
  sorted : q.Pairwise keyLess
  handles : (q.map fun e => e.handle).Nodup
  seqs : (q.map fun e => e.seq).Nodup
  below : ∀ e ∈ q, 0 < e.handle.toNat ∧ e.handle.toNat < nextHandle ∧ e.seq < nextSeq
  periods : ∀ e ∈ q, if e.recurring = true then 0 < e.period.toNat else e.period.toNat = 0

theorem Items.Inv.queueInv {p : Params} {t : Items} (h : t.Inv p) :
    QueueInv t.now.toNat t.nextHandle.toNat t.nextSeq t.queue := { h with }

section
variable {now nh ns : Nat} {q : List Entry}

/-- An entry with the next seq, a handle that Q does not hold and a time not in the past may enter Q (R22, R23). -/
theorem QueueInv.insertEntry {nh' : Nat} {e : Entry} (hq : QueueInv now nh ns q) (hnh : nh ≤ nh')
    (hfresh : ∀ x ∈ q, x.handle ≠ e.handle) (hpos : 0 < e.handle.toNat) (hlt : e.handle.toNat < nh')
    (hseq : e.seq = ns) (hnow : now ≤ e.fireTime.toNat)
    (hperiod : if e.recurring = true then 0 < e.period.toNat else e.period.toNat = 0) :
    QueueInv now nh' (ns + 1) (insertEntry e q) := by
  have hseqs : ∀ x ∈ q, x.seq ≠ e.seq := fun x hx => by have := (hq.below x hx).2.2; omega
  have hperm := insertEntry_perm e q
  refine ⟨?_, insertEntry_sorted hq.sorted hseqs, ?_, ?_, ?_, ?_⟩
  case refine_2 =>
    rw [(hperm.map _).nodup_iff, List.map_cons, List.nodup_cons]
    exact ⟨by simpa using hfresh, hq.handles⟩
  case refine_3 =>
    rw [(hperm.map _).nodup_iff, List.map_cons, List.nodup_cons]
    exact ⟨by simpa using hseqs, hq.seqs⟩
  all_goals
    intro x hx
    obtain rfl | hx := mem_insertEntry.1 hx
  · exact hnow
  · exact hq.notPast x hx
  · exact ⟨hpos, hlt, by omega⟩
  · obtain ⟨h1, h2, h3⟩ := hq.below x hx
    exact ⟨h1, by omega, by omega⟩
  · exact hperiod
  · exact hq.periods x hx

theorem QueueInv.removeHandle (hq : QueueInv now nh ns q) (h : Word) : QueueInv now nh ns (removeHandle h q) := by
  have hsub : (Machine.removeHandle h q).Sublist q := List.filter_sublist
  exact ⟨fun e he => hq.notPast e (hsub.subset he), hq.sorted.sublist hsub, hq.handles.sublist (hsub.map _),
    hq.seqs.sublist (hsub.map _), fun e he => hq.below e (hsub.subset he), fun e he => hq.periods e (hsub.subset he)⟩

/-- Time may move up to the least fire time of Q (R26). -/
theorem QueueInv.at_time {now' : Nat} (hq : QueueInv now nh ns q) (hnow : ∀ e ∈ q, now' ≤ e.fireTime.toNat) :
    QueueInv now' nh ns q := { hq with notPast := hnow }

/-- The entry of least key has the least fire time. -/
theorem fireTime_le_of_least {e : Entry} (hmin : ∀ x ∈ q, ¬ keyLess x e) :
    ∀ x ∈ q, e.fireTime.toNat ≤ x.fireTime.toNat := by
  intro x hx
  have := hmin x hx
  unfold keyLess at this
  omega

theorem length_removeHandle_lt {e : Entry} (he : e ∈ q) : (removeHandle e.handle q).length < q.length :=
  List.length_filter_lt_length_iff_exists.2 ⟨e, he, by simp⟩

end

/-! ## Slots (R34 (e)) -/

theorem roomFor_mono {p : Params} {m n : Nat} (h : roomFor p n = true) (hle : m ≤ n) : roomFor p m = true :=
  roomFor_iff.2 fun k hk => hle.trans (roomFor_iff.1 h k hk)

theorem occ_of_cur_none {t : Items} (h : t.cur = none) : t.occ = t.queue.length := by
  simp [Items.occ, h]

/-- The slots in use when `c` is the current event: one for it while it is live. -/
theorem occ_of_cur_some {t : Items} {c : CurEvent} (h : t.cur = some c) :
    t.occ = t.queue.length + if c.live = true then 1 else 0 := by
  simp [Items.occ, h]

/-! ## Counters, periods and codes -/

/-- A handle counter that does not pass the last handle counts without a wrap (R100). -/
theorem toNat_add_one {w : Word} (h : w.toNat + 1 < 2 ^ 64) : (w + 1).toNat = w.toNat + 1 :=
  BitVec.toNat_add_of_lt h

theorem framePeriod_pos {p : Params} (h : p.valid = true) : 0 < framePeriod p := by
  obtain ⟨hL, hN, -, -⟩ := (params_valid_iff p).1 h
  exact Nat.mul_pos hN (by omega)

theorem faultCode_le (f : FaultCode) : (faultCode f).toNat ≤ 7 := by cases f <;> decide

theorem diagCode_le (d : DiagCode) : (diagCode d).toNat ≤ 6 := by cases d <;> decide

/-! ## What a command leaves -/

section
variable {p : Params} {x : Items}

theorem Items.Inv.cur_none (h : x.Inv p) (hphase : ∀ T, x.phase ≠ .callback T) : x.cur = none := by
  by_contra hc
  obtain ⟨T, hT⟩ := h.curIff.1 (Option.isSome_iff_ne_none.2 hc)
  exact hphase T hT

/-- A new event enters Q under the next handle and the next seq (R22, R23, R100). -/
theorem Items.Inv.insertNew (h : x.Inv p) {ft : Nat} (pl : Payload) {r : Bool} {per : Word}
    (hnow : x.now.toNat ≤ ft) (hfits : ft < 2 ^ 64) (hroom : roomFor p (x.occ + 1) = true)
    (hhandle : x.nextHandle.toNat + 1 < 2 ^ 64) (hper : if r = true then 0 < per.toNat else per.toNat = 0) :
    Items.Inv p { x with
      queue := insertEntry ⟨x.nextHandle, BitVec.ofNat 64 ft, pl, r, per, x.nextSeq⟩ x.queue
      nextHandle := x.nextHandle + 1
      nextSeq := x.nextSeq + 1 } := by
  have hnext := toNat_add_one hhandle
  have hfresh : ∀ e ∈ x.queue, e.handle ≠ x.nextHandle := fun e he heq => by
    have := (h.below e he).2.1
    rw [heq] at this
    omega
  have hq := h.queueInv.insertEntry (nh' := (x.nextHandle + 1).toNat)
    (e := ⟨x.nextHandle, BitVec.ofNat 64 ft, pl, r, per, x.nextSeq⟩) (by omega) hfresh h.nextHandlePos
    (by simp only; omega) rfl (by simp only [BitVec.toNat_ofNat]; omega) hper
  refine { hq, h with nextHandlePos := ?_, room := ?_, curHandle := ?_ }
  · simp only
    omega
  · refine roomFor_mono hroom ?_
    simp only [Items.occ, length_insertEntry]
    omega
  · intro c hc
    obtain ⟨hpos, hlt, hnot⟩ := h.curHandle c hc
    refine ⟨hpos, by simp only; omega, fun e he => ?_⟩
    obtain rfl | he := mem_insertEntry.1 he
    · intro heq
      simp only at heq
      rw [heq] at hlt
      omega
    · exact hnot e he

/-- A callback ends: its event leaves the slot it held (R110). -/
theorem Items.Inv.endCallback (h : x.Inv p) {T : Word} (hphase : x.phase = .callback T) :
    Items.Inv p { x with cur := none, phase := .draining T } :=
  { h with
    drainTarget := fun U hU => by obtain rfl := Phase.draining.inj hU; exact h.callbackTarget _ hphase
    callbackTarget := fun U hU => by simp at hU
    room := roomFor_mono h.room (by simp [Items.occ])
    curIff := by simp
    curHandle := by simp
    curTime := by simp
    curLive := by simp
    curPeriod := by simp }

/-- A callback of a live event ends: the event is in Q again at its next time (R110, R111). -/
theorem Items.Inv.endCallback_rearm (h : x.Inv p) {T : Word} {c : CurEvent} (hphase : x.phase = .callback T)
    (hc : x.cur = some c) (hlive : c.live = true) (hfits : rearmTime c.entry < 2 ^ 64) :
    Items.Inv p { x with
      queue := insertEntry { c.entry with fireTime := BitVec.ofNat 64 (rearmTime c.entry), seq := x.nextSeq } x.queue
      nextSeq := x.nextSeq + 1
      cur := none
      phase := .draining T } := by
  obtain ⟨hpos, hlt, hfresh⟩ := h.curHandle c hc
  have hrec := h.curLive c hc hlive
  have hper := (h.curPeriod c hc hrec).1
  have hnow : x.now.toNat ≤ rearmTime c.entry := by rw [← h.curTime c hc]; exact Nat.le_add_right ..
  have hq := h.queueInv.insertEntry
    (e := { c.entry with fireTime := BitVec.ofNat 64 (rearmTime c.entry), seq := x.nextSeq }) le_rfl hfresh hpos hlt rfl
    (by simp only [BitVec.toNat_ofNat]; omega) (by simpa [hrec] using hper)
  refine { hq, h.endCallback hphase with room := roomFor_mono h.room ?_, curHandle := by simp }
  rw [occ_of_cur_none rfl, occ_of_cur_some hc]
  simp [hlive]

/-- Every effect of a well-formed command keeps the invariant. -/
theorem ItemsEffect.keeps_inv {W : Prop} {y : Items} (heff : ItemsEffect W p x y) (hW : W) (hp : p.valid = true)
    (h : x.Inv p) : y.Inv p := by
  cases heff with
  | same => exact h
  | raise f _ => exact { h with faultRange := faultCode_le f }
  | record d _ => exact { h with diagRange := diagCode_le d }
  | insert ft pl r per _ hnow hfits hroom hhandle _ hper => exact h.insertNew pl hnow hfits hroom hhandle (hper hW)
  | pulse c l line _ _ hfits hperiod hroom hhandle =>
    have hle := le_firstAssert hp x.now line.toNat
    have hpos := framePeriod_pos hp
    have hper : 0 < (BitVec.ofNat 64 (framePeriod p)).toNat := by
      simp only [BitVec.toNat_ofNat]
      omega
    have h1 := h.insertNew (.irqAssert c l) (r := true) hle (by omega) (roomFor_mono hroom (by omega)) (by omega) hper
    refine h1.insertNew (.irqClear c l) (r := true) (hle.trans (Nat.le_add_right ..)) hfits
      (roomFor_mono hroom ?_) ?_ hper
    · simp only [Items.occ, length_insertEntry]
      omega
    · simp only
      rw [toNat_add_one (by omega)]
      omega
  | cancelQueued e _ hmem =>
    have hlt := length_removeHandle_lt hmem
    refine { h.queueInv.removeHandle e.handle, h with room := roomFor_mono h.room ?_, curHandle := ?_ }
    · simp only [Items.occ]
      omega
    · intro c hc
      obtain ⟨hpos, hlt, hnot⟩ := h.curHandle c hc
      exact ⟨hpos, hlt, fun x hx => hnot x (mem_removeHandle.1 hx).1⟩
  | cancelFiring c _ hc =>
    refine { h with
      room := roomFor_mono h.room (by simp [Items.occ])
      curIff := by simpa [hc] using h.curIff
      curHandle := ?_, curTime := ?_, curLive := ?_, curPeriod := ?_ }
    all_goals
      rintro _ ⟨⟩
    · exact h.curHandle c hc
    · exact h.curTime c hc
    · simp
    · exact h.curPeriod c hc
  | advance T _ hle hphase =>
    exact { h with
      drainTarget := fun U hU => by obtain rfl := Phase.draining.inj hU; exact hle
      callbackTarget := fun U hU => by simp at hU
      curIff := by simp [h.cur_none hphase] }
  | callbackEnd T c _ hphase _ _ => exact h.endCallback hphase
  | callbackRearm T c _ hphase hc hlive hfits => exact h.endCallback_rearm hphase hc hlive hfits
  | lines a _ => exact { h with }
  | enable e pend _ hpend hkeep =>
    refine { h with primary := rfl, secondary := rfl, pending := fun he => ?_ }
    cases hx : x.secondaryEnabled with
    | false => exact hpend he hx
    | true => exact (hkeep he hx).trans (h.pending hx)
  | busAvailable b _ => exact { h with }

/-! ## What a drain step leaves -/

/-- The end of a drain: time is at the target, which no entry of Q has reached (R106). -/
theorem Items.Inv.endDrain (h : x.Inv p) {T : Word} (hphase : x.phase = .draining T)
    (hlate : ∀ e ∈ x.queue, T.toNat < e.fireTime.toNat) : Items.Inv p { x with now := T, phase := .idle } := by
  have hcur := h.cur_none (by simp [hphase])
  exact { h.queueInv.at_time fun e he => (hlate e he).le, h with
    drainTarget := by simp
    callbackTarget := by simp
    curIff := by simp [hcur]
    curTime := by simp [hcur] }

/-- The due entry of least key leaves Q and time moves to its fire time (R106). -/
theorem Items.Inv.takeDue (h : x.Inv p) {T : Word} {e : Entry} (hphase : x.phase = .draining T) (he : e ∈ x.queue)
    (hdue : e.fireTime.toNat ≤ T.toNat) (hmin : ∀ y ∈ x.queue, ¬ keyLess y e) :
    Items.Inv p { x with queue := removeHandle e.handle x.queue, now := e.fireTime } := by
  have hcur := h.cur_none (by simp [hphase])
  have hq := (h.queueInv.at_time (fireTime_le_of_least hmin)).removeHandle e.handle
  have hlt := length_removeHandle_lt he
  refine { hq, h with
    drainTarget := fun U hU => ?_
    callbackTarget := by simp [hphase]
    room := roomFor_mono h.room ?_
    curHandle := by simp [hcur]
    curTime := by simp [hcur] }
  · obtain rfl := Phase.draining.inj (hphase.symm.trans hU)
    exact hdue
  · simp only [Items.occ]
    omega

/-- The firing of an external event opens its callback (R25, R106). -/
theorem Items.Inv.openCallback (h : x.Inv p) {T : Word} {e : Entry} (hphase : x.phase = .draining T)
    (he : e ∈ x.queue) (hdue : e.fireTime.toNat ≤ T.toNat) (hmin : ∀ y ∈ x.queue, ¬ keyLess y e)
    (hfits : e.recurring = true → rearmTime e < 2 ^ 64) :
    Items.Inv p { x with
      queue := removeHandle e.handle x.queue, now := e.fireTime
      cur := some { entry := e, live := e.recurring }, phase := .callback T } := by
  have hcur := h.cur_none (by simp [hphase])
  have hlt := length_removeHandle_lt he
  refine { h.takeDue hphase he hdue hmin with
    drainTarget := by simp
    callbackTarget := fun U hU => by obtain rfl := Phase.callback.inj hU; exact hdue
    room := roomFor_mono h.room ?_
    curIff := by simp
    curHandle := ?_, curTime := ?_, curLive := ?_, curPeriod := ?_ }
  · rw [occ_of_cur_some rfl, occ_of_cur_none hcur]
    simp only
    split <;> omega
  all_goals
    rintro _ ⟨⟩
  · obtain ⟨hpos, hlt, -⟩ := h.below e he
    exact ⟨hpos, hlt, fun y hy => (mem_removeHandle.1 hy).2⟩
  · rfl
  · exact id
  · intro hrec
    have hper := h.periods e he
    rw [if_pos hrec] at hper
    exact ⟨hper, hfits hrec⟩

/-- The firing of a recurring internal event leaves it in Q at its next time (R106, R111). -/
theorem Items.Inv.fire_rearm (h : x.Inv p) {T : Word} {e : Entry} (hphase : x.phase = .draining T)
    (he : e ∈ x.queue) (hdue : e.fireTime.toNat ≤ T.toNat) (hmin : ∀ y ∈ x.queue, ¬ keyLess y e)
    (hfits : rearmTime e < 2 ^ 64) :
    Items.Inv p { x with
      queue := insertEntry { e with fireTime := BitVec.ofNat 64 (rearmTime e), seq := x.nextSeq }
        (removeHandle e.handle x.queue)
      now := e.fireTime, nextSeq := x.nextSeq + 1 } := by
  have hcur := h.cur_none (by simp [hphase])
  have htaken := h.takeDue hphase he hdue hmin
  obtain ⟨hpos, hlt, -⟩ := h.below e he
  have hper := h.periods e he
  have hle : e.fireTime.toNat ≤ rearmTime e := Nat.le_add_right ..
  have hq := htaken.queueInv.insertEntry
    (e := { e with fireTime := BitVec.ofNat 64 (rearmTime e), seq := x.nextSeq }) le_rfl
    (fun y hy => (mem_removeHandle.1 hy).2) hpos hlt rfl (by simp only [BitVec.toNat_ofNat]; omega) hper
  refine { hq, htaken with room := roomFor_mono h.room ?_, curHandle := by simp [hcur] }
  have hless := length_removeHandle_lt he
  simp only [Items.occ, length_insertEntry]
  omega

end

/-- A drain step keeps the invariant of the items (R106). -/
theorem drainStep_keeps_inv {s : State} {T : Word} (h : s.items.Inv s.cfg) (hphase : s.items.phase = .draining T) :
    (s.drainStep T).items.Inv s.cfg := by
  obtain ⟨hlate, heq⟩ | ⟨e, he, hdue, hmin, ⟨-, -, heq⟩ | ⟨hfits, heq⟩⟩ := drainStep_cases s T
  all_goals rw [heq]
  · exact h.endDrain hphase hlate
  · exact { h with faultRange := faultCode_le _ }
  · obtain ⟨y, -, hitems⟩ | ⟨-, -, hitems⟩ | ⟨-, hrec, hitems⟩ := fireEvent_items s T e
    all_goals rw [hitems]
    · exact h.openCallback hphase he hdue hmin hfits
    · exact { h.takeDue hphase he hdue hmin with }
    · exact { h.fire_rearm hphase he hdue hmin (hfits hrec) with }

/-! ## What a step leaves -/

/-- Rejecting a header is one of the effects a command can have: a diagnostic or nothing (R72, R184). -/
theorem rejectFields_effect (W : Prop) (p : Params) (s : State) (opc : Byte) :
    ItemsEffect W p s.items (s.rejectFields opc).items := by
  obtain h | ⟨hf, h⟩ := rejectFields_items s opc <;> rw [h]
  · exact .same
  · exact .record _ hf

/-- `rejectFields_effect` for an unknown opcode (R73). -/
theorem rejectUnknown_effect (W : Prop) (p : Params) (s : State) (w : HeaderWord) :
    ItemsEffect W p s.items (s.rejectUnknown w).items := by
  obtain h | ⟨hf, h⟩ := rejectUnknown_items s w <;> rw [h]
  · exact .same
  · exact .record _ hf

theorem TakenFrom.items_eq {s s' : State} (h : TakenFrom s s') : s'.items = s.items := by
  rw [TakenFrom] at h
  rw [h]

theorem TakenFrom.inv {s s' : State} (htaken : TakenFrom s s') (h : s.Inv) : s'.Inv := by
  rw [TakenFrom] at htaken
  rw [htaken]
  exact ⟨h.cfg, h.items, h.mem, h.restore⟩

/-- An operation that frames the state keeps the invariant if it keeps the items' and the memory's part of it. -/
theorem State.Inv.of_frame {s t : State} (h : s.Inv) (hframe : Frame s t) (hitems : t.items.Inv s.cfg)
    (hmem : Memory.wf t.mem = true) : t.Inv := by
  refine ⟨?_, ?_, hmem, ?_⟩ <;> rw [hframe.cfg]
  · exact h.cfg
  · exact hitems
  · rw [hframe.hostOp]; exact h.restore

theorem exec_mem_wf {i : Instr} {s t : State} (hexec : exec i s = .next t) (h : Memory.wf s.mem = true) :
    Memory.wf t.mem = true := by
  obtain heq | ⟨a, v, heq⟩ := exec_mem hexec <;> rw [heq]
  · exact h
  · exact memWrite_wf a v h

/-- A well-formed command keeps the invariant. -/
theorem exec_keeps_inv {i : Instr} {s t : State} (h : s.Inv) (hwf : i.wf = true) (hexec : exec i s = .next t) :
    t.Inv :=
  h.of_frame (exec_frame hexec) ((exec_items hexec).keeps_inv hwf h.cfg h.items) (exec_mem_wf hexec h.mem)

/-- A host operation keeps the invariant: the invariant vouches for the tuple of a RESTORE that is accepted (R173). -/
theorem serveHostOp_keeps_inv {s t : State} {op : HostOp} (h : s.Inv) (hop : s.hostOp = some op)
    (hserve : s.serveHostOp op = .next t) : t.Inv := by
  obtain ⟨-, rfl⟩ | ⟨x, rfl, -, hR34, htuple, rfl⟩ := serveHostOp_cases hserve
  · exact ⟨h.cfg, h.items, h.mem, by simp⟩
  · exact ⟨h.cfg, h.restore x hop hR34 htuple, h.mem, by simp⟩

/-- A step beside any environment keeps the invariant. -/
theorem stepWith_keeps_inv {offer : Nat → List PortWord × List PortWord} {s t : State} (h : s.Inv)
    (hstep : stepWith offer s = .next t) : t.Inv := by
  obtain ⟨op, -, hop, -, hserve⟩ | ⟨T, hphase, -, rfl⟩ | ⟨i, s', -, htaken, hwf, hexec⟩ | ⟨opc, s', htaken, rfl⟩ |
    ⟨w, s', htaken, rfl⟩ | ⟨hp, cp, rfl⟩ := stepWith_cases hstep
  · exact serveHostOp_keeps_inv h hop hserve
  · exact h.of_frame (frame_drainStep s T) (drainStep_keeps_inv h.items hphase) (by rw [drainStep_mem]; exact h.mem)
  · exact exec_keeps_inv (htaken.inv h) hwf hexec
  · have h' := htaken.inv h
    exact h'.of_frame (frame_rejectFields s' opc) ((rejectFields_effect True _ s' opc).keeps_inv trivial h'.cfg h'.items)
      (by rw [rejectFields_mem]; exact h'.mem)
  · have h' := htaken.inv h
    exact h'.of_frame (frame_rejectUnknown s' w) ((rejectUnknown_effect True _ s' w).keeps_inv trivial h'.cfg h'.items)
      (by rw [rejectUnknown_mem]; exact h'.mem)
  · exact ⟨h.cfg, h.items, h.mem, h.restore⟩

/-- Settles O58, by the cases of a step. -/
theorem everyStepKeepsTheInvariant : Obligations.EveryStepKeepsTheInvariant := fun _ _ h hstep =>
  stepWith_keeps_inv h hstep

/-! ## Power-on -/

/-- The items at power-on meet the invariant of any configuration: Q is empty, so no slot is in use (R37, R210). -/
theorem powerOn_inv (p : Params) : Items.powerOn.Inv p where
  primary := rfl
  secondary := rfl
  pending := by simp [Items.powerOn]
  notPast := by simp [Items.powerOn]
  drainTarget := by simp [Items.powerOn]
  callbackTarget := by simp [Items.powerOn]
  sorted := .nil
  handles := .nil
  seqs := .nil
  below := by simp [Items.powerOn]
  nextHandlePos := by decide
  room := roomFor_iff.2 fun k _ => Nat.zero_le k
  periods := by simp [Items.powerOn]
  curIff := by simp [Items.powerOn]
  curHandle := by simp [Items.powerOn]
  curTime := by simp [Items.powerOn]
  curLive := by simp [Items.powerOn]
  curPeriod := by simp [Items.powerOn]
  faultRange := by decide
  diagRange := by decide

/-- Settles O57: the configuration of reset is valid whatever the free constants are, and no RESTORE is pending. -/
theorem resetKeepsTheInvariant : Obligations.ResetKeepsTheInvariant :=
  ⟨params_valid, powerOn_inv _, reset_mem_wf, by simp [State.reset, State.initial]⟩

/-- Settles O55: reset is the power-on state, whose history holds the two CPU messages of R210 and no others. -/
theorem powerOnState : Obligations.PowerOnState := ⟨rfl, rfl, rfl, rfl, rfl, rfl⟩

end Sys2Proof.Machine
end

section
/-! PROOFS. What a step takes: the command of the phase's side of the port (R24, R33, R184), the environment's next
offer where no whole command is there (R38, R198), and nothing at all during a drain (R217). -/
namespace Sys2Proof.Machine

/-! ## The two sides of the port -/

section
variable {s : State} {i : Instr} {rest : Port}

theorem takeFromHost_of_command (h : decode s.hostPort = .command i rest) :
    s.takeFromHost = .command i { s with hostPort := rest } := by simp only [State.takeFromHost, h]

theorem takeFromHost_of_incomplete (h : decode s.hostPort = .incomplete) : s.takeFromHost = .wait := by
  simp only [State.takeFromHost, h]

theorem takeFromClient_of_command (h : decode s.clientPort = .command i rest) :
    s.takeFromClient = .command i { s with clientPort := rest } := by simp only [State.takeFromClient, h]

theorem takeFromClient_of_incomplete (h : decode s.clientPort = .incomplete) : s.takeFromClient = .wait := by
  simp only [State.takeFromClient, h]

/-! ## Which side the phase takes commands from -/

theorem takeCommand_of_idle (hp : s.items.phase = .idle) : s.takeCommand = s.takeFromHost := by
  simp only [State.takeCommand, hp]

theorem takeCommand_of_draining_faulted {T : Word} (hp : s.items.phase = .draining T) (hf : s.items.fault ≠ 0) :
    s.takeCommand = s.takeFromHost := by simp only [State.takeCommand, hp, if_neg hf]

theorem takeCommand_of_callback {T : Word} (hp : s.items.phase = .callback T) (hf : s.items.fault = 0) :
    s.takeCommand = s.takeFromClient := by simp only [State.takeCommand, hp, if_pos hf]

/-- In a faulted callback a whole command of the client comes first (log 13). -/
theorem takeCommand_of_callback_faulted_client {T : Word} (hp : s.items.phase = .callback T)
    (hf : s.items.fault ≠ 0) (h : decode s.clientPort = .command i rest) :
    s.takeCommand = .command i { s with clientPort := rest } := by
  simp only [State.takeCommand, hp, if_neg hf, State.takeFromEither, takeFromClient_of_command h]

/-- In a faulted callback the host's side is read where the client has no whole command (log 13). -/
theorem takeCommand_of_callback_faulted_host {T : Word} (hp : s.items.phase = .callback T)
    (hf : s.items.fault ≠ 0) (h : decode s.clientPort = .incomplete) : s.takeCommand = s.takeFromHost := by
  simp only [State.takeCommand, hp, if_neg hf, State.takeFromEither, takeFromClient_of_incomplete h]

/-! ## What the step then is -/

theorem step_of_command {s' : State} (hserve : ∀ op, s.nextAction ≠ .serve op) (h : s.takeCommand = .command i s') :
    step s = exec i s' := by simp only [step, stepWith, nextAction_of_not_served hserve, h]

theorem stepWith_of_wait (offer : Nat → List PortWord × List PortWord) (hserve : ∀ op, s.nextAction ≠ .serve op)
    (h : s.takeCommand = .wait) : stepWith offer s = s.receiveOffer (offer s.offers) := by
  simp only [stepWith, nextAction_of_not_served hserve, h]

theorem not_served_of_draining {T : Word} (hp : s.items.phase = .draining T) (op : HostOp) :
    s.nextAction ≠ .serve op := not_served_of_held (.inr (by simp [hp])) op

theorem not_served_of_callback {T : Word} (hp : s.items.phase = .callback T) (op : HostOp) :
    s.nextAction ≠ .serve op := not_served_of_held (.inr (by simp [hp])) op

end

/-- Settles O4: in each phase the action is the command at the front of the phase's side of the port. -/
theorem stepRunsTheDecodedCommand : Obligations.StepRunsTheDecodedCommand := by
  intro s i rest
  refine ⟨fun hp hserve h => ?_, fun T hp hf h => ?_, fun T hp hf h => ?_, fun T hp hf h => ?_,
    fun T hp hf hclient h => ?_⟩
  · exact step_of_command hserve ((takeCommand_of_idle hp).trans (takeFromHost_of_command h))
  · exact step_of_command (not_served_of_callback hp)
      ((takeCommand_of_callback hp hf).trans (takeFromClient_of_command h))
  · exact step_of_command (not_served_of_draining hp)
      ((takeCommand_of_draining_faulted hp hf).trans (takeFromHost_of_command h))
  · exact step_of_command (not_served_of_callback hp) (takeCommand_of_callback_faulted_client hp hf h)
  · exact step_of_command (not_served_of_callback hp)
      ((takeCommand_of_callback_faulted_host hp hf hclient).trans (takeFromHost_of_command h))

/-- Settles O5: in each of the four situations no host operation is served and the phase's action is the wait, so the
step receives the offer; a silent one leaves TIA standing still. -/
theorem stepWaitsForAWholeCommand : Obligations.StepWaitsForAWholeCommand := by
  refine ⟨fun _ => rfl, fun offer s hwait => ?_⟩
  have hstep : stepWith offer s = s.receiveOffer (offer s.offers) := by
    obtain ⟨hp, hserve, h⟩ | ⟨T, hp, hf, h⟩ | ⟨T, hp, hf, h⟩ | ⟨T, hp, hf, hclient, h⟩ := hwait
    · exact stepWith_of_wait offer hserve ((takeCommand_of_idle hp).trans (takeFromHost_of_incomplete h))
    · exact stepWith_of_wait offer (not_served_of_callback hp)
        ((takeCommand_of_callback hp hf).trans (takeFromClient_of_incomplete h))
    · exact stepWith_of_wait offer (not_served_of_draining hp)
        ((takeCommand_of_draining_faulted hp hf).trans (takeFromHost_of_incomplete h))
    · exact stepWith_of_wait offer (not_served_of_callback hp)
        ((takeCommand_of_callback_faulted_host hp hf hclient).trans (takeFromHost_of_incomplete h))
  rw [hstep]
  obtain ⟨hsilent, heq⟩ | ⟨hwords, heq⟩ := receiveOffer_cases s (offer s.offers) <;> rw [heq]
  · exact ⟨fun _ hheld => standStill_of_held hheld, fun _ t => standStill_ne_next s t, fun hne => absurd hsilent hne⟩
  · exact ⟨fun h => absurd h hwords, fun h => absurd h hwords, fun _ => rfl⟩

/-! ## A drain looks at no offer -/

/-- `s` with other contents of the command port and another pending host operation. -/
def State.withOffers (s : State) (hp cp : Port) (op : Option HostOp) : State :=
  { s with hostPort := hp, clientPort := cp, hostOp := op }

section
variable (s : State) (hp cp : Port) (op : Option HostOp)

theorem lineAssert_withOffers (c l : Fin 2) :
    (s.withOffers hp cp op).lineAssert c l = (s.lineAssert c l).withOffers hp cp op := by
  rw [State.lineAssert, State.lineAssert, apply_ite (State.withOffers · hp cp op)]
  rfl

theorem lineClear_withOffers (c l : Fin 2) :
    (s.withOffers hp cp op).lineClear c l = (s.lineClear c l).withOffers hp cp op := by
  rw [State.lineClear, State.lineClear, apply_ite (State.withOffers · hp cp op)]
  rfl

theorem rearm_withOffers (e : Entry) : (s.withOffers hp cp op).rearm e = (s.rearm e).withOffers hp cp op := rfl

/-- The state in which a firing performs its payload: the entry has left Q and time is at its fire time (R106). -/
def State.takeDue (s : State) (e : Entry) : State :=
  { s with items.queue := removeHandle e.handle s.items.queue, items.now := e.fireTime }

theorem takeDue_withOffers (e : Entry) : (s.withOffers hp cp op).takeDue e = (s.takeDue e).withOffers hp cp op := rfl

theorem fireEvent_of_ext (T : Word) {e : Entry} {y : Word} (h : e.payload = .ext y) :
    s.fireEvent T e = State.emit
      { s.takeDue e with items.cur := some { entry := e, live := e.recurring }, items.phase := .callback T }
      (.fire e.handle y e.fireTime) := by
  simp only [State.fireEvent, h]
  rfl

theorem fireEvent_of_irqAssert (T : Word) {e : Entry} {c l : Fin 2} (h : e.payload = .irqAssert c l) :
    s.fireEvent T e =
      if e.recurring then ((s.takeDue e).lineAssert c l).rearm e else (s.takeDue e).lineAssert c l := by
  simp only [State.fireEvent, h]
  rfl

theorem fireEvent_of_irqClear (T : Word) {e : Entry} {c l : Fin 2} (h : e.payload = .irqClear c l) :
    s.fireEvent T e =
      if e.recurring then ((s.takeDue e).lineClear c l).rearm e else (s.takeDue e).lineClear c l := by
  simp only [State.fireEvent, h]
  rfl

theorem fireEvent_withOffers (T : Word) (e : Entry) :
    (s.withOffers hp cp op).fireEvent T e = (s.fireEvent T e).withOffers hp cp op := by
  cases h : e.payload with
  | ext y =>
    rw [fireEvent_of_ext _ T h, fireEvent_of_ext _ T h]
    rfl
  | irqAssert c l =>
    rw [fireEvent_of_irqAssert _ T h, fireEvent_of_irqAssert _ T h, takeDue_withOffers, lineAssert_withOffers,
      rearm_withOffers, apply_ite (State.withOffers · hp cp op)]
  | irqClear c l =>
    rw [fireEvent_of_irqClear _ T h, fireEvent_of_irqClear _ T h, takeDue_withOffers, lineClear_withOffers,
      rearm_withOffers, apply_ite (State.withOffers · hp cp op)]

/-- A drain step neither reads nor writes what is offered. -/
theorem drainStep_withOffers (T : Word) :
    (s.withOffers hp cp op).drainStep T = (s.drainStep T).withOffers hp cp op := by
  have hqueue : (s.withOffers hp cp op).items.queue = s.items.queue := rfl
  unfold State.drainStep
  rw [hqueue]
  cases minKey (dueEntries T s.items.queue) with
  | none => rfl
  | some e =>
    simp only [fireEvent_withOffers]
    split <;> rfl

end

/-- Settles O8: the step of a drain is the drain step, which commutes with exchanging the offers. -/
theorem offersAreHeldWhileDraining : Obligations.OffersAreHeldWhileDraining := by
  intro s T hp cp op hphase hfault
  have hother : step (s.withOffers hp cp op) = .next ((s.withOffers hp cp op).drainStep T) :=
    step_of_draining hphase hfault
  rw [drainStep_withOffers] at hother
  exact ⟨s.drainStep T, step_of_draining hphase hfault, hother⟩

end Sys2Proof.Machine
end

section
/-! PROOFS. Time moves only in drain steps and never back (R26); a handle that is no longer valid stays so (R23,
R35). -/
namespace Sys2Proof.Machine

/-! ## Time -/

section
variable {W : Prop} {p : Params} {x y : Items}

/-- No effect of a command moves time. -/
theorem ItemsEffect.now_eq (heff : ItemsEffect W p x y) : y.now = x.now := by cases heff <;> rfl

end

/-- A drain step moves time to the target or to the fire time of an entry of Q, or leaves it. -/
theorem drainStep_now (s : State) (T : Word) : (s.drainStep T).items.now = T ∨
    (s.drainStep T).items.now = s.items.now ∨ ∃ e ∈ s.items.queue, (s.drainStep T).items.now = e.fireTime := by
  obtain ⟨-, heq⟩ | ⟨e, he, -, -, ⟨-, -, heq⟩ | ⟨-, heq⟩⟩ := drainStep_cases s T
  · exact .inl (by rw [heq])
  · exact .inr (.inl (by rw [heq]; rfl))
  · refine .inr (.inr ⟨e, he, ?_⟩)
    obtain ⟨y, -, hitems⟩ | ⟨-, -, hitems⟩ | ⟨-, -, hitems⟩ := fireEvent_items s T e <;> rw [heq, hitems]

/-- A step in which no RESTORE is served is a drain step, or does to the state items what a command can do. -/
theorem step_items_cases {s t : State} (hserve : ∀ x, s.nextAction ≠ .serve (.restore x))
    (hstep : step s = .next t) :
    (∃ T, s.items.phase = .draining T ∧ s.items.fault = 0 ∧ t = s.drainStep T) ∨
      ItemsEffect True s.cfg s.items t.items := by
  obtain ⟨op, hact, -, -, hop⟩ | hdrain | ⟨i, s', -, htaken, hwf, hexec⟩ | ⟨opc, s', htaken, rfl⟩ |
    ⟨w, s', htaken, rfl⟩ | ⟨hp, cp, rfl⟩ := step_cases hstep
  · obtain ⟨-, rfl⟩ | ⟨x, rfl, -⟩ := serveHostOp_cases hop
    · exact .inr .same
    · exact absurd hact (hserve x)
  · exact .inl hdrain
  · have heff := exec_items hexec
    rw [htaken.items_eq, htaken.cfg_eq, hwf] at heff
    exact .inr (by simpa using heff)
  · rw [← htaken.items_eq]
    exact .inr (rejectFields_effect ..)
  · rw [← htaken.items_eq]
    exact .inr (rejectUnknown_effect ..)
  · exact .inr .same

/-- Settles O28: no effect of a command moves time, and a drain step moves it to the target or to an entry's fire time,
neither of which is past under the invariant. -/
theorem nowNeverDecreases : Obligations.NowNeverDecreases := by
  refine ⟨fun i s t hexec => (exec_items hexec).now_eq, fun s t hserve hidle hstep => ?_,
    fun s t hinv hserve hstep => ?_⟩
  · obtain ⟨T, hp, hf, -⟩ | heff := step_items_cases hserve hstep
    · exact absurd hf (hidle T hp)
    · exact heff.now_eq
  · obtain ⟨T, hp, -, rfl⟩ | heff := step_items_cases hserve hstep
    · obtain hnow | hnow | ⟨e, he, hnow⟩ := drainStep_now s T <;> rw [hnow]
      · exact hinv.items.drainTarget T hp
      · exact hinv.items.notPast e he
    · rw [heff.now_eq]

/-! ## Handles -/

/-- `h` is valid in `x`, or not issued yet (R23, R35). -/
def Items.ValidOrUnissued (x : Items) (h : Word) : Prop := x.validHandle h = true ∨ x.nextHandle.toNat ≤ h.toNat

/-- Between `x` and `y` the handle counter does not go back, and whatever is valid in `y` was valid in `x` or not
issued there. -/
structure Items.KeepsStale (x y : Items) : Prop where
  counter : x.nextHandle.toNat ≤ y.nextHandle.toNat
  valid : ∀ h, y.validHandle h = true → x.ValidOrUnissued h

section
variable {x y : Items}

theorem validOrUnissued_of_mem {e : Entry} (he : e ∈ x.queue) : x.ValidOrUnissued e.handle :=
  .inl ((validHandle_iff ..).2 (.inl ⟨e, he, rfl⟩))

theorem validOrUnissued_of_cur {c : CurEvent} (hc : x.cur = some c) (hlive : c.live = true) :
    x.ValidOrUnissued c.entry.handle :=
  .inl ((validHandle_iff ..).2 (.inr ⟨c, hc, hlive, rfl⟩))

theorem validOrUnissued_nextHandle (x : Items) : x.ValidOrUnissued x.nextHandle := .inr le_rfl

/-- It is enough to look at the entries of Q and at a live current event (R35). -/
theorem Items.KeepsStale.of_entries (hcounter : x.nextHandle.toNat ≤ y.nextHandle.toNat)
    (hqueue : ∀ e ∈ y.queue, x.ValidOrUnissued e.handle)
    (hcur : ∀ c, y.cur = some c → c.live = true → x.ValidOrUnissued c.entry.handle) : x.KeepsStale y := by
  refine ⟨hcounter, fun h hvalid => ?_⟩
  obtain ⟨e, he, rfl⟩ | ⟨c, hc, hlive, rfl⟩ := (validHandle_iff y h).1 hvalid
  · exact hqueue e he
  · exact hcur c hc hlive

/-- With the current event as it was it is enough to look at the entries of Q. -/
theorem Items.KeepsStale.of_queue (hcounter : x.nextHandle.toNat ≤ y.nextHandle.toNat) (hcur : y.cur = x.cur)
    (hqueue : ∀ e ∈ y.queue, x.ValidOrUnissued e.handle) : x.KeepsStale y :=
  .of_entries hcounter hqueue fun _ hc => validOrUnissued_of_cur (hcur ▸ hc)

/-- No effect of a command makes a stale handle valid: what enters Q has a handle not issued before, or is the live
current event (R22, R110). -/
theorem ItemsEffect.keepsStale {W : Prop} {p : Params} (heff : ItemsEffect W p x y) : x.KeepsStale y := by
  cases heff with
  | insert ft pl r per _ _ _ _ hhandle =>
    refine .of_queue (by simp only [toNat_add_one hhandle]; omega) rfl fun e he => ?_
    obtain rfl | he := mem_insertEntry.1 he
    · exact validOrUnissued_nextHandle x
    · exact validOrUnissued_of_mem he
  | pulse c l line _ _ _ _ _ hhandle =>
    have hnext : (x.nextHandle + 1).toNat = x.nextHandle.toNat + 1 := toNat_add_one (by omega)
    have hnext' : (x.nextHandle + 1 + 1).toNat = (x.nextHandle + 1).toNat + 1 := toNat_add_one (by omega)
    refine .of_queue (by simp only; omega) rfl fun e he => ?_
    simp only [mem_insertEntry] at he
    obtain rfl | rfl | he := he
    · exact .inr (by simp only; omega)
    · exact validOrUnissued_nextHandle x
    · exact validOrUnissued_of_mem he
  | cancelQueued e _ _ =>
    exact .of_queue le_rfl rfl fun e he => validOrUnissued_of_mem (mem_removeHandle.1 he).1
  | cancelFiring c _ _ =>
    refine .of_entries le_rfl (fun e he => validOrUnissued_of_mem he) ?_
    rintro _ ⟨⟩ hlive
    simp at hlive
  | callbackEnd T c _ _ _ _ => exact .of_entries le_rfl (fun e he => validOrUnissued_of_mem he) (by simp)
  | callbackRearm T c _ _ hc hlive _ =>
    refine .of_entries le_rfl (fun e he => ?_) (by simp)
    obtain rfl | he := mem_insertEntry.1 he
    · exact validOrUnissued_of_cur hc hlive
    · exact validOrUnissued_of_mem he
  | same | raise | record | advance | lines | enable | busAvailable =>
    exact .of_queue le_rfl rfl fun e he => validOrUnissued_of_mem he

end

/-- Nor does a drain step: an event that fires comes from Q and keeps its handle (R106, R111). -/
theorem drainStep_keepsStale (s : State) (T : Word) : s.items.KeepsStale (s.drainStep T).items := by
  obtain ⟨-, heq⟩ | ⟨e, he, -, -, ⟨-, -, heq⟩ | ⟨-, heq⟩⟩ := drainStep_cases s T
  all_goals rw [heq]
  · exact .of_queue le_rfl rfl fun x hx => validOrUnissued_of_mem hx
  · exact .of_queue le_rfl rfl fun x hx => validOrUnissued_of_mem hx
  · have hfired : s.items.ValidOrUnissued e.handle := validOrUnissued_of_mem he
    obtain ⟨y, -, hitems⟩ | ⟨-, -, hitems⟩ | ⟨-, -, hitems⟩ := fireEvent_items s T e
    all_goals rw [hitems]
    · refine .of_entries le_rfl (fun x hx => validOrUnissued_of_mem (mem_removeHandle.1 hx).1) ?_
      rintro _ ⟨⟩ -
      exact hfired
    · exact .of_queue le_rfl rfl fun x hx => validOrUnissued_of_mem (mem_removeHandle.1 hx).1
    · refine .of_queue le_rfl rfl fun x hx => ?_
      obtain rfl | hx := mem_insertEntry.1 hx
      · exact hfired
      · exact validOrUnissued_of_mem (mem_removeHandle.1 hx).1

/-- Settles O29: an issued handle that is valid after the step was valid before it. -/
theorem staleHandlesStayStale : Obligations.StaleHandlesStayStale := by
  intro s t h hserve hstep hissued hstale
  have hkeeps : s.items.KeepsStale t.items := by
    obtain ⟨T, -, -, rfl⟩ | heff := step_items_cases hserve hstep
    · exact drainStep_keepsStale s T
    · exact heff.keepsStale
  refine ⟨hkeeps.counter, Bool.eq_false_iff.2 fun hvalid => ?_⟩
  obtain hvalid | hunissued := hkeeps.valid h hvalid
  · simp [hstale] at hvalid
  · omega

end Sys2Proof.Machine
end

section
/-! PROOFS. Interrupt lines keep no count of their asserts (R28, R137). -/
namespace Sys2Proof.Machine

section
variable {s : State} {c l : Byte} {i j : Fin 2}

/-- Ids in range name their line (R138). -/
theorem lineOf_eq_some (hc : c.toNat = i.val) (hl : l.toNat = j.val) : lineOf c l = some (i, j) := by
  cases h : lineOf c l with
  | none =>
    have := lineOf_none.1 h
    omega
  | some ij =>
    obtain ⟨h1, h2⟩ := lineOf_some h
    exact congrArg some (Prod.ext (Fin.ext (h1.trans hc)) (Fin.ext (h2.trans hl)))

theorem exec_irqSet_eq (hf : s.items.fault = 0) (hc : c.toNat = i.val) (hl : l.toNat = j.val) :
    exec (.irqSet c l) s = .next (s.lineAssert i j) := by
  simp only [exec, execIrqSet, unlessFaulted_of_unfaulted _ hf, State.onLine, lineOf_eq_some hc hl]

theorem exec_irqClr_eq (hf : s.items.fault = 0) (hc : c.toNat = i.val) (hl : l.toNat = j.val) :
    exec (.irqClr c l) s = .next (s.lineClear i j) := by
  simp only [exec, execIrqClr, unlessFaulted_of_unfaulted _ hf, State.onLine, lineOf_eq_some hc hl]

/-- A second assert of a line is coalesced (R134). -/
theorem lineAssert_lineAssert (s : State) (i j : Fin 2) : (s.lineAssert i j).lineAssert i j = s.lineAssert i j := by
  have hset : (s.lineAssert i j).items.line i j = true := by simp [line_lineAssert]
  rw [State.lineAssert, if_pos hset]

/-- One or more IRQ.SETs of a line do what one LineAssert does. -/
theorem execAll_replicate_irqSet (hf : s.items.fault = 0) (hc : c.toNat = i.val) (hl : l.toNat = j.val) (n : Nat)
    (is : List Instr) :
    execAll (List.replicate (n + 1) (.irqSet c l) ++ is) s = execAll is (s.lineAssert i j) := by
  induction n generalizing s with
  | zero => simp only [Nat.zero_add, List.replicate_one, List.singleton_append, execAll, exec_irqSet_eq hf hc hl]
  | succ n ih =>
    have hf' : (s.lineAssert i j).items.fault = 0 := by simpa using hf
    rw [List.replicate_succ, List.cons_append, execAll, exec_irqSet_eq hf hc hl]
    simp only [ih hf', lineAssert_lineAssert]

theorem execAll_irqClr (hf : s.items.fault = 0) (hc : c.toNat = i.val) (hl : l.toNat = j.val) :
    execAll [.irqClr c l] s = .next (s.lineClear i j) := by
  simp only [execAll, exec_irqClr_eq hf hc hl]

theorem lineAssert_history (s : State) (i j : Fin 2) : (s.lineAssert i j).history = s.history ++
    (if s.items.line i j = true then [] else [.cpu (.assertLine i j) s.items.now]) := by rw [lineAssert_eq]

theorem lineClear_history (s : State) (i j : Fin 2) : (s.lineClear i j).history = s.history ++
    (if s.items.line i j = false then [] else [.cpu (.clearLine i j) s.items.now]) := by rw [lineClear_eq]

end

/-- Settles O36, by the number of IRQ.SETs: without one the line is cleared as it stands; more do what one does. -/
theorem oneClearUndoesAnyNumberOfAsserts : Obligations.OneClearUndoesAnyNumberOfAsserts := by
  intro n s c l i j hf hc hl
  cases n with
  | zero =>
    refine ⟨s.lineClear i j, execAll_irqClr hf hc hl, fun i' j' => ?_, ?_⟩
    · simp only [line_lineClear, eq_comm]
    · cases h : s.items.line i j <;> simp [lineClear_history, h]
  | succ n =>
    have hf' : (s.lineAssert i j).items.fault = 0 := by simpa using hf
    refine ⟨(s.lineAssert i j).lineClear i j, ?_, fun i' j' => ?_, ?_⟩
    · rw [execAll_replicate_irqSet hf hc hl, execAll_irqClr hf' hc hl]
    · simp only [line_lineClear, line_lineAssert, eq_comm (a := i), eq_comm (a := j)]
      split <;> rfl
    · cases h : s.items.line i j <;> simp [lineClear_history, lineAssert_history, line_lineAssert, h]

end Sys2Proof.Machine
end

section
/-! PROOFS. The shared memory is touched by ARB.RD and ARB.WR alone, one recorded access each (R54). -/
namespace Sys2Proof.Machine

/-! ## The record of accesses -/

/-- A message that `State.busRecord` keeps: a MemRead or a MemWrite (R54). -/
def Msg.isAccess : Msg → Bool
  | .memRead _ _ => true
  | .memWrite _ _ => true
  | _ => false

theorem busRecord_eq_filter (s : State) : s.busRecord = s.history.filter Msg.isAccess := by
  refine congrArg (List.filter · s.history) (funext fun m => ?_)
  cases m <;> rfl

theorem busRecord_of_append {s t : State} {new : List Msg} (h : t.history = s.history ++ new) :
    t.busRecord = s.busRecord ++ new.filter Msg.isAccess := by
  rw [busRecord_eq_filter, busRecord_eq_filter, h, List.filter_append]

theorem filter_isAccess_resp (ws : List Word) : (ws.map Msg.resp).filter Msg.isAccess = [] := by
  simp [Msg.isAccess]

@[simp] theorem busRecord_respond (s : State) (ws : List Word) : (s.respond ws).busRecord = s.busRecord := by
  rw [busRecord_of_append (respond_history s ws), filter_isAccess_resp, List.append_nil]

@[simp] theorem busRecord_memRead (s : State) (a : Address) :
    (s.memRead a).busRecord = s.busRecord ++ [.memRead a (s.memAnswer a)] :=
  busRecord_of_append (memRead_history s a)

@[simp] theorem busRecord_memWrite (s : State) (a : Address) (v : Byte) :
    (s.memWrite a v).busRecord = s.busRecord ++ [.memWrite a v] :=
  busRecord_of_append (memWrite_history s a v)

/-! ## Operations that access nothing -/

/-- Between `s` and `t` no byte is stored, no read is answered and no access is recorded. -/
structure KeepsMemory (s t : State) : Prop where
  mem : t.mem = s.mem
  memReads : t.memReads = s.memReads
  busRecord : t.busRecord = s.busRecord

theorem KeepsMemory.refl (s : State) : KeepsMemory s s := ⟨rfl, rfl, rfl⟩

theorem KeepsMemory.trans {s t u : State} (h1 : KeepsMemory s t) (h2 : KeepsMemory t u) : KeepsMemory s u :=
  ⟨h2.mem.trans h1.mem, h2.memReads.trans h1.memReads, h2.busRecord.trans h1.busRecord⟩

/-- Sending any message but the record of an access leaves memory and record alone. -/
theorem KeepsMemory.of_message {s t : State} {m : Msg} (hmem : t.mem = s.mem) (hreads : t.memReads = s.memReads)
    (hhistory : t.history = s.history ++ [m]) (hm : m.isAccess = false) : KeepsMemory s t :=
  ⟨hmem, hreads, by simp [busRecord_of_append hhistory, hm]⟩

section
variable (s : State)

theorem keepsMemory_items (x : Items) : KeepsMemory s { s with items := x } := ⟨rfl, rfl, rfl⟩

theorem keepsMemory_respond (ws : List Word) : KeepsMemory s (s.respond ws) := ⟨rfl, rfl, busRecord_respond s ws⟩

theorem keepsMemory_emit {m : Msg} (hm : m.isAccess = false) : KeepsMemory s (s.emit m) :=
  .of_message rfl rfl rfl hm

theorem keepsMemory_emitCpu (m : CpuMsg) : KeepsMemory s (s.emitCpu m) := keepsMemory_emit s rfl

theorem keepsMemory_raiseFault (f : FaultCode) (opc : Byte) : KeepsMemory s (s.raiseFault f opc) :=
  .of_message rfl rfl (raiseFault_history s f opc) rfl

theorem keepsMemory_recordDiag (d : DiagCode) (opc : Byte) : KeepsMemory s (s.recordDiag d opc) :=
  .of_message rfl rfl (recordDiag_history s d opc) rfl

theorem keepsMemory_rearm (e : Entry) : KeepsMemory s (s.rearm e) := keepsMemory_items s _

theorem keepsMemory_insertNew (ft : Nat) (pl : Payload) (r : Bool) (p : Word) :
    KeepsMemory s (s.insertNew ft pl r p) := keepsMemory_items s _

theorem keepsMemory_installResetVector : KeepsMemory s s.installResetVector :=
  (keepsMemory_emitCpu s _).trans (keepsMemory_items _ _)

theorem keepsMemory_lineAssert (c l : Fin 2) : KeepsMemory s (s.lineAssert c l) := by
  unfold State.lineAssert
  split
  · exact .refl s
  · exact (keepsMemory_items s _).trans (keepsMemory_emitCpu _ _)

theorem keepsMemory_lineClear (c l : Fin 2) : KeepsMemory s (s.lineClear c l) := by
  unfold State.lineClear
  split
  · exact (keepsMemory_items s _).trans (keepsMemory_emitCpu _ _)
  · exact .refl s

/-- The end of ARB.EN and ARB.RST: the halt bits and their two messages (R152). -/
theorem keepsMemory_swapHalts (e : Bool) : KeepsMemory s ((s.setEnabled e).haltSwapOutputs e) := by
  have hbits : KeepsMemory s (s.setEnabled e) := keepsMemory_items s _
  refine hbits.trans ?_
  unfold State.haltSwapOutputs
  split <;> exact (keepsMemory_emitCpu _ _).trans (keepsMemory_emitCpu _ _)

variable {s}

theorem keepsMemory_unlessFaulted {f : State → State} (h : KeepsMemory s (f s)) :
    KeepsMemory s (s.unlessFaulted f) := by
  unfold State.unlessFaulted
  split
  · exact h
  · exact .refl s

theorem keepsMemory_onLine {opc c l : Byte} {f : State → Fin 2 → Fin 2 → State}
    (h : ∀ i j, KeepsMemory s (f s i j)) : KeepsMemory s (s.onLine opc c l f) := by
  unfold State.onLine
  split
  · exact keepsMemory_raiseFault ..
  · exact h ..

end

/-! ## Commands -/

section
variable (s : State)

theorem keepsMemory_schedule (absolute : Bool) (t : Int) (recurring : Bool) (p : Int) (y : Word) :
    KeepsMemory s (s.schedule absolute t recurring p y) := by
  unfold State.schedule
  split
  · exact (keepsMemory_recordDiag ..).trans (keepsMemory_respond ..)
  iterate 4
    split
    · exact keepsMemory_raiseFault ..
  exact (keepsMemory_insertNew ..).trans (keepsMemory_respond ..)

theorem keepsMemory_cancelHandle (h : Word) : KeepsMemory s (s.cancelHandle h) := by
  unfold State.cancelHandle
  split
  · exact keepsMemory_items ..
  · exact keepsMemory_items ..
  · exact keepsMemory_recordDiag ..

theorem keepsMemory_advanceTo (t : Word) : KeepsMemory s (s.advanceTo t) := by
  unfold State.advanceTo
  split
  · exact keepsMemory_raiseFault ..
  all_goals
    split
    · exact keepsMemory_recordDiag ..
    · exact keepsMemory_items ..

theorem keepsMemory_endCallback (T : Word) (c : CurEvent) : KeepsMemory s (s.endCallback T c) := by
  unfold State.endCallback
  split
  · split
    · exact keepsMemory_raiseFault ..
    · exact (keepsMemory_rearm ..).trans (keepsMemory_items ..)
  · exact keepsMemory_items ..

theorem keepsMemory_queryHandle (h : Word) : KeepsMemory s (s.queryHandle h) := by
  unfold State.queryHandle
  split <;> exact keepsMemory_respond ..

theorem keepsMemory_pulse (c l : Fin 2) (line : Word) : KeepsMemory s (s.pulse c l line) := by
  unfold State.pulse
  iterate 4
    split
    · exact keepsMemory_raiseFault ..
  exact ((keepsMemory_insertNew ..).trans (keepsMemory_insertNew ..)).trans (keepsMemory_respond ..)

theorem keepsMemory_arbEnable (e : Bool) : KeepsMemory s (s.arbEnable e) := by
  unfold State.arbEnable
  refine .trans ?_ (keepsMemory_swapHalts ..)
  split
  · exact keepsMemory_installResetVector s
  · exact .refl s

theorem keepsMemory_arbReset : KeepsMemory s s.arbReset :=
  (keepsMemory_items ..).trans (keepsMemory_swapHalts ..)

/-- ARB.RD makes one MemRead, or none where it faults or answers beside a diagnostic (R155). -/
theorem arbRead_access (c : Byte) (a : Word) : KeepsMemory s (s.arbRead c a) ∨
    ∃ a', s.arbRead c a = (s.memRead a').respond [(s.memAnswer a').zeroExtend 64] := by
  unfold State.arbRead
  split
  · exact .inl (keepsMemory_raiseFault ..)
  split
  · exact .inl ((keepsMemory_recordDiag ..).trans (keepsMemory_respond ..))
  split
  · exact .inl ((keepsMemory_recordDiag ..).trans (keepsMemory_respond ..))
  · exact .inr ⟨_, rfl⟩

/-- ARB.WR makes one MemWrite, or none where it faults or records a diagnostic (R156). -/
theorem arbWrite_access (c : Byte) (a d : Word) : KeepsMemory s (s.arbWrite c a d) ∨
    ∃ a' v, s.arbWrite c a d = s.memWrite a' v := by
  unfold State.arbWrite
  split
  · exact .inl (keepsMemory_raiseFault ..)
  iterate 3
    split
    · exact .inl (keepsMemory_recordDiag ..)
  exact .inr ⟨_, _, rfl⟩

end

section
variable {s t : State}

theorem keepsMemory_of_next {u : State} (h : (.next u : Result) = .next t) (hu : KeepsMemory s u) :
    KeepsMemory s t := by
  obtain rfl := Host.Outcome.next.inj h
  exact hu

theorem keepsMemory_of_gated {f : State → State} (h : (.next (s.unlessFaulted f) : Result) = .next t)
    (hf : KeepsMemory s (f s)) : KeepsMemory s t := keepsMemory_of_next h (keepsMemory_unlessFaulted hf)

/-- A command behind the fault gate is ignored or does what its body does (R184). -/
theorem gated_next_cases {f : State → State} (h : (.next (s.unlessFaulted f) : Result) = .next t) :
    KeepsMemory s t ∨ t = f s := by
  obtain rfl := Host.Outcome.next.inj h
  by_cases hf : s.items.fault = 0
  · exact .inr (unlessFaulted_of_unfaulted f hf)
  · exact .inl (by rw [unlessFaulted_of_faulted f hf]; exact .refl s)

theorem keepsMemory_execCbdone (h : execCbdone s = .next t) : KeepsMemory s t := by
  unfold execCbdone State.callbackDone at h
  split at h
  · split at h
    · split at h
      · exact keepsMemory_of_next h (keepsMemory_endCallback ..)
      · simp at h
    · exact keepsMemory_of_next h (keepsMemory_recordDiag ..)
    · exact keepsMemory_of_next h (keepsMemory_recordDiag ..)
  · exact keepsMemory_of_next h (.refl s)

/-- What the meaning of a command does to the shared memory: nothing, or the one access of ARB.RD or ARB.WR (R54). -/
theorem exec_access {i : Instr} (h : exec i s = .next t) : KeepsMemory s t ∨
    (∃ c a a', i = .arbRd c a ∧ t = (s.memRead a').respond [(s.memAnswer a').zeroExtend 64]) ∨
    ∃ c a d a' v, i = .arbWr c a d ∧ t = s.memWrite a' v := by
  cases i with
  | nop => exact .inl (keepsMemory_of_next h (.refl s))
  | status => exact .inl (keepsMemory_of_next h (keepsMemory_respond ..))
  | sched => exact .inl (keepsMemory_of_gated h (keepsMemory_schedule ..))
  | cancel => exact .inl (keepsMemory_of_gated h (keepsMemory_cancelHandle ..))
  | advance => exact .inl (keepsMemory_of_gated h (keepsMemory_advanceTo ..))
  | cbdone => exact .inl (keepsMemory_execCbdone h)
  | rdnow => exact .inl (keepsMemory_of_gated h (keepsMemory_respond ..))
  | query => exact .inl (keepsMemory_of_gated h (keepsMemory_queryHandle ..))
  | rdscan => exact .inl (keepsMemory_of_gated h (keepsMemory_respond ..))
  | irqSet => exact .inl (keepsMemory_of_gated h (keepsMemory_onLine fun _ _ => keepsMemory_lineAssert ..))
  | irqClr => exact .inl (keepsMemory_of_gated h (keepsMemory_onLine fun _ _ => keepsMemory_lineClear ..))
  | irqPer => exact .inl (keepsMemory_of_gated h (keepsMemory_onLine fun _ _ => keepsMemory_pulse ..))
  | irqRd => exact .inl (keepsMemory_of_gated h (keepsMemory_onLine fun _ _ => keepsMemory_respond ..))
  | arbEn => exact .inl (keepsMemory_of_gated h (keepsMemory_arbEnable ..))
  | arbRst => exact .inl (keepsMemory_of_gated h (keepsMemory_arbReset s))
  | arbBa => exact .inl (keepsMemory_of_gated h (keepsMemory_items ..))
  | arbRd c a =>
    obtain hkeeps | ⟨a', heq⟩ := arbRead_access s c a
    · exact .inl (keepsMemory_of_gated h hkeeps)
    · exact (gated_next_cases h).imp_right fun ht => .inl ⟨c, a, a', rfl, ht.trans heq⟩
  | arbWr c a d =>
    obtain hkeeps | ⟨a', v, heq⟩ := arbWrite_access s c a d
    · exact .inl (keepsMemory_of_gated h hkeeps)
    · exact (gated_next_cases h).imp_right fun ht => .inr ⟨c, a, d, a', v, rfl, ht.trans heq⟩
  | arbRds => exact .inl (keepsMemory_of_gated h (keepsMemory_respond ..))

/-- A command other than ARB.RD and ARB.WR accesses nothing. -/
theorem exec_keepsMemory {i : Instr} (hrd : ∀ c a, i ≠ .arbRd c a) (hwr : ∀ c a d, i ≠ .arbWr c a d)
    (h : exec i s = .next t) : KeepsMemory s t := by
  obtain hkeeps | ⟨c, a, -, hi, -⟩ | ⟨c, a, d, -, -, hi, -⟩ := exec_access h
  · exact hkeeps
  · exact absurd hi (hrd c a)
  · exact absurd hi (hwr c a d)

end

/-! ## Every other step -/

theorem keepsMemory_fireEvent (s : State) (T : Word) (e : Entry) : KeepsMemory s (s.fireEvent T e) := by
  have htake : KeepsMemory s (s.takeDue e) := keepsMemory_items ..
  cases h : e.payload with
  | ext y =>
    rw [fireEvent_of_ext s T h]
    exact htake.trans ((keepsMemory_items ..).trans (keepsMemory_emit _ rfl))
  | irqAssert c l =>
    have hline := htake.trans (keepsMemory_lineAssert _ c l)
    rw [fireEvent_of_irqAssert s T h]
    split
    · exact hline.trans (keepsMemory_rearm ..)
    · exact hline
  | irqClear c l =>
    have hline := htake.trans (keepsMemory_lineClear _ c l)
    rw [fireEvent_of_irqClear s T h]
    split
    · exact hline.trans (keepsMemory_rearm ..)
    · exact hline

theorem keepsMemory_drainStep (s : State) (T : Word) : KeepsMemory s (s.drainStep T) := by
  obtain ⟨-, heq⟩ | ⟨e, -, -, -, ⟨-, -, heq⟩ | ⟨-, heq⟩⟩ := drainStep_cases s T <;> rw [heq]
  · exact .of_message (m := .done T) rfl rfl rfl rfl
  · exact keepsMemory_raiseFault ..
  · exact keepsMemory_fireEvent ..

theorem keepsMemory_rejectFields (s : State) (opc : Byte) : KeepsMemory s (s.rejectFields opc) := by
  refine keepsMemory_unlessFaulted ?_
  split
  · exact (keepsMemory_recordDiag ..).trans (keepsMemory_respond ..)
  · exact keepsMemory_recordDiag ..

theorem keepsMemory_rejectUnknown (s : State) (w : HeaderWord) : KeepsMemory s (s.rejectUnknown w) :=
  keepsMemory_unlessFaulted (keepsMemory_recordDiag ..)

/-- Neither a SNAPSHOT nor a RESTORE accesses the shared memory (R173). -/
theorem keepsMemory_serveHostOp {s t : State} {op : HostOp} (h : s.serveHostOp op = .next t) : KeepsMemory s t := by
  obtain ⟨-, rfl⟩ | ⟨x, -, -, -, -, rfl⟩ := serveHostOp_cases h
  · exact .of_message (m := .snapshot s.items) rfl rfl rfl rfl
  · exact ⟨rfl, rfl, rfl⟩

theorem TakenFrom.keepsMemory {s s' : State} (h : TakenFrom s s') : KeepsMemory s s' := by
  rw [TakenFrom] at h
  rw [h]
  exact ⟨rfl, rfl, rfl⟩

/-- A step that runs neither ARB.RD nor ARB.WR accesses nothing (R54). -/
theorem step_keepsMemory {s t : State} (h : step s = .next t)
    (hrd : ∀ c a s', s.nextAction ≠ .command (.arbRd c a) s')
    (hwr : ∀ c a d s', s.nextAction ≠ .command (.arbWr c a d) s') : KeepsMemory s t := by
  obtain ⟨op, -, -, -, hserve⟩ | ⟨T, -, -, rfl⟩ | ⟨i, s', hact, htaken, -, hexec⟩ | ⟨opc, s', htaken, rfl⟩ |
    ⟨w, s', htaken, rfl⟩ | ⟨hp, cp, rfl⟩ := step_cases h
  · exact keepsMemory_serveHostOp hserve
  · exact keepsMemory_drainStep s T
  · refine htaken.keepsMemory.trans (exec_keepsMemory ?_ ?_ hexec)
    · rintro c a rfl
      exact hrd c a s' hact
    · rintro c a d rfl
      exact hwr c a d s' hact
  · exact htaken.keepsMemory.trans (keepsMemory_rejectFields s' opc)
  · exact htaken.keepsMemory.trans (keepsMemory_rejectUnknown s' w)
  · exact ⟨rfl, rfl, rfl⟩

/-- Settles O47, by the one access that a command can make and the kinds of a step. -/
theorem onlyArbitratedAccessesTouchMemory : Obligations.OnlyArbitratedAccessesTouchMemory := by
  refine ⟨fun i s t hexec => ?_, fun s t hstep hrd hwr => ?_⟩
  · obtain ⟨hmem, hreads, hrecord⟩ | ⟨c, a, a', rfl, rfl⟩ | ⟨c, a, d, a', v, rfl, rfl⟩ := exec_access hexec
    · exact ⟨fun _ => hmem, fun _ => hreads, [], by simp [hrecord], by simp, by simp⟩
    · exact ⟨fun _ => rfl, fun h => absurd rfl (h c a), [.memRead a' (s.memAnswer a')], by simp, by simp, by simp⟩
    · exact ⟨fun h => absurd rfl (h c a d), fun _ => rfl, [.memWrite a' v], by simp, by simp, by simp⟩
  · obtain ⟨hmem, hreads, hrecord⟩ := step_keepsMemory hstep hrd hwr
    exact ⟨hmem, hreads, hrecord⟩

end Sys2Proof.Machine
end

section
/-! PROOFS. The decoder and the encoder are inverse to each other on the well-formed commands (R83, R84). -/
namespace Sys2Proof

/-! ## What the decoder answers -/

open Laws.HeaderKeepsItsRow in
/-- Every command's header and operands fit its row of the opcode map (R69, R71). -/
theorem headerKeepsItsRow : (i : Instr) → Statement i
  | .nop => nop
  | .status => status
  | .sched absolute t recurring p y => sched absolute t recurring p y
  | .cancel h => cancel h
  | .advance t => advance t
  | .cbdone => cbdone
  | .rdnow => rdnow
  | .query h => query h
  | .rdscan => rdscan
  | .irqSet c l => irqSet c l
  | .irqClr c l => irqClr c l
  | .irqPer c l s => irqPer c l s
  | .irqRd c l => irqRd c l
  | .arbEn e => arbEn e
  | .arbRst => arbRst
  | .arbBa b => arbBa b
  | .arbRd c a => arbRd c a
  | .arbWr c a d => arbWr c a d
  | .arbRds => arbRds

section
variable {p p1 rest : Port} {h : HeaderWord} {row : OpcodeRow} {ops : List Word} {i : Instr}

/-- An opcode without a row is unknown, and one header word is consumed (R73). -/
theorem decode_of_no_row (hhead : p.takeHeader = some (h, p1)) (hrow : opcodeRow (headerOpc h) = none) :
    decode p = .unknown h p1 := by simp only [decode, hhead, hrow]

/-- A known opcode that breaks R71 is consumed whole (R72). -/
theorem decode_of_broken (hhead : p.takeHeader = some (h, p1)) (hrow : opcodeRow (headerOpc h) = some row)
    (hops : p1.takeOperands row.operands = some (ops, rest)) (hb : brokenFields row h = true) :
    decode p = .badFields (headerOpc h) (row.operands + 1) rest := by
  simp only [decode, hhead, hrow, hops, hb, if_true]

/-- A command is decoded exactly where a header of a known opcode and that opcode's operands are taken, the header
keeps R71 and the two have a meaning (R84). -/
theorem decode_eq_command_iff : decode p = .command i rest ↔
    ∃ h p1 row ops, p.takeHeader = some (h, p1) ∧ opcodeRow (headerOpc h) = some row ∧
      p1.takeOperands row.operands = some (ops, rest) ∧ brokenFields row h = false ∧ instrOf h ops = some i := by
  constructor
  · intro hd
    unfold decode at hd
    split at hd
    · simp at hd
    next h p1 hhead =>
    split at hd
    · simp at hd
    next row hrow =>
    split at hd
    · simp at hd
    next ops p2 hops =>
    split at hd
    · simp at hd
    next hb =>
    split at hd
    · simp at hd
    next hi =>
    obtain ⟨rfl, rfl⟩ := by simpa using hd
    exact ⟨h, p1, row, ops, hhead, hrow, hops, by simpa using hb, hi⟩
  · rintro ⟨h, p1, row, ops, hhead, hrow, hops, hb, hi⟩
    simp [decode, hhead, hrow, hops, hb, hi]

end

/-! ## From the command to its words and back -/

/-- The words of a time operand within R74's bounds give the time back. -/
theorem timeOperand_ofInt {absolute : Bool} {t : Int} (ht : (if absolute then inU64 t else inS64 t) = true) :
    timeOperand absolute (BitVec.ofInt 64 t) = t := by
  cases absolute with
  | true =>
    obtain ⟨hlo, hhi⟩ : 0 ≤ t ∧ t < 2 ^ 64 := by simpa [inU64] using ht
    simp only [timeOperand, if_true, BitVec.toNat_ofInt]
    omega
  | false =>
    obtain ⟨hlo, hhi⟩ : -2 ^ 63 ≤ t ∧ t < 2 ^ 63 := by simpa [inS64] using ht
    exact BitVec.toInt_ofInt_eq_self (by decide) hlo hhi

/-- A well-formed command is read back from its header and its operand words (R83). -/
theorem instrOf_header_operands {i : Instr} (hwf : i.wf = true) : instrOf i.header i.operands = some i := by
  cases i with
  | sched absolute t recurring p y =>
    obtain ⟨ht, hp⟩ := (Bool.and_eq_true ..).mp hwf
    have hperiod : (BitVec.ofInt 64 p).toInt = p := timeOperand_ofInt (absolute := false) hp
    simp [instrOf, Instr.header, Instr.operands, timeOperand_ofInt ht, hperiod]
  | _ => simp [instrOf, Instr.header, Instr.operands]

/-- A port that gives a well-formed command's header and then its operands decodes to the command. -/
theorem decode_of_takes {p p1 rest : Port} {i : Instr} (hwf : i.wf = true)
    (hhead : p.takeHeader = some (i.header, p1))
    (hops : p1.takeOperands i.operands.length = some (i.operands, rest)) : decode p = .command i rest := by
  obtain ⟨hopc, row, hrow, hlen, hb⟩ := headerKeepsItsRow i
  exact decode_eq_command_iff.mpr
    ⟨i.header, p1, row, i.operands, hhead, by rw [hopc, hrow], by rw [hlen, hops], hb, instrOf_header_operands hwf⟩

/-- The bytes of a command are those of its header and then those of its operands (R55). -/
theorem encodeBytes_append (i : Instr) (rest : List Byte) : encodeBytes i ++ rest =
    (PortWord.w32 i.header).bytes ++ ((i.operands.map PortWord.w64).flatMap PortWord.bytes ++ rest) := by
  simp only [encodeBytes, encode, List.flatMap_cons, List.append_assoc]

theorem decode_encode {i : Instr} (hwf : i.wf = true) (rest : List PortWord) :
    decode (.wordWide (encode i ++ rest)) = .command i (.wordWide rest) :=
  decode_of_takes hwf rfl (takeOperands_words i.operands rest)

theorem decode_encodeBytes {i : Instr} (hwf : i.wf = true) (rest : List Byte) :
    decode (.byteWide (encodeBytes i ++ rest)) = .command i (.byteWide rest) := by
  rw [encodeBytes_append]
  exact decode_of_takes hwf (takeHeader_bytes i.header _) (takeOperands_bytes i.operands rest)

/-- Settles O1: either transport gives back the header and the operands that were encoded, and these the command. -/
theorem decodeInvertsEncode : Obligations.DecodeInvertsEncode := fun _ hwf =>
  ⟨decode_encode hwf, decode_encodeBytes hwf⟩

/-- A list of words that is a well-formed command's encoding decodes to that command alone. -/
theorem decode_of_encode_eq {i : Instr} {ws : List PortWord} (hwf : i.wf = true) (henc : encode i = ws) :
    decode (.wordWide ws) = .command i (.wordWide []) := by
  rw [← henc, ← List.append_nil (encode i)]
  exact decode_encode hwf []

/-- Settles O3: each list of words is the encoding of the command that R82 names. -/
theorem wordsOfTheTableDecode : Obligations.WordsOfTheTableDecode :=
  ⟨decode_of_encode_eq (by decide) (by decide), decode_of_encode_eq (by decide) (by decide),
    decode_of_encode_eq (by decide) (by decide), decode_of_encode_eq (by decide) (by decide)⟩

/-! ## From the bytes back to the words -/

/-- A header word made of four bytes is sent as those bytes (R55): bit `k` of byte `j` is bit `8 * j + k` of the
word. -/
theorem bytes_w32_append (b0 b1 b2 b3 : Byte) : (PortWord.w32 (b3 ++ b2 ++ b1 ++ b0)).bytes = [b0, b1, b2, b3] := by
  simp only [PortWord.bytes, List.cons.injEq, and_true]
  refine ⟨?_, ?_, ?_, ?_⟩ <;>
    (refine BitVec.eq_of_getLsbD_eq fun k hk => ?_
     simp only [BitVec.getLsbD_extractLsb', BitVec.getLsbD_append]
     grind)

/-- `bytes_w32_append` for an operand word and its eight bytes. -/
theorem bytes_w64_append (b0 b1 b2 b3 b4 b5 b6 b7 : Byte) :
    (PortWord.w64 (b7 ++ b6 ++ b5 ++ b4 ++ b3 ++ b2 ++ b1 ++ b0)).bytes = [b0, b1, b2, b3, b4, b5, b6, b7] := by
  simp only [PortWord.bytes, List.cons.injEq, and_true]
  refine ⟨?_, ?_, ?_, ?_, ?_, ?_, ?_, ?_⟩ <;>
    (refine BitVec.eq_of_getLsbD_eq fun k hk => ?_
     simp only [BitVec.getLsbD_extractLsb', BitVec.getLsbD_append]
     grind)

/-- Bytes from which a header is taken are its four bytes and then the rest. -/
theorem takeHeader_byteWide_eq_some {bytes : List Byte} {h : HeaderWord} {p : Port}
    (ht : Port.takeHeader (.byteWide bytes) = some (h, p)) :
    ∃ rest, p = .byteWide rest ∧ bytes = (PortWord.w32 h).bytes ++ rest := by
  unfold Port.takeHeader at ht
  split at ht <;> simp only [reduceCtorEq, Option.some.injEq, Prod.mk.injEq, Port.byteWide.injEq] at *
  next b0 b1 b2 b3 rest heq =>
    obtain ⟨rfl, rfl⟩ := ht
    exact ⟨rest, rfl, by rw [bytes_w32_append, heq]; rfl⟩

/-- Bytes from which an operand is taken are its eight bytes and then the rest. -/
theorem takeOperand_byteWide_eq_some {bytes : List Byte} {o : Word} {p : Port}
    (ht : Port.takeOperand (.byteWide bytes) = some (o, p)) :
    ∃ rest, p = .byteWide rest ∧ bytes = (PortWord.w64 o).bytes ++ rest := by
  unfold Port.takeOperand at ht
  split at ht <;> simp only [reduceCtorEq, Option.some.injEq, Prod.mk.injEq, Port.byteWide.injEq] at *
  next b0 b1 b2 b3 b4 b5 b6 b7 rest heq =>
    obtain ⟨rfl, rfl⟩ := ht
    exact ⟨rest, rfl, by rw [bytes_w64_append, heq]; rfl⟩

/-- Bytes from which `n` operands are taken are the operands' bytes and then the rest. -/
theorem takeOperands_byteWide_eq_some {n : Nat} {bytes : List Byte} {os : List Word} {p : Port}
    (ht : Port.takeOperands n (.byteWide bytes) = some (os, p)) :
    os.length = n ∧ ∃ rest, p = .byteWide rest ∧
      bytes = (os.map PortWord.w64).flatMap PortWord.bytes ++ rest := by
  induction n generalizing bytes os p with
  | zero =>
    obtain ⟨rfl, rfl⟩ := by simpa [Port.takeOperands] using ht
    exact ⟨rfl, bytes, rfl, rfl⟩
  | succ n ih =>
    simp only [Port.takeOperands] at ht
    split at ht
    · simp at ht
    next o p' ho =>
    split at ht
    · simp at ht
    next os' p'' hos =>
    obtain ⟨rfl, rfl⟩ := by simpa using ht
    obtain ⟨bytes', rfl, rfl⟩ := takeOperand_byteWide_eq_some ho
    obtain ⟨rfl, rest, rfl, rfl⟩ := ih hos
    exact ⟨rfl, rest, rfl, by simp⟩

/-! ## From the words back to the command -/

theorem opcode_of_instrOf {h : HeaderWord} {ops : List Word} {i : Instr} (hi : instrOf h ops = some i) :
    headerOpc h = i.opcode := by
  unfold instrOf at hi
  split at hi <;> cases hi
  all_goals next hopc => exact BitVec.eq_of_toNat_eq hopc

section
variable {h h' : HeaderWord}

/-- Two headers of one opcode that keep R71 are the same when they agree on the bits the opcode's row uses. -/
theorem header_eq_of_used_bits {row : OpcodeRow} (hopc : headerOpc h = headerOpc h')
    (hb : brokenFields row h = false) (hb' : brokenFields row h' = false)
    (hused : ∀ k < 24, row.fields.getLsbD k = true → h.getLsbD k = h'.getLsbD k) : h = h' := by
  refine BitVec.eq_of_getLsbD_eq fun k hk => ?_
  by_cases hlow : k < 24
  · cases hf : row.fields.getLsbD k with
    | true => exact hused k hlow hf
    | false => rw [brokenFields_eq_false.mp hb k hlow hf, brokenFields_eq_false.mp hb' k hlow hf]
  · have hbit := congrArg (BitVec.getLsbD · (k - 24)) hopc
    simpa [headerOpc, BitVec.getLsbD_extractLsb', show k - 24 < 8 by omega, show 24 + (k - 24) = k by omega] using hbit

theorem getLsbD_eq_of_headerCpu_eq (hcpu : headerCpu h = headerCpu h') {k : Nat} (hlo : 16 ≤ k) (hhi : k < 24) :
    h.getLsbD k = h'.getLsbD k := by
  have hbit := congrArg (BitVec.getLsbD · (k - 16)) hcpu
  simpa [headerCpu, BitVec.getLsbD_extractLsb', show k - 16 < 8 by omega, show 16 + (k - 16) = k by omega] using hbit

theorem getLsbD_eq_of_headerLine_eq (hline : headerLine h = headerLine h') {k : Nat} (hlo : 8 ≤ k) (hhi : k < 16) :
    h.getLsbD k = h'.getLsbD k := by
  have hbit := congrArg (BitVec.getLsbD · (k - 8)) hline
  simpa [headerLine, BitVec.getLsbD_extractLsb', show k - 8 < 8 by omega, show 8 + (k - 8) = k by omega] using hbit

/-- The used bits of a row with a CPU id. -/
theorem used_bits_cpu (hcpu : headerCpu h = headerCpu h') (k : Nat) (hk : k < 24)
    (hf : BitVec.getLsbD 0x00FF0000#32 k = true) : h.getLsbD k = h'.getLsbD k := by
  have hfield : ∀ k < 24, BitVec.getLsbD 0x00FF0000#32 k = true → 16 ≤ k := by decide
  exact getLsbD_eq_of_headerCpu_eq hcpu (hfield k hk hf) hk

/-- The used bits of a row with a CPU id and a line id. -/
theorem used_bits_cpuLine (hcpu : headerCpu h = headerCpu h') (hline : headerLine h = headerLine h') (k : Nat)
    (hk : k < 24) (hf : BitVec.getLsbD 0x00FFFF00#32 k = true) : h.getLsbD k = h'.getLsbD k := by
  have hfield : ∀ k < 24, BitVec.getLsbD 0x00FFFF00#32 k = true → 8 ≤ k := by decide
  by_cases hcase : k < 16
  · exact getLsbD_eq_of_headerLine_eq hline (hfield k hk hf) hcase
  · exact getLsbD_eq_of_headerCpu_eq hcpu (by omega) hk

end

section
variable {h : HeaderWord} {ops : List Word} {row : OpcodeRow} {i : Instr}

/-- A command's header is the only one that gives the command: each bit is either unused, and so 0, or stands in a
field that the command holds. -/
theorem eq_header_of_instrOf (hrow : opcodeRow (headerOpc h) = some row) (hb : brokenFields row h = false)
    (hi : instrOf h ops = some i) : h = i.header := by
  have hopc := opcode_of_instrOf hi
  obtain ⟨hopc', row', hrow', -, hb'⟩ := headerKeepsItsRow i
  obtain rfl : row' = row := Option.some.inj (by rw [← hrow', ← hrow, hopc])
  refine header_eq_of_used_bits (hopc.trans hopc'.symm) hb hb' ?_
  cases i with
  | irqSet c l | irqClr c l | irqRd c l =>
    cases hrow'
    obtain ⟨rfl, rfl⟩ := by simpa [instrOf, hopc, Instr.opcode] using hi
    exact used_bits_cpuLine (headerCpu_mkHeader ..).symm (headerLine_mkHeader ..).symm
  | irqPer c l s =>
    cases hrow'
    obtain ⟨rfl, rfl, -⟩ := by simpa [instrOf, hopc, Instr.opcode] using hi
    exact used_bits_cpuLine (headerCpu_mkHeader ..).symm (headerLine_mkHeader ..).symm
  | arbRd c a | arbWr c a d =>
    cases hrow'
    obtain ⟨rfl, -⟩ := by simpa [instrOf, hopc, Instr.opcode] using hi
    exact used_bits_cpu (headerCpu_mkHeader ..).symm
  | sched absolute t recurring p y =>
    cases hrow'
    obtain ⟨rfl, -, rfl, -⟩ := by simpa [instrOf, hopc, Instr.opcode] using hi
    have hfield : ∀ k < 24, BitVec.getLsbD 0x3#32 k = true → k = 1 ∨ k = 0 := by decide
    intro k hk hf
    obtain rfl | rfl := hfield k hk hf
    · exact (headerA_mkHeader ..).symm
    · exact (headerR_mkHeader ..).symm
  | arbEn e =>
    cases hrow'
    obtain rfl := by simpa [instrOf, hopc, Instr.opcode] using hi
    have hfield : ∀ k < 24, BitVec.getLsbD 0x4#32 k = true → k = 2 := by decide
    intro k hk hf
    obtain rfl := hfield k hk hf
    exact (headerE_mkHeader ..).symm
  | arbBa b =>
    cases hrow'
    obtain rfl := by simpa [instrOf, hopc, Instr.opcode] using hi
    have hfield : ∀ k < 24, BitVec.getLsbD 0x8#32 k = true → k = 3 := by decide
    intro k hk hf
    obtain rfl := hfield k hk hf
    exact (headerB_mkHeader ..).symm
  | nop | status | cancel | advance | cbdone | rdnow | query | rdscan | arbRst | arbRds =>
    cases hrow'
    intro k _ hf
    simp at hf

/-- A time operand read from a word is written as that word (R74). -/
theorem ofInt_timeOperand (absolute : Bool) (o : Word) : BitVec.ofInt 64 (timeOperand absolute o) = o := by
  cases absolute <;> simp [timeOperand]

/-- A command's operand words are the only ones, as many as it has, that give the command. -/
theorem eq_operands_of_instrOf (hlen : ops.length = i.operands.length) (hi : instrOf h ops = some i) :
    ops = i.operands := by
  have hopc := opcode_of_instrOf hi
  cases i with
  | sched absolute t recurring p y =>
    obtain ⟨o0, o1, o2, rfl⟩ := List.length_eq_three.mp hlen
    obtain ⟨rfl, rfl, rfl, rfl, rfl⟩ := by simpa [instrOf, hopc, Instr.opcode] using hi
    simp [Instr.operands, ofInt_timeOperand]
  | arbWr c a d =>
    obtain ⟨o0, o1, rfl⟩ := List.length_eq_two.mp hlen
    obtain ⟨-, rfl, rfl⟩ := by simpa [instrOf, hopc, Instr.opcode] using hi
    rfl
  | irqPer c l s =>
    obtain ⟨o0, rfl⟩ := List.length_eq_one_iff.mp hlen
    obtain ⟨-, -, rfl⟩ := by simpa [instrOf, hopc, Instr.opcode] using hi
    rfl
  | arbRd c a =>
    obtain ⟨o0, rfl⟩ := List.length_eq_one_iff.mp hlen
    obtain ⟨-, rfl⟩ := by simpa [instrOf, hopc, Instr.opcode] using hi
    rfl
  | cancel x | advance x | query x =>
    obtain ⟨o0, rfl⟩ := List.length_eq_one_iff.mp hlen
    obtain rfl := by simpa [instrOf, hopc, Instr.opcode] using hi
    rfl
  | nop | status | cbdone | rdnow | rdscan | irqSet | irqClr | irqRd | arbEn | arbRst | arbBa | arbRds =>
    exact List.eq_nil_of_length_eq_zero hlen

end

/-- Settles O2: the bytes taken are those of a header and its row's operands, and a command has one header and one list
of operands. -/
theorem eachCommandHasOneEncoding : Obligations.EachCommandHasOneEncoding := by
  intro bytes i p hd
  refine ⟨Machine.decode_wf hd, ?_⟩
  obtain ⟨h, p1, row, ops, hhead, hrow, hops, hb, hi⟩ := decode_eq_command_iff.mp hd
  obtain ⟨bytes', rfl, rfl⟩ := takeHeader_byteWide_eq_some hhead
  obtain ⟨hlen, rest, rfl, rfl⟩ := takeOperands_byteWide_eq_some hops
  obtain rfl := eq_header_of_instrOf hrow hb hi
  obtain ⟨hopc, row', hrow', hlen', -⟩ := headerKeepsItsRow i
  obtain rfl : row' = row := Option.some.inj (by rw [← hrow', ← hrow, hopc])
  obtain rfl := eq_operands_of_instrOf (hlen.trans hlen') hi
  exact ⟨rest, rfl, (encodeBytes_append i rest).symm⟩

end Sys2Proof
end

section
/-! PROOFS. A header that is no command is a diagnostic and nothing else: an opcode outside the map (R73), and a known
opcode with a bit that R71 reserves (R72). -/
namespace Sys2Proof.Machine

/-! ## The opcode map (R69) -/

/-- An opcode that none of R69's rows names has no row. -/
theorem opcodeRow_eq_none {opc : Byte}
    (hopc : opc ∉ ([0x00, 0x01, 0x10, 0x11, 0x12, 0x13, 0x14, 0x15, 0x16, 0x20, 0x21, 0x22, 0x23,
      0x30, 0x31, 0x32, 0x33, 0x34, 0x35] : List Byte)) : opcodeRow opc = none := by
  simp only [List.mem_cons, List.not_mem_nil, or_false, not_or] at hopc
  unfold opcodeRow
  split
  -- the map's last alternative, every opcode that the others do not match
  case h_20 => rfl
  all_goals bv_omega

/-! ## Rejecting a header (R72, R73) -/

section
variable {s : State}

theorem rejectUnknown_of_unfaulted (hf : s.items.fault = 0) (w : HeaderWord) : s.rejectUnknown w = { s with
    items := { s.items with diagCount := s.items.diagCount + 1, lastDiag := 0x01 }
    history := s.history ++ [.diag 0x01 (headerOpc w)] } := unlessFaulted_of_unfaulted _ hf

theorem rejectFields_of_unfaulted (hf : s.items.fault = 0) {opc : Byte} {row : OpcodeRow}
    (hrow : opcodeRow opc = some row) : s.rejectFields opc = { s with
      items := { s.items with diagCount := s.items.diagCount + 1, lastDiag := 0x02 }
      history := s.history ++ .diag 0x02 opc :: List.replicate row.responses (.resp 0) } := by
  have hhistory : s.history ++ .diag 0x02 opc :: List.replicate row.responses (.resp 0) =
      (s.history ++ [.diag 0x02 opc]) ++ (List.replicate row.responses 0).map .resp := by simp
  rw [State.rejectFields, unlessFaulted_of_unfaulted _ hf, hrow, hhistory]
  rfl

/-! ## The step that rejects -/

variable {w : HeaderWord} {opc : Byte} {len : Nat} {rest : Port}

theorem takeFromHost_of_unknown (hd : decode s.hostPort = .unknown w rest) :
    s.takeFromHost = .unknown w { s with hostPort := rest } := by simp only [State.takeFromHost, hd]

theorem takeFromClient_of_unknown (hd : decode s.clientPort = .unknown w rest) :
    s.takeFromClient = .unknown w { s with clientPort := rest } := by simp only [State.takeFromClient, hd]

theorem takeFromHost_of_badFields (hd : decode s.hostPort = .badFields opc len rest) :
    s.takeFromHost = .badFields opc { s with hostPort := rest } := by simp only [State.takeFromHost, hd]

theorem takeFromClient_of_badFields (hd : decode s.clientPort = .badFields opc len rest) :
    s.takeFromClient = .badFields opc { s with clientPort := rest } := by simp only [State.takeFromClient, hd]

theorem step_of_unknown {s' : State} (hserve : ∀ op, s.nextAction ≠ .serve op)
    (htake : s.takeCommand = .unknown w s') (hf : s'.items.fault = 0) : step s = .next { s' with
      items := { s'.items with diagCount := s'.items.diagCount + 1, lastDiag := 0x01 }
      history := s'.history ++ [.diag 0x01 (headerOpc w)] } := by
  simp only [step, stepWith, nextAction_of_not_served hserve, htake, rejectUnknown_of_unfaulted hf]

theorem step_of_badFields {s' : State} {row : OpcodeRow} (hserve : ∀ op, s.nextAction ≠ .serve op)
    (htake : s.takeCommand = .badFields opc s') (hf : s'.items.fault = 0) (hrow : opcodeRow opc = some row) :
    step s = .next { s' with
      items := { s'.items with diagCount := s'.items.diagCount + 1, lastDiag := 0x02 }
      history := s'.history ++ .diag 0x02 opc :: List.replicate row.responses (.resp 0) } := by
  simp only [step, stepWith, nextAction_of_not_served hserve, htake, rejectFields_of_unfaulted hf hrow]

end

/-- Settles O6: an opcode without a row decodes as unknown on the phase's side of the port, and the step rejects it. -/
theorem unknownOpcodeConsumesOneWord : Obligations.UnknownOpcodeConsumesOneWord := by
  intro s h rest hf hopc
  have hrow := opcodeRow_eq_none hopc
  refine ⟨fun hp hserve hhead => ?_, fun T hp hhead => ?_⟩
  · have htake := (takeCommand_of_idle hp).trans (takeFromHost_of_unknown (decode_of_no_row hhead hrow))
    exact step_of_unknown hserve htake hf
  · have htake := (takeCommand_of_callback hp hf).trans (takeFromClient_of_unknown (decode_of_no_row hhead hrow))
    exact step_of_unknown (not_served_of_callback hp) htake hf

/-- A header with a bit set below the opcode that the row's fields leave out breaks R71. -/
theorem brokenFields_of_unused_bit {row : OpcodeRow} {h : HeaderWord} {k : Nat} (hk : k < 24)
    (hfield : row.fields.getLsbD k = false) (hbit : h.getLsbD k = true) : brokenFields row h = true := by
  rw [← Bool.not_eq_false, brokenFields_eq_false]
  intro hzero
  simp [hzero k hk hfield] at hbit

/-- Settles O7: the opcode's row is the one that R69 gives, so the header and the row's operands decode as broken on the
phase's side of the port, and the step rejects them. -/
theorem reservedHeaderFieldIsADiagnostic : Obligations.ReservedHeaderFieldIsADiagnostic := by
  intro s h fields operands responses ops mid rest k hf hmem hk hfield hbit hops
  have hrow : opcodeRow (headerOpc h) = some ⟨fields, operands, responses⟩ :=
    (show ∀ r ∈ _, opcodeRow r.1 = some ⟨r.2.1, r.2.2.1, r.2.2.2⟩ by decide) _ hmem
  have hb := brokenFields_of_unused_bit (row := ⟨fields, operands, responses⟩) hk hfield hbit
  refine ⟨fun hp hserve hhead => ?_, fun T hp hhead => ?_⟩
  · have htake := (takeCommand_of_idle hp).trans (takeFromHost_of_badFields (decode_of_broken hhead hrow hops hb))
    exact step_of_badFields hserve htake hf hrow
  · have htake := (takeCommand_of_callback hp hf).trans
      (takeFromClient_of_badFields (decode_of_broken hhead hrow hops hb))
    exact step_of_badFields (not_served_of_callback hp) htake hf hrow

end Sys2Proof.Machine
end

section
/-! PROOFS. Events fire in key order (R107, R117): once a key has fired, nothing at or before it is in Q again. What a
firing leaves behind is said once, of any key not past the fired one; the claim about runs is then an invariant. -/
namespace Sys2Proof.Machine

/-! ## Runs -/

/-- A run that begins with a step goes on from the state the step leaves. -/
theorem run_succ_of_step {n : Nat} {s u : State} (h : step s = .next u) : core.run (n + 1) s = core.run n u := by
  have hcore : core.step s = .next u := h
  simp only [Host.Core.run, hcore]

/-- What every step keeps, every run keeps. -/
theorem run_keeps {P : State → Prop} (hstep : ∀ s t, P s → step s = .next t → P t) (n : Nat) {s t : State}
    (hs : P s) (hrun : core.run n s = .next t) : P t := by
  induction n generalizing s with
  | zero => exact Host.Outcome.next.inj hrun ▸ hs
  | succ n ih =>
    cases h : step s with
    | next u =>
      rw [run_succ_of_step h] at hrun
      exact ih (hstep s u hs h) hrun
    | fault r =>
      have hcore : core.step s = .fault r := h
      simp [Host.Core.run, hcore] at hrun
    | refused r =>
      have hcore : core.step s = .refused r := h
      simp [Host.Core.run, hcore] at hrun

/-- A step leaves the pending host operation as it was, or serves it (R173). -/
theorem step_hostOp {s t : State} (h : step s = .next t) : t.hostOp = s.hostOp ∨ t.hostOp = none := by
  have htaken {s' u : State} (htaken : TakenFrom s s') (hframe : Frame s' u) : u.hostOp = s.hostOp := by
    rw [hframe.hostOp, htaken]
  obtain ⟨op, -, -, -, hserve⟩ | ⟨T, -, -, rfl⟩ | ⟨i, s', -, htake, -, hexec⟩ | ⟨opc, s', htake, rfl⟩ |
    ⟨w, s', htake, rfl⟩ | ⟨hp, cp, rfl⟩ := step_cases h
  · obtain ⟨-, rfl⟩ | ⟨x, -, -, -, -, rfl⟩ := serveHostOp_cases hserve <;> exact .inr rfl
  · exact .inl (frame_drainStep s T).hostOp
  · exact .inl (htaken htake (exec_frame hexec))
  · exact .inl (htaken htake (frame_rejectFields s' opc))
  · exact .inl (htaken htake (frame_rejectUnknown s' w))
  · exact .inl rfl

/-- Only a pending host operation is served. -/
theorem not_served_of_not_pending {s : State} {op : HostOp} (h : s.hostOp ≠ some op) : s.nextAction ≠ .serve op := by
  intro hact
  obtain ⟨op', ho, -, -, hn⟩ | ⟨-, hn⟩ := nextAction_cases s <;> rw [hact] at hn
  · exact h (ho.trans (by rw [Action.serve.inj hn]))
  · exact takeCommand_ne_serve s op hn.symm

/-! ## Keys that lie behind -/

/-- `e` comes after the key (`time`, `seq`). -/
def Entry.After (time seq : Nat) (e : Entry) : Prop :=
  time < e.fireTime.toNat ∨ (time = e.fireTime.toNat ∧ seq < e.seq)

/-- The state items' part of `State.AfterKey`, which is all of it. -/
structure Items.AfterKey (time seq : Nat) (x : Items) : Prop where
  now : time ≤ x.now.toNat
  counter : seq < x.nextSeq
  queue : ∀ e ∈ x.queue, e.After time seq
  current : ∀ c, x.cur = some c → c.live = true → time < rearmTime c.entry

theorem afterKey_iff {s : State} {time seq : Nat} : s.AfterKey time seq ↔ s.items.AfterKey time seq :=
  ⟨fun ⟨h1, h2, h3, h4⟩ => ⟨h1, h2, h3, h4⟩, fun ⟨h1, h2, h3, h4⟩ => ⟨h1, h2, h3, h4⟩⟩

/-- An entry comes after the keys of the entries it follows. -/
theorem after_of_keyLess {a b : Entry} (h : keyLess a b) : b.After a.fireTime.toNat a.seq := h

theorem Entry.After.le {time seq : Nat} {e : Entry} (h : e.After time seq) : time ≤ e.fireTime.toNat := by
  unfold Entry.After at h
  omega

section
variable {time seq : Nat} {x y : Items}

/-- An entry that is not due before `now` and has a fresh seq comes after every key that lies behind (R101). -/
theorem Items.AfterKey.fresh (h : x.AfterKey time seq) {e : Entry} (hnow : x.now.toNat ≤ e.fireTime.toNat)
    (hseq : x.nextSeq ≤ e.seq) : e.After time seq := by
  have htime := h.now
  have hcounter := h.counter
  unfold Entry.After
  omega

/-- A next time of `e` later than a key puts the re-armed entry after it. -/
theorem after_of_rearm {e : Entry} {n : Nat} (hlater : time < rearmTime e) (hfits : rearmTime e < 2 ^ 64) :
    Entry.After time seq { e with fireTime := BitVec.ofNat 64 (rearmTime e), seq := n } := by
  left
  rwa [BitVec.toNat_ofNat, Nat.mod_eq_of_lt hfits]

/-- No effect of a command brings an event at or before a key that lies behind. -/
theorem ItemsEffect.keeps_afterKey {W : Prop} {p : Params} (heff : ItemsEffect W p x y) (hp : p.valid = true)
    (h : x.AfterKey time seq) : y.AfterKey time seq := by
  have hcounter := h.counter
  cases heff with
  | insert ft pl r per _ hnow hfits =>
    refine { h with counter := by simp only; omega, queue := fun e he => ?_ }
    obtain rfl | he := mem_insertEntry.1 he
    · exact h.fresh (by simp only [BitVec.toNat_ofNat, Nat.mod_eq_of_lt hfits, hnow]) le_rfl
    · exact h.queue e he
  | pulse c l line _ _ hfits =>
    have hle := le_firstAssert hp x.now line.toNat
    refine { h with counter := by simp only; omega, queue := fun e he => ?_ }
    simp only [mem_insertEntry] at he
    obtain rfl | rfl | he := he
    · exact h.fresh (by simp only [BitVec.toNat_ofNat, Nat.mod_eq_of_lt hfits]; omega) (Nat.le_succ _)
    · exact h.fresh (by simp only [BitVec.toNat_ofNat]; omega) le_rfl
    · exact h.queue e he
  | cancelQueued e _ _ => exact { h with queue := fun e he => h.queue e (mem_removeHandle.1 he).1 }
  | cancelFiring c _ _ =>
    refine { h with current := ?_ }
    rintro _ ⟨⟩ hlive
    simp at hlive
  | callbackEnd T c _ _ _ _ => exact { h with current := by simp }
  | callbackRearm T c _ _ hc hlive hfits =>
    refine { h with counter := by simp only; omega, queue := fun e he => ?_, current := by simp }
    obtain rfl | he := mem_insertEntry.1 he
    · exact after_of_rearm (h.current c hc hlive) hfits
    · exact h.queue e he
  | same | raise | record | advance | lines | enable | busAvailable => exact { h with }

end

/-! ## Firing -/

section
variable {time seq : Nat} {s : State} {T : Word} {e : Entry}

/-- A recurring entry that R34 (f) admits has a next time later than its fire time. -/
theorem fireTime_lt_rearmTime {p : Params} {x : Items} (h : x.Inv p) (he : e ∈ x.queue) (hrec : e.recurring = true) :
    e.fireTime.toNat < rearmTime e := by
  have hper := h.periods e he
  rw [if_pos hrec] at hper
  exact Nat.lt_add_of_pos_right hper

/-- Firing an entry leaves behind every key that is not past its fire time and that the rest of Q comes after
(R106, R111). -/
theorem fireEvent_afterKey (hinv : s.items.Inv s.cfg) (hphase : s.items.phase = .draining T)
    (he : e ∈ s.items.queue) (hfits : e.recurring = true → rearmTime e < 2 ^ 64) (htime : time ≤ e.fireTime.toNat)
    (hseq : seq < s.items.nextSeq) (hrest : ∀ x ∈ removeHandle e.handle s.items.queue, x.After time seq) :
    (s.fireEvent T e).items.AfterKey time seq := by
  have hcur := hinv.cur_none (by simp [hphase])
  have hlater (hrec : e.recurring = true) : time < rearmTime e :=
    htime.trans_lt (fireTime_lt_rearmTime hinv he hrec)
  obtain ⟨y, -, hitems⟩ | ⟨-, -, hitems⟩ | ⟨-, hrec, hitems⟩ := fireEvent_items s T e
  all_goals rw [hitems]
  · refine ⟨htime, hseq, hrest, ?_⟩
    rintro _ ⟨⟩ hlive
    exact hlater hlive
  · exact ⟨htime, hseq, hrest, by simp [hcur]⟩
  · refine ⟨htime, Nat.lt_succ_of_lt hseq, fun x hx => ?_, by simp [hcur]⟩
    obtain rfl | hx := mem_insertEntry.1 hx
    · exact after_of_rearm (hlater hrec) (hfits hrec)
    · exact hrest x hx

/-- A drain step brings no event at or before a key that lies behind. -/
theorem drainStep_keeps_afterKey (hinv : s.items.Inv s.cfg) (hphase : s.items.phase = .draining T)
    (h : s.items.AfterKey time seq) : (s.drainStep T).items.AfterKey time seq := by
  obtain ⟨-, heq⟩ | ⟨e, he, -, -, ⟨-, -, heq⟩ | ⟨hfits, heq⟩⟩ := drainStep_cases s T
  all_goals rw [heq]
  · exact { h with now := h.now.trans (hinv.drainTarget T hphase) }
  · exact { h with }
  · exact fireEvent_afterKey hinv hphase he hfits (h.queue e he).le h.counter
      fun x hx => h.queue x (mem_removeHandle.1 hx).1

end

/-- A step brings no event at or before a key that lies behind, as long as no RESTORE is pending. -/
theorem step_keeps_afterKey {time seq : Nat} {s t : State} (hinv : s.Inv) (hop : ∀ x, s.hostOp ≠ some (.restore x))
    (hkey : s.AfterKey time seq) (hstep : step s = .next t) : t.AfterKey time seq := by
  rw [afterKey_iff] at hkey ⊢
  obtain ⟨T, hphase, -, rfl⟩ | heff := step_items_cases (fun x => not_served_of_not_pending (hop x)) hstep
  · exact drainStep_keeps_afterKey hinv.items hphase hkey
  · exact heff.keeps_afterKey hinv.cfg hkey

/-- No step makes a RESTORE pending: it is asked for from outside (R173, log 15). -/
theorem step_keeps_no_restore {s t : State} (hop : ∀ x, s.hostOp ≠ some (.restore x)) (hstep : step s = .next t) :
    ∀ x, t.hostOp ≠ some (.restore x) := by
  obtain heq | heq := step_hostOp hstep <;> rw [heq]
  · exact hop
  · simp

/-- Settles O25, by the steps of the run: each keeps the invariant, brings no RESTORE, and leaves the key behind. -/
theorem firingsComeInKeyOrder : Obligations.FiringsComeInKeyOrder := by
  intro n s t time seq hinv hop hkey hrun
  obtain ⟨-, -, hkey'⟩ :=
    run_keeps (P := fun s => s.Inv ∧ (∀ x, s.hostOp ≠ some (.restore x)) ∧ s.AfterKey time seq)
      (fun _ _ ⟨hinv, hop, hkey⟩ hstep => ⟨stepWith_keeps_inv hinv hstep, step_keeps_no_restore hop hstep,
        step_keeps_afterKey hinv hop hkey hstep⟩) n ⟨hinv, hop, hkey⟩ hrun
  exact hkey'

end Sys2Proof.Machine
end

section
/-! PROOFS. What the commands of the timer do (40_timer.md): SCHED, CANCEL, ADVANCE, CBDONE, QUERY and the two reads of
time. -/
namespace Sys2Proof.Machine

section
variable {s : State}

/-! ## SCHED (R100, R101) -/

section
variable {absolute recurring : Bool} {t p : Int} {y : Word}

/-- The checks of SCHED that look at its operands alone let a period through exactly on a recurring event. -/
theorem exec_sched_of_period (hf : s.items.fault = 0) (h : (recurring = false ∧ p = 0) ∨ (recurring = true ∧ 0 < p)) :
    exec (.sched absolute t recurring p y) s = .next (
      if 2 ^ 64 ≤ fireTime s.items.now absolute t then s.raiseFault .timeOverflow 0x10
      else if roomFor s.cfg (s.items.occ + 1) = false then s.raiseFault .queueFull 0x10
      else if 2 ^ 64 ≤ s.items.nextHandle.toNat + 1 then s.raiseFault .handleExhausted 0x10
      else (s.insertNew (fireTime s.items.now absolute t) (.ext y) recurring
        (if recurring then BitVec.ofInt 64 p else 0)).respond [s.items.nextHandle]) := by
  have hdiag : ¬ (recurring = false ∧ p ≠ 0) := by
    rintro ⟨rfl, hp⟩
    simp [hp] at h
  have hfault : ¬ (recurring = true ∧ p ≤ 0) := by
    rintro ⟨rfl, hp⟩
    simp only [Bool.true_eq_false, false_and, true_and, false_or] at h
    omega
  rw [exec, execSched, unlessFaulted_of_unfaulted _ hf, State.schedule, if_neg hdiag, if_neg hfault]

theorem fireTime_lt_iff {now : Word} : fireTime now absolute t < 2 ^ 64 ↔
    max (now.toNat : Int) (if absolute then t else now.toNat + t) < 2 ^ 64 := by
  rw [← fireTime_cast]
  omega

theorem roomFor_succ_iff {q : Params} {n : Nat} : roomFor q (n + 1) = true ↔ ∀ k, q.queueCapacity = some k → n < k :=
  roomFor_iff

/-- A period that R75 admits is held by its 64-bit field. -/
theorem toNat_period (hp : inS64 p = true) (h : (recurring = false ∧ p = 0) ∨ (recurring = true ∧ 0 < p)) :
    ((if recurring then BitVec.ofInt 64 p else 0 : Word).toNat : Int) = p := by
  simp only [inS64, Bool.and_eq_true, decide_eq_true_eq] at hp
  obtain ⟨rfl, rfl⟩ | ⟨rfl, hpos⟩ := h
  · simp
  · simp only [↓reduceIte, BitVec.toNat_ofInt]
    omega

end

/-- Settles O11: past its checks SCHED is the insertion under the next handle, which it answers. -/
theorem schedInsertsTheEvent : Obligations.SchedInsertsTheEvent := by
  intro s absolute t recurring p y hf hwf hzero hpos htime hroom hhandle
  have hperiod : (recurring = false ∧ p = 0) ∨ (recurring = true ∧ 0 < p) := by
    cases recurring with
    | false => exact .inl ⟨rfl, hzero rfl⟩
    | true => exact .inr ⟨rfl, hpos rfl⟩
  have hfits := fireTime_lt_iff.2 htime
  have hs64 : inS64 p = true := by
    rw [Instr.wf, Bool.and_eq_true] at hwf
    exact hwf.2
  have hexec : exec (.sched absolute t recurring p y) s = .next
      ((s.insertNew (fireTime s.items.now absolute t) (.ext y) recurring
        (if recurring then BitVec.ofInt 64 p else 0)).respond [s.items.nextHandle]) := by
    rw [exec_sched_of_period hf hperiod, if_neg (by omega), if_neg (by simpa using roomFor_succ_iff.2 hroom),
      if_neg (by omega)]
  refine ⟨⟨s.items.nextHandle, BitVec.ofNat 64 (fireTime s.items.now absolute t), .ext y, recurring, _,
    s.items.nextSeq⟩, _, hexec, rfl, rfl, rfl, rfl, ?_, toNat_period hs64 hperiod, insertEntry_perm .., rfl⟩
  rw [BitVec.toNat_ofNat, Nat.mod_eq_of_lt hfits, fireTime_cast]

/-- Settles O12: each refusal is the branch of SCHED that its clause names, the branches before it being shut. -/
theorem schedRefusalsInOrder : Obligations.SchedRefusalsInOrder := by
  intro s absolute t recurring p y hf
  refine ⟨?_, ?_, fun hperiod => ⟨fun htime => ?_, fun htime => ⟨fun n hcap hfull => ?_, fun hroom hlast => ?_⟩⟩⟩
  · rintro rfl hp
    rw [exec, execSched, unlessFaulted_of_unfaulted _ hf, State.schedule, if_pos ⟨rfl, hp⟩]
    simp [State.recordDiag, State.respond, diagCode]
  · rintro rfl hp
    rw [exec, execSched, unlessFaulted_of_unfaulted _ hf, State.schedule, if_neg (by simp), if_pos ⟨rfl, hp⟩]
    rfl
  all_goals rw [exec_sched_of_period hf hperiod]
  · have hover : 2 ^ 64 ≤ fireTime s.items.now absolute t := by
      rw [← Nat.not_lt, fireTime_lt_iff]
      omega
    rw [if_pos hover]
    rfl
  all_goals
    have hfits := fireTime_lt_iff.2 htime
    rw [if_neg (by omega)]
  · have hnoroom : roomFor s.cfg (s.items.occ + 1) = false := by
      rw [← Bool.not_eq_true, roomFor_succ_iff]
      exact fun h => absurd (h n hcap) (by omega)
    rw [if_pos hnoroom]
    rfl
  · rw [if_neg (by simpa using roomFor_succ_iff.2 hroom), if_pos (by omega)]
    rfl

/-! ## Looking a handle up (R35) -/

theorem lookup_of_queued {x : Items} {h : Word} (hq : ∃ e ∈ x.queue, e.handle = h) :
    ∃ e ∈ x.queue, e.handle = h ∧ x.lookup h = .queued e := by
  obtain ⟨e, he, hh⟩ := hq
  obtain hfound | ⟨hno, -⟩ | ⟨hno, -⟩ := lookup_cases x h
  · exact hfound
  · exact absurd hh (hno e he)
  · exact absurd hh (hno e he)

theorem lookup_of_firing {x : Items} {h : Word} {c : CurEvent} (hq : ∀ e ∈ x.queue, e.handle ≠ h)
    (hc : x.cur = some c) (hlive : c.live = true) (hh : c.entry.handle = h) : x.lookup h = .firing c := by
  obtain ⟨e, he, heq, -⟩ | ⟨-, c', hc', -, -, hl⟩ | ⟨-, hno, -⟩ := lookup_cases x h
  · exact absurd heq (hq e he)
  · rw [hl, Option.some.inj (hc.symm.trans hc')]
  · exact absurd hh (hno c hc hlive)

theorem lookup_of_stale {x : Items} {h : Word} (hq : ∀ e ∈ x.queue, e.handle ≠ h)
    (hcur : ∀ c, x.cur = some c → c.live = true → c.entry.handle ≠ h) : x.lookup h = .stale := by
  obtain ⟨e, he, heq, -⟩ | ⟨-, c, hc, hlive, hh, -⟩ | ⟨-, -, hl⟩ := lookup_cases x h
  · exact absurd heq (hq e he)
  · exact absurd hh (hcur c hc hlive)
  · exact hl

/-! ## CANCEL (R103) -/

theorem exec_cancel_eq (hf : s.items.fault = 0) (h : Word) : exec (.cancel h) s = .next (s.cancelHandle h) :=
  congrArg Host.Outcome.next (unlessFaulted_of_unfaulted _ hf)

/-- Settles O13, by what the handle names. -/
theorem cancelByHandle : Obligations.CancelByHandle := by
  refine ⟨fun h rest => decode_encode (i := .cancel h) rfl rest, fun s h hf => ?_⟩
  rw [exec_cancel_eq hf, State.cancelHandle]
  refine ⟨fun hq => ?_, fun hq c hc hlive hh => ?_, fun hq hcur => ?_⟩
  · obtain ⟨e, -, rfl, hl⟩ := lookup_of_queued hq
    rw [hl]
    rfl
  · rw [lookup_of_firing hq hc hlive hh]
  · rw [lookup_of_stale hq hcur]
    rfl

/-! ## ADVANCE (R104) -/

theorem exec_advance_eq (hf : s.items.fault = 0) (t : Word) : exec (.advance t) s = .next (s.advanceTo t) :=
  congrArg Host.Outcome.next (unlessFaulted_of_unfaulted _ hf)

theorem advanceTo_of_idle (hp : s.items.phase = .idle) (t : Word) : s.advanceTo t =
    if t.toNat < s.items.now.toNat then s.recordDiag .timeBackward 0x12 else { s with items.phase := .draining t } := by
  simp only [State.advanceTo, hp]

theorem advanceTo_of_callback {T : Word} (hp : s.items.phase = .callback T) (t : Word) :
    s.advanceTo t = s.raiseFault .reentrant 0x12 := by
  simp only [State.advanceTo, hp]

/-- Settles O14, by the phase and, in IDLE, the comparison of the target with `now`. -/
theorem advanceStartsTheDrain : Obligations.AdvanceStartsTheDrain := by
  refine ⟨fun t rest => decode_encode (i := .advance t) rfl rest, fun s t hf => ?_⟩
  rw [exec_advance_eq hf]
  refine ⟨fun hp hle => ?_, fun hp hlt => ?_, fun T hp => ?_⟩
  · rw [advanceTo_of_idle hp, if_neg (by omega)]
  · rw [advanceTo_of_idle hp, if_pos hlt]
    rfl
  · rw [advanceTo_of_callback hp]
    rfl

/-! ## CBDONE (R110, R111) -/

/-- The next time of an event, as a word, is its fire time plus its period. -/
theorem ofNat_rearmTime (e : Entry) : BitVec.ofNat 64 (rearmTime e) = e.fireTime + e.period := by
  rw [rearmTime, BitVec.ofNat_add]
  simp

theorem exec_cbdone_of_callback {T : Word} {c : CurEvent} (hf : s.items.fault = 0)
    (hp : s.items.phase = .callback T) (hc : s.items.cur = some c) : exec .cbdone s = .next (s.endCallback T c) := by
  rw [exec, execCbdone, if_pos hf, State.callbackDone]
  simp only [hp, hc]

theorem endCallback_of_live {T : Word} {c : CurEvent} (hlive : c.live = true) (hfits : rearmTime c.entry < 2 ^ 64) :
    s.endCallback T c = { s.rearm c.entry with items.cur := none, items.phase := .draining T } := by
  rw [State.endCallback, if_pos hlive, if_neg (by omega)]

theorem endCallback_of_dead {T : Word} {c : CurEvent} (hdead : c.live = false) :
    s.endCallback T c = { s with items.cur := none, items.phase := .draining T } := by
  rw [State.endCallback, if_neg (by simp [hdead])]

/-- The word of CBDONE (R82). -/
theorem decode_cbdone (rest : List PortWord) :
    decode (.wordWide (.w32 0x13000000 :: rest)) = .command .cbdone (.wordWide rest) :=
  decode_encode (i := .cbdone) rfl rest

/-- Settles O15, by the phase and the live bit. -/
theorem cbdoneEndsTheCallback : Obligations.CbdoneEndsTheCallback := by
  refine ⟨decode_cbdone, fun s hf => ⟨fun T c hp hc hlive hfits => ?_, fun T c hp hc hdead => ?_, fun hp => ?_⟩⟩
  · refine ⟨_, exec_cbdone_of_callback hf hp hc, ?_⟩
    rw [endCallback_of_live hlive hfits, ← ofNat_rearmTime]
    exact ⟨insertEntry_perm .., rfl⟩
  · rw [exec_cbdone_of_callback hf hp hc, endCallback_of_dead hdead]
  · rw [exec, execCbdone, if_pos hf, State.callbackDone, hp]
    rfl

/-! ## QUERY (R115) -/

theorem exec_query_eq (hf : s.items.fault = 0) (h : Word) : exec (.query h) s = .next (s.queryHandle h) :=
  congrArg Host.Outcome.next (unlessFaulted_of_unfaulted _ hf)

/-- QUERY's four words, the bits of the first (valid, recurring, firing and kind) as a sum (R115). -/
theorem queryWords_eq (e : Entry) (firing : Bool) : queryWords e firing =
    [BitVec.ofNat 64 (1 + 2 * e.recurring.toNat + 4 * firing.toNat + 256 * (payloadKind e.payload).toNat),
      e.fireTime, e.period, payloadWord e.payload] := by
  have hflags : ∀ (kind : BitVec 2) (firing recurring : Bool),
      (kind ++ 0#5 ++ BitVec.ofBool firing ++ BitVec.ofBool recurring ++ 1#1).zeroExtend 64 =
        BitVec.ofNat 64 (1 + 2 * recurring.toNat + 4 * firing.toNat + 256 * kind.toNat) := by decide
  rw [queryWords, hflags]

/-- QUERY's word for the line of an internal event: the CPU id above the line id (R115). -/
theorem lineIdsWord_eq (c l : Fin 2) : (BitVec.ofNat 8 c.val ++ BitVec.ofNat 8 l.val).zeroExtend 64 =
    BitVec.ofNat 64 (256 * c.val + l.val) := by
  revert c l
  decide

/-- Settles O18, by what the handle names and, for an entry of Q, its payload. -/
theorem queryReportsTheEvent : Obligations.QueryReportsTheEvent := by
  refine ⟨fun h rest => decode_encode (i := .query h) rfl rest, fun s h hf => ?_⟩
  rw [exec_query_eq hf, State.queryHandle]
  refine ⟨fun e he hh honly => ?_, fun hq c y hc hlive hh hy => ?_, fun hq hcur => ?_⟩
  · obtain ⟨x, hx, hxh, hl⟩ := lookup_of_queued ⟨e, he, hh⟩
    obtain rfl := honly x hx hxh
    rw [hl]
    cases hpay : x.payload <;>
      simp [State.respond, queryWords_eq, payloadKind, payloadWord, lineIdsWord_eq, hpay]
  · have hsum : 1 + 2 * c.entry.recurring.toNat + 4 = 5 + 2 * c.entry.recurring.toNat := by omega
    rw [lookup_of_firing hq hc hlive hh]
    simp [State.respond, queryWords_eq, payloadKind, payloadWord, hy, hsum]
  · rw [lookup_of_stale hq hcur]
    rfl

/-! ## RDNOW and RDSCAN (R114, R116) -/

/-- Settles O16. -/
theorem rdnowAnswersNow : Obligations.RdnowAnswersNow :=
  ⟨fun rest => decode_encode (i := .rdnow) rfl rest,
    fun _ hf => congrArg Host.Outcome.next (unlessFaulted_of_unfaulted _ hf)⟩

theorem toNat_parameterWord {n : Nat} (h : n < 2 ^ 64) : (parameterWord n).toNat = n := by
  rw [parameterWord, if_pos h, BitVec.toNat_ofNat, Nat.mod_eq_of_lt h]

/-- The position is computed from `now` and is no larger, so 64 bits hold it. -/
theorem currentScanline_le (q : Params) (now : Word) : currentScanline q now ≤ now.toNat :=
  (Nat.mod_le ..).trans (Nat.div_le_self ..)

/-- Settles O17. -/
theorem rdscanAnswersThePosition : Obligations.RdscanAnswersThePosition := by
  refine ⟨fun rest => decode_encode (i := .rdscan) rfl rest, fun s hf => ⟨_, _, _,
    congrArg Host.Outcome.next (unlessFaulted_of_unfaulted _ hf), ?_, toNat_parameterWord, toNat_parameterWord⟩⟩
  have hlt := (currentScanline_le s.cfg s.items.now).trans_lt s.items.now.isLt
  rw [BitVec.toNat_ofNat, Nat.mod_eq_of_lt hlt]
  rfl

end

end Sys2Proof.Machine
end

section
/-! PROOFS. What a drain step does (R106, R107), by the due entry of least key, and what runs of drain steps do: pulses
that are not merged (R119, R135) and firings that do not drift (R118). -/
namespace Sys2Proof.Machine

/-! ## The due entry of least key -/

section
variable {s : State} {T : Word} {e : Entry}

theorem drainStep_of_none_due (hlate : ∀ e ∈ s.items.queue, T.toNat < e.fireTime.toNat) :
    s.drainStep T = { s with
      items := { s.items with now := T, phase := .idle }, history := s.history ++ [.done T] } := by
  obtain ⟨-, heq⟩ | ⟨e, he, hdue, -⟩ := drainStep_cases s T
  · exact heq
  · exact absurd (hlate e he) hdue.not_gt

/-- The entry that a drain step looks at is the due one whose key is less than every other's. -/
theorem drainStep_of_least (he : e ∈ s.items.queue) (hdue : e.fireTime.toNat ≤ T.toNat)
    (hleast : ∀ x ∈ s.items.queue, x ≠ e → keyLess e x) :
    (e.recurring = true ∧ 2 ^ 64 ≤ rearmTime e ∧ s.drainStep T = s.raiseFault .timeOverflow 0xFF) ∨
      ((e.recurring = true → rearmTime e < 2 ^ 64) ∧ s.drainStep T = s.fireEvent T e) := by
  obtain ⟨hlate, -⟩ | ⟨x, hx, -, hmin, hcases⟩ := drainStep_cases s T
  · exact absurd (hlate e he) hdue.not_gt
  · obtain rfl : x = e := by
      by_contra hne
      exact hmin e he (hleast x hx hne)
    exact hcases

/-- With a next time that 64 bits hold, the due entry of least key fires. -/
theorem step_fires_least (hp : s.items.phase = .draining T) (hf : s.items.fault = 0) (he : e ∈ s.items.queue)
    (hdue : e.fireTime.toNat ≤ T.toNat) (hleast : ∀ x ∈ s.items.queue, x ≠ e → keyLess e x)
    (hfits : e.recurring = true → rearmTime e < 2 ^ 64) : step s = .next (s.fireEvent T e) := by
  rw [step_of_draining hp hf]
  obtain ⟨hrec, hover, -⟩ | ⟨-, heq⟩ := drainStep_of_least he hdue hleast
  · exact absurd (hfits hrec) hover.not_gt
  · rw [heq]

end

/-- Settles O19. -/
theorem drainEndsWhenNothingIsDue : Obligations.DrainEndsWhenNothingIsDue := by
  intro s T hp hf hlate
  rw [step_of_draining hp hf, drainStep_of_none_due hlate]

/-- Settles O22: of the two things a drain step can do with the due entry of least key, the firing is shut out. -/
theorem drainFaultsBeforeAnOverflow : Obligations.DrainFaultsBeforeAnOverflow := by
  intro s T e hp hf he hdue hleast hrec hover
  rw [step_of_draining hp hf]
  obtain ⟨-, -, heq⟩ | ⟨hfits, -⟩ := drainStep_of_least he hdue hleast
  · rw [heq]
    rfl
  · exact absurd (hfits hrec) hover.not_gt

/-- A firing does not end the drain (R113). -/
theorem fireEvent_phase_ne_idle {s : State} {T : Word} (hp : s.items.phase = .draining T) (e : Entry) :
    (s.fireEvent T e).items.phase ≠ .idle := by
  obtain ⟨y, -, hitems⟩ | ⟨-, -, hitems⟩ | ⟨-, -, hitems⟩ := fireEvent_items s T e <;> rw [hitems] <;> simp [hp]

/-- Settles O23: of the three things a drain step can do, only the one with nothing due leaves the phase IDLE. -/
theorem noDrainEndsWithAnEventDue : Obligations.NoDrainEndsWithAnEventDue := by
  intro s t T hp hf hstep hidle
  obtain rfl := Host.Outcome.next.inj ((step_of_draining hp hf).symm.trans hstep)
  obtain ⟨hlate, heq⟩ | ⟨e, -, -, -, ⟨-, -, heq⟩ | ⟨-, heq⟩⟩ := drainStep_cases s T
  all_goals rw [heq] at hidle ⊢
  · exact ⟨rfl, hlate⟩
  · simp [hp] at hidle
  · exact absurd hidle (fireEvent_phase_ne_idle hp e)

/-- Settles O24: the entries that stay in Q have greater keys, and a re-arm brings a later time. -/
theorem firingLeavesOnlyLaterKeys : Obligations.FiringLeavesOnlyLaterKeys := by
  intro s T e hinv hp hf he hdue hleast hfits
  refine ⟨_, step_fires_least hp hf he hdue hleast hfits, afterKey_iff.2 ?_⟩
  refine fireEvent_afterKey hinv.items hp he hfits le_rfl (hinv.items.below e he).2.2 fun x hx => ?_
  obtain ⟨hx, hhandle⟩ := mem_removeHandle.1 hx
  exact after_of_keyLess (hleast x hx fun heq => hhandle (congrArg Entry.handle heq))

/-- Settles O20. -/
theorem drainCallsTheClientOfTheLeastKey : Obligations.DrainCallsTheClientOfTheLeastKey := by
  intro s T e y hp hf he hdue hleast hpay hfits
  rw [step_fires_least hp hf he hdue hleast hfits, fireEvent_of_ext s T hpay]
  rfl

/-! ## Internal events (R107, R134) -/

/-- What an internal event does to its line: LineAssert or LineClear. -/
def State.driveLine (s : State) (c l : Fin 2) (level : Bool) : State :=
  if level then s.lineAssert c l else s.lineClear c l

section
variable (s : State) (c l : Fin 2) (level : Bool)

theorem line_driveLine (i j : Fin 2) : (s.driveLine c l level).items.line i j =
    if i = c ∧ j = l then level else s.items.line i j := by
  cases level with
  | false => exact (line_lineClear s c l i j).trans (by simp only [eq_comm])
  | true => exact (line_lineAssert s c l i j).trans (by simp only [eq_comm])

/-- All that driving a line does: `asserted` (see `line_driveLine`) and, if the level changes, one message. -/
theorem driveLine_eq : s.driveLine c l level = { s with
    items := { s.items with asserted := (s.driveLine c l level).items.asserted }
    history := s.history ++ (if s.items.line c l = level then []
      else [.cpu (if level then .assertLine c l else .clearLine c l) s.items.now]) } := by
  cases level with
  | false => exact lineClear_eq s c l
  | true => exact lineAssert_eq s c l

/-- The firing of an internal event drives its line and re-arms a recurring event (R106, R111). -/
theorem fireEvent_of_internal (T : Word) {e : Entry}
    (hpay : e.payload = if level then .irqAssert c l else .irqClear c l) :
    s.fireEvent T e = if e.recurring then ((s.takeDue e).driveLine c l level).rearm e
      else (s.takeDue e).driveLine c l level := by
  cases level with
  | false => exact fireEvent_of_irqClear s T hpay
  | true => exact fireEvent_of_irqAssert s T hpay

end

/-- Settles O21: the firing is LineAssert or LineClear at the fire time, and a re-arm of a recurring event. -/
theorem drainFiresInternalEvents : Obligations.DrainFiresInternalEvents := by
  intro s T e c l level hp hf he hdue hleast hpay hfits
  have hfire := fireEvent_of_internal s c l level T hpay
  refine ⟨_, step_fires_least hp hf he hdue hleast hfits, fun i j => ?_, fun hrec => ?_, fun hrec => ?_, ?_, ?_⟩
  · have hline := line_driveLine (s.takeDue e) c l level i j
    rw [hfire]
    split
    · exact hline
    · exact hline
  · rw [hfire, if_neg (by simp [hrec]), driveLine_eq]
    exact ⟨rfl, rfl⟩
  · rw [hfire, if_pos hrec, driveLine_eq, ← ofNat_rearmTime]
    exact ⟨rfl, insertEntry_perm ..⟩
  all_goals
    rw [hfire, driveLine_eq]
    split <;> rfl

/-! ## Pulses (R119, R135) -/

section
variable {s : State} {T : Word} {c l : Fin 2}

/-- A recurring internal event at the front of a rearranged Q fires and is back at its next time; the others stay. -/
theorem step_fires_recurring_internal {e : Entry} {others : List Entry} {level : Bool}
    (hp : s.items.phase = .draining T) (hf : s.items.fault = 0) (hq : s.items.queue.Perm (e :: others))
    (hdue : e.fireTime.toNat ≤ T.toNat) (hothers : ∀ x ∈ others, keyLess e x ∧ x.handle ≠ e.handle)
    (hpay : e.payload = if level then .irqAssert c l else .irqClear c l) (hrec : e.recurring = true)
    (hfits : e.fireTime.toNat + e.period.toNat < 2 ^ 64) :
    ∃ u, step s = .next u ∧ u.items.phase = .draining T ∧ u.items.fault = 0 ∧ u.items.line c l = level ∧
      (∃ q, u.items.queue.Perm ({ e with fireTime := e.fireTime + e.period, seq := q } :: others)) ∧
      u.history = s.history ++ (if s.items.line c l = level then []
        else [.cpu (if level then .assertLine c l else .clearLine c l) e.fireTime]) := by
  have hleast : ∀ x ∈ s.items.queue, x ≠ e → keyLess e x := fun x hx hne =>
    (hothers x ((List.mem_cons.1 (hq.mem_iff.1 hx)).resolve_left hne)).1
  obtain ⟨u, hstep, hline, -, hqueue, hhist, heq⟩ := drainFiresInternalEvents s T e c l level hp hf
    (hq.mem_iff.2 List.mem_cons_self) hdue hleast hpay fun _ => hfits
  have hrest : (s.items.queue.filter fun x => x.handle != e.handle).Perm others := by
    have hkeep : others.filter (fun x => x.handle != e.handle) = others :=
      List.filter_eq_self.2 fun x hx => by simpa using (hothers x hx).2
    have hperm := hq.filter fun x => x.handle != e.handle
    rwa [List.filter_cons_of_neg (by simp), hkeep] at hperm
  refine ⟨u, hstep, by rw [heq, ← hp], by rw [heq, ← hf], by simp [hline],
    ⟨_, (hqueue hrec).2.trans (hrest.cons _)⟩, hhist⟩

/-- Q of a pulse train whose next assert is at `ta`, its clear `h` ticks later, beside the entries `rest`. -/
def pulseQueue (ha hc : Word) (c l : Fin 2) (h fp : Nat) (rest : List Entry) (ta qa qc : Nat) : List Entry :=
  ⟨ha, BitVec.ofNat 64 ta, .irqAssert c l, true, BitVec.ofNat 64 fp, qa⟩ ::
    ⟨hc, BitVec.ofNat 64 (ta + h), .irqClear c l, true, BitVec.ofNat 64 fp, qc⟩ :: rest

/-- The state between two pulses of a drain to `T`: the line is clear and Q is that of the train. -/
structure BetweenPulses (T ha hc : Word) (c l : Fin 2) (h fp : Nat) (rest : List Entry) (ta : Nat) (s : State) :
    Prop where
  phase : s.items.phase = .draining T
  unfaulted : s.items.fault = 0
  line : s.items.line c l = false
  queue : ∃ qa qc, s.items.queue.Perm (pulseQueue ha hc c l h fp rest ta qa qc)

section
variable {ha hc : Word} {h fp : Nat} {rest : List Entry} (hhandles : ha ≠ hc) (hpos : 0 < h) (hlt : h < fp)
  (hlate : ∀ e ∈ rest, T.toNat < e.fireTime.toNat ∧ e.handle ≠ ha ∧ e.handle ≠ hc)
include hhandles hpos hlt hlate

/-- Two drain steps run one pulse: the assert fires before the clear, and the clear before the next assert. -/
theorem BetweenPulses.run_pulse {ta : Nat} (hs : BetweenPulses T ha hc c l h fp rest ta s)
    (hfits : ta + fp + h < 2 ^ 64) (hdue : ta + h ≤ T.toNat) :
    ∃ u, (∀ n, core.run (n + 2) s = core.run n u) ∧ BetweenPulses T ha hc c l h fp rest (ta + fp) u ∧
      u.history = s.history ++ pulseMessages c l ta h := by
  obtain ⟨qa, qc, hq⟩ := hs.queue
  have hword {n : Nat} (hn : n < 2 ^ 64) : (BitVec.ofNat 64 n).toNat = n := by
    rw [BitVec.toNat_ofNat, Nat.mod_eq_of_lt hn]
  have hta : (BitVec.ofNat 64 ta).toNat = ta := hword (by omega)
  have htc : (BitVec.ofNat 64 (ta + h)).toNat = ta + h := hword (by omega)
  have hta' : (BitVec.ofNat 64 ta + BitVec.ofNat 64 fp).toNat = ta + fp := by
    rw [← BitVec.ofNat_add]
    exact hword (by omega)
  have hfp : (BitVec.ofNat 64 fp).toNat = fp := hword (by omega)
  obtain ⟨u, hstep, hphase, hfault, hline, ⟨qa', hq⟩, hhist⟩ :=
    step_fires_recurring_internal (c := c) (l := l) (level := true) hs.phase hs.unfaulted hq
      (by simp only [hta]; omega)
      (by
        intro x hx
        obtain rfl | hx := List.mem_cons.1 hx
        · exact ⟨.inl (by simp only [hta, htc]; omega), hhandles.symm⟩
        · obtain ⟨hxT, hxa, -⟩ := hlate x hx
          exact ⟨.inl (by simp only [hta]; omega), hxa⟩)
      rfl rfl (by simp only [hta, hfp]; omega)
  obtain ⟨v, hstep', hphase', hfault', hline', ⟨qc', hq'⟩, hhist'⟩ :=
    step_fires_recurring_internal (c := c) (l := l) (level := false) hphase hfault (hq.trans (List.Perm.swap ..))
      (by simp only [htc]; omega)
      (by
        intro x hx
        obtain rfl | hx := List.mem_cons.1 hx
        · exact ⟨.inl (by simp only [hta', htc]; omega), hhandles⟩
        · obtain ⟨hxT, -, hxc⟩ := hlate x hx
          exact ⟨.inl (by simp only [htc]; omega), hxc⟩)
      rfl rfl (by simp only [htc, hfp]; omega)
  refine ⟨v, fun n => by rw [run_succ_of_step hstep, run_succ_of_step hstep'],
    ⟨hphase', hfault', hline', qa', qc', ?_⟩, ?_⟩
  · simp only [← BitVec.ofNat_add, show ta + h + fp = ta + fp + h by omega] at hq'
    exact hq'.trans (List.Perm.swap ..)
  · simp [hhist', hhist, hs.line, hline, pulseMessages]

/-- `k` due pulses run one after the other in `2 * k` drain steps. -/
theorem BetweenPulses.run_pulses (k : Nat) {ta : Nat} (hs : BetweenPulses T ha hc c l h fp rest ta s)
    (hfits : ta + k * fp + h < 2 ^ 64) (hdue : ∀ j < k, ta + j * fp + h ≤ T.toNat) :
    ∃ u, core.run (2 * k) s = .next u ∧ BetweenPulses T ha hc c l h fp rest (ta + k * fp) u ∧
      u.history = s.history ++ pulseTrain c l ta h fp k := by
  induction k generalizing s ta with
  | zero => exact ⟨s, rfl, by simpa using hs, by simp [pulseTrain]⟩
  | succ k ih =>
    have hshift (j : Nat) : ta + (j + 1) * fp = ta + fp + j * fp := by
      rw [Nat.succ_mul]
      omega
    rw [hshift] at hfits ⊢
    obtain ⟨u, hrun, hu, hhist⟩ := hs.run_pulse hhandles hpos hlt hlate (by omega) (by simpa using hdue 0 (by omega))
    obtain ⟨v, hrun', hv, hhist'⟩ := ih hu hfits fun j hj => hshift j ▸ hdue (j + 1) (by omega)
    exact ⟨v, (hrun (2 * k)).trans hrun', hv, by rw [hhist', hhist, pulseTrain, List.append_assoc]⟩

end

end

/-- Horizontal blank begins before the frame ends (R7). -/
theorem hblankStart_lt_framePeriod {p : Params} (h : p.valid = true) : p.hblankStart < framePeriod p := by
  obtain ⟨-, hN, -, hlt⟩ := (params_valid_iff p).1 h
  exact hlt.trans_le (Nat.le_mul_of_pos_left _ hN)

/-- Settles O26, by the number of pulses. -/
theorem oneAdvanceRunsEveryPulse : Obligations.OneAdvanceRunsEveryPulse := by
  intro k s T ha hc c l ta qa qc rest hcfg hp hf hline _ hhandles hfits hdue hlate hq
  obtain ⟨-, -, hpos, -⟩ := (params_valid_iff s.cfg).1 hcfg
  have hs : BetweenPulses T ha hc c l s.cfg.hblankStart (framePeriod s.cfg) rest ta s := ⟨hp, hf, hline, qa, qc, hq⟩
  obtain ⟨u, hrun, hu, hhist⟩ :=
    hs.run_pulses hhandles hpos (hblankStart_lt_framePeriod hcfg) hlate k hfits hdue
  obtain ⟨qa', qc', hq'⟩ := hu.queue
  exact ⟨u, qa', qc', hrun, hhist, hu.line, hu.phase, hq'⟩

/-! ## Recurring external events (R118) -/

section
variable {s : State} {T : Word}

/-- A CBDONE that the client has offered ends the callback (R24, R110). -/
theorem step_offered_cbdone {c : CurEvent} {ws : List PortWord} (hp : s.items.phase = .callback T)
    (hf : s.items.fault = 0) (hc : s.items.cur = some c)
    (hport : s.clientPort = .wordWide (.w32 0x13000000 :: ws)) :
    step s = .next (State.endCallback { s with clientPort := .wordWide ws } T c) := by
  have htake := takeFromClient_of_command (s := s) (by rw [hport]; exact decode_cbdone ws)
  rw [step_of_command (not_served_of_callback hp) ((takeCommand_of_callback hp hf).trans htake)]
  exact exec_cbdone_of_callback hf hp hc

/-- A recurring external event alone in Q fires, and the client's CBDONE puts it back at its next time. -/
theorem run_fire_cbdone {e : Entry} {y : Word} {ws : List PortWord} (hp : s.items.phase = .draining T)
    (hf : s.items.fault = 0) (hq : s.items.queue = [e]) (hpay : e.payload = .ext y) (hrec : e.recurring = true)
    (hdue : e.fireTime.toNat ≤ T.toNat) (hfits : rearmTime e < 2 ^ 64)
    (hport : s.clientPort = .wordWide (.w32 0x13000000 :: ws)) :
    ∃ u q, (∀ n, core.run (n + 2) s = core.run n u) ∧ u.items.phase = .draining T ∧ u.items.fault = 0 ∧
      u.items.queue = [{ e with fireTime := BitVec.ofNat 64 (rearmTime e), seq := q }] ∧
      u.clientPort = .wordWide ws ∧ u.history = s.history ++ [.fire e.handle y e.fireTime] := by
  have hfire := step_fires_least hp hf (by simp [hq]) hdue (by simp [hq]) fun _ => hfits
  rw [fireEvent_of_ext s T hpay] at hfire
  have hdone := step_offered_cbdone (s := State.emit { s.takeDue e with
    items.cur := some { entry := e, live := e.recurring }, items.phase := .callback T } (.fire e.handle y e.fireTime))
    rfl hf rfl hport
  rw [endCallback_of_live hrec hfits] at hdone
  have hgone : removeHandle e.handle s.items.queue = [] := by simp [hq, removeHandle]
  have hrun (n : Nat) := (run_succ_of_step (n := n + 1) hfire).trans (run_succ_of_step hdone)
  exact ⟨_, _, hrun, rfl, hf, congrArg (insertEntry _) hgone, rfl, rfl⟩

end

/-- Settles O27, by the number of firings: each is a firing and a CBDONE, which leave the event one period later. -/
theorem recurringFiringsDoNotDrift : Obligations.RecurringFiringsDoNotDrift := by
  intro k s T h y p f q hp hf hfits hdue hq hport
  induction k generalizing s f q with
  | zero => exact ⟨s, q, rfl, by simp, by simpa using hq, hp, hport⟩
  | succ k ih =>
    have hshift (j : Nat) : f + (j + 1) * p.toNat = f + p.toNat + j * p.toNat := by
      rw [Nat.succ_mul]
      omega
    rw [hshift] at hfits
    have hword : (BitVec.ofNat 64 f).toNat = f := by
      rw [BitVec.toNat_ofNat, Nat.mod_eq_of_lt (by omega)]
    have hnext : rearmTime ⟨h, BitVec.ofNat 64 f, .ext y, true, p, q⟩ = f + p.toNat := by
      simp only [rearmTime, hword]
    obtain ⟨u, q', hrun, hphase, hfault, hqueue, hclient, hhist⟩ := run_fire_cbdone hp hf hq rfl rfl
      (by simpa [hword] using hdue 0 (by omega)) (by rw [hnext]; omega) hport
    rw [hnext] at hqueue
    obtain ⟨v, q'', hrun', hhist', hrest⟩ :=
      ih u (f + p.toNat) q' hphase hfault hfits (fun j hj => hshift j ▸ hdue (j + 1) (by omega)) hqueue hclient
    refine ⟨v, q'', (hrun (2 * k)).trans hrun', ?_, by rwa [hshift]⟩
    simp [hhist', hhist, List.range_succ_eq_map, hshift]

end Sys2Proof.Machine
end

section
/-! PROOFS. What the commands of the interrupt-line controller do (41_interrupt.md): the id check, IRQ.SET and IRQ.CLR,
IRQ.RD, the pulse of IRQ.PER and its first assert; and that no other command writes a line (R134). -/
namespace Sys2Proof.Machine

/-! ## The id check (R138) -/

section
variable {s : State} {c l : Byte}

/-- An id of 2 or more stops an ILC command before its body. -/
theorem unlessFaulted_onLine_of_badId (hf : s.items.fault = 0) (hids : 2 ≤ c.toNat ∨ 2 ≤ l.toNat) (opc : Byte)
    (f : State → Fin 2 → Fin 2 → State) :
    s.unlessFaulted (fun s => s.onLine opc c l f) = s.raiseFault .badId opc := by
  rw [unlessFaulted_of_unfaulted _ hf, State.onLine, lineOf_none.2 hids]

/-- With ids in range an ILC command in an unfaulted TIA is its body, on the line they name. -/
theorem unlessFaulted_onLine_of_ids {i j : Fin 2} (hf : s.items.fault = 0) (hc : c.toNat = i.val)
    (hl : l.toNat = j.val) (opc : Byte) (f : State → Fin 2 → Fin 2 → State) :
    s.unlessFaulted (fun s => s.onLine opc c l f) = f s i j := by
  rw [unlessFaulted_of_unfaulted _ hf, State.onLine, lineOf_eq_some hc hl]

theorem exec_irqPer_eq {i j : Fin 2} (hf : s.items.fault = 0) (hc : c.toNat = i.val) (hl : l.toNat = j.val)
    (line : Word) : exec (.irqPer c l line) s = .next (s.pulse i j line) :=
  congrArg Host.Outcome.next (unlessFaulted_onLine_of_ids hf hc hl ..)

theorem exec_irqRd_eq {i j : Fin 2} (hf : s.items.fault = 0) (hc : c.toNat = i.val) (hl : l.toNat = j.val) :
    exec (.irqRd c l) s = .next (s.respond [levelWord (s.items.line i j)]) :=
  congrArg Host.Outcome.next (unlessFaulted_onLine_of_ids hf hc hl ..)

end

/-- Settles O32: the id check stands before the body of all four. -/
theorem ilcChecksIdsFirst : Obligations.IlcChecksIdsFirst := by
  intro s c l line hf hids
  refine ⟨?_, ?_, ?_, ?_⟩ <;>
    exact congrArg Host.Outcome.next (unlessFaulted_onLine_of_badId hf hids ..)

/-! ## IRQ.SET, IRQ.CLR and IRQ.RD (R130, R131, R136) -/

/-- Settles O30: IRQ.SET is LineAssert and IRQ.CLR is LineClear. -/
theorem irqSetAndClrWriteOneLine : Obligations.IrqSetAndClrWriteOneLine := by
  intro s c l i j hf hc hl
  refine ⟨⟨_, exec_irqSet_eq hf hc hl, line_driveLine s i j true, lineAssert_eq s i j⟩,
    ⟨_, exec_irqClr_eq hf hc hl, line_driveLine s i j false, (lineClear_eq s i j).trans ?_⟩⟩
  cases s.items.line i j <;> rfl

/-- Settles O31: the level word is 1 or 0 by the level. -/
theorem irqRdAnswersTheLevel : Obligations.IrqRdAnswersTheLevel := by
  intro s c l i j hf hc hl
  rw [exec_irqRd_eq hf hc hl]
  cases s.items.line i j <;> rfl

/-! ## The first assert (R133) -/

section
variable {p : Params} {now : Word} {line : Nat}

/-- A scanline starts within the frame (R27). -/
theorem scanlineStart_lt_framePeriod (h : p.valid = true) (hline : line < p.totalScanlines) :
    line * p.linePeriod < framePeriod p := by
  obtain ⟨hL, -, -, -⟩ := (params_valid_iff p).1 h
  exact Nat.mul_lt_mul_of_pos_right hline (by omega)

/-- The first assert lies a whole number of frames after the scanline's start. -/
theorem firstAssert_mod_framePeriod :
    firstAssert p now line % framePeriod p = line * p.linePeriod % framePeriod p := by
  simp only [firstAssert, frameOrigin, Nat.zero_add]
  split
  · rfl
  · exact Nat.add_mul_mod_self_right ..

/-- No start of the scanline at or after `now` is earlier: the ceiling counts the fewest whole frames that reach
`now`. -/
theorem firstAssert_le (h : p.valid = true) (hline : line < p.totalScanlines) {x : Nat} (hnow : now.toNat ≤ x)
    (hmod : x % framePeriod p = line * p.linePeriod % framePeriod p) : firstAssert p now line ≤ x := by
  rw [Nat.mod_eq_of_lt (scanlineStart_lt_framePeriod h hline)] at hmod
  have hx : framePeriod p * (x / framePeriod p) + line * p.linePeriod = x := hmod ▸ Nat.div_add_mod ..
  simp only [firstAssert, frameOrigin, Nat.zero_add]
  split
  · omega
  · have hframes : (now.toNat - line * p.linePeriod + (framePeriod p - 1)) / framePeriod p ≤ x / framePeriod p := by
      rw [Nat.div_le_iff_le_mul_add_pred (framePeriod_pos h)]
      omega
    calc
      _ ≤ line * p.linePeriod + x / framePeriod p * framePeriod p :=
        Nat.add_le_add_left (Nat.mul_le_mul_right _ hframes) _
      _ = x := by rw [Nat.mul_comm (x / _), Nat.add_comm, hx]

end

/-- Settles O35: the first assert is such a start, and none is earlier. -/
theorem firstAssertIsTheEarliestStart : Obligations.FirstAssertIsTheEarliestStart := fun _ now line hp hline =>
  ⟨⟨le_firstAssert hp now line, firstAssert_mod_framePeriod⟩, fun _ ⟨hnow, hmod⟩ => firstAssert_le hp hline hnow hmod⟩

/-! ## IRQ.PER (R132) -/

theorem roomFor_eq_false {p : Params} {n k : Nat} (hcap : p.queueCapacity = some k) (hfull : k < n) :
    roomFor p n = false := by
  simp [roomFor, hcap, hfull]

/-- Settles O34: each fault is the branch of IRQ.PER that its clause names, the branches before it being shut. -/
theorem irqPerFaultsInOrder : Obligations.IrqPerFaultsInOrder := by
  intro s c l line hf hc hl
  rw [exec_irqPer_eq (i := ⟨c.toNat, hc⟩) (j := ⟨l.toNat, hl⟩) hf rfl rfl, State.pulse, framePeriod]
  refine ⟨fun hbad => ?_, fun hline => ⟨fun hover => ?_, fun hfits hperiod =>
    ⟨fun n hcap hfull => ?_, fun hroom hlast => ?_⟩⟩⟩
  · rw [if_pos hbad]
    rfl
  all_goals rw [if_neg hline.not_ge]
  · rw [if_pos hover]
    rfl
  all_goals rw [if_neg (not_or.2 ⟨hfits.not_ge, hperiod.not_ge⟩)]
  · rw [if_pos (roomFor_eq_false hcap hfull)]
    rfl
  · rw [if_neg (by simpa using roomFor_iff.2 hroom), if_pos hlast]
    rfl

/-- Settles O33: past its checks IRQ.PER is two insertions under the next two handles, which it answers. -/
theorem irqPerInsertsAPulse : Obligations.IrqPerInsertsAPulse := by
  intro s c l i j line ta hf hc hl hline hta hfits hperiod hroom hhandles
  subst hta
  refine ⟨_, exec_irqPer_eq hf hc hl line, ?_⟩
  rw [State.pulse, framePeriod, if_neg hline.not_ge, if_neg (not_or.2 ⟨hfits.not_ge, hperiod.not_ge⟩),
    if_neg (by simpa using roomFor_iff.2 hroom), if_neg hhandles.not_ge]
  refine ⟨(insertEntry_perm ..).trans (((insertEntry_perm ..).cons _).trans (.swap ..)), ?_⟩
  have hnext : s.items.nextHandle + 1 + 1 = s.items.nextHandle + 2 := BitVec.add_assoc ..
  simp only [State.respond, State.insertNew, hnext]
  rfl

/-! ## The other commands write no line (R134) -/

section
variable (s : State)

theorem schedule_asserted (absolute : Bool) (t : Int) (recurring : Bool) (p : Int) (y : Word) :
    (s.schedule absolute t recurring p y).items.asserted = s.items.asserted := by
  unfold State.schedule
  split_ifs <;> rfl

theorem cancelHandle_asserted (h : Word) : (s.cancelHandle h).items.asserted = s.items.asserted := by
  unfold State.cancelHandle
  split <;> rfl

theorem advanceTo_asserted (t : Word) : (s.advanceTo t).items.asserted = s.items.asserted := by
  unfold State.advanceTo
  split
  · rfl
  all_goals split <;> rfl

theorem endCallback_asserted (T : Word) (c : CurEvent) : (s.endCallback T c).items.asserted = s.items.asserted := by
  unfold State.endCallback
  split_ifs <;> rfl

theorem queryHandle_asserted (h : Word) : (s.queryHandle h).items.asserted = s.items.asserted := by
  unfold State.queryHandle
  split <;> rfl

theorem pulse_asserted (c l : Fin 2) (line : Word) : (s.pulse c l line).items.asserted = s.items.asserted := by
  unfold State.pulse
  split_ifs <;> rfl

theorem arbEnable_asserted (e : Bool) : (s.arbEnable e).items.asserted = s.items.asserted := by
  rw [State.arbEnable, haltSwapOutputs_items]
  split <;> rfl

theorem arbReset_asserted : s.arbReset.items.asserted = s.items.asserted := by
  rw [State.arbReset, haltSwapOutputs_items]
  rfl

theorem arbRead_asserted (c : Byte) (a : Word) : (s.arbRead c a).items.asserted = s.items.asserted := by
  unfold State.arbRead
  split
  · rfl
  iterate 2
    split
    · rfl
  rfl

theorem arbWrite_asserted (c : Byte) (a d : Word) : (s.arbWrite c a d).items.asserted = s.items.asserted := by
  unfold State.arbWrite
  iterate 4
    split
    · rfl
  rfl

variable {s} {t : State}

theorem onLine_asserted {opc c l : Byte} {f : State → Fin 2 → Fin 2 → State}
    (h : ∀ i j, (f s i j).items.asserted = s.items.asserted) :
    (s.onLine opc c l f).items.asserted = s.items.asserted := by
  unfold State.onLine
  split
  · rfl
  · exact h ..

/-- Behind the fault gate (R184) a command writes no line if its body writes none. -/
theorem asserted_of_gated {f : State → State} (h : (.next (s.unlessFaulted f) : Result) = .next t)
    (hf : (f s).items.asserted = s.items.asserted) : t.items.asserted = s.items.asserted := by
  obtain rfl := Host.Outcome.next.inj h
  unfold State.unlessFaulted
  split
  · exact hf
  · rfl

theorem execCbdone_asserted (h : execCbdone s = .next t) : t.items.asserted = s.items.asserted := by
  unfold execCbdone State.callbackDone at h
  split at h
  · split at h
    · split at h
      · obtain rfl := Host.Outcome.next.inj h
        exact endCallback_asserted ..
      · simp at h
    all_goals
      obtain rfl := Host.Outcome.next.inj h
      rfl
  · obtain rfl := Host.Outcome.next.inj h
    rfl

end

/-- Settles O37, by the commands: the body of each but IRQ.SET and IRQ.CLR writes no line. -/
theorem onlyIrqSetAndClrWriteLines : Obligations.OnlyIrqSetAndClrWriteLines := by
  intro i s t h hset hclr
  cases i with
  | irqSet c l => exact absurd rfl (hset c l)
  | irqClr c l => exact absurd rfl (hclr c l)
  | nop | status =>
    obtain rfl := Host.Outcome.next.inj h
    rfl
  | rdnow | rdscan | arbBa | arbRds => exact asserted_of_gated h rfl
  | sched => exact asserted_of_gated h (schedule_asserted ..)
  | cancel => exact asserted_of_gated h (cancelHandle_asserted ..)
  | advance => exact asserted_of_gated h (advanceTo_asserted ..)
  | cbdone => exact execCbdone_asserted h
  | query => exact asserted_of_gated h (queryHandle_asserted ..)
  | irqPer => exact asserted_of_gated h (onLine_asserted fun _ _ => pulse_asserted ..)
  | irqRd => exact asserted_of_gated h (onLine_asserted fun _ _ => rfl)
  | arbEn => exact asserted_of_gated h (arbEnable_asserted ..)
  | arbRst => exact asserted_of_gated h (arbReset_asserted s)
  | arbRd => exact asserted_of_gated h (arbRead_asserted ..)
  | arbWr => exact asserted_of_gated h (arbWrite_asserted ..)

end Sys2Proof.Machine
end

section
/-! PROOFS. What the commands of the bus arbiter do (42_arbiter.md): ARB.EN and its reset-vector install, ARB.RST, ARB.BA,
ARB.RDS and the two arbitrated accesses. -/
namespace Sys2Proof.Machine

/-! ## ARB.EN and ARB.RST (R150 to R153) -/

section
variable {s : State}

theorem exec_arbEn_eq (hf : s.items.fault = 0) (e : Bool) : exec (.arbEn e) s = .next (s.arbEnable e) :=
  congrArg Host.Outcome.next (unlessFaulted_of_unfaulted _ hf)

theorem exec_arbRst_eq (hf : s.items.fault = 0) : exec .arbRst s = .next s.arbReset :=
  congrArg Host.Outcome.next (unlessFaulted_of_unfaulted _ hf)

variable (s)

/-- The halt swap is two messages, the halt first (R152). -/
theorem haltSwapOutputs_eq (e : Bool) : s.haltSwapOutputs e = { s with history := s.history ++
    if e = true then [.cpu (.halt 0) s.items.now, .cpu (.run 1) s.items.now]
    else [.cpu (.halt 1) s.items.now, .cpu (.run 0) s.items.now] } := by
  cases e <;> simp [State.haltSwapOutputs, State.emitCpu, State.emit]

/-- All that ARB.EN does: on a rise with a reset pending the install comes before the halt bits and their messages
(R150, R151). -/
theorem arbEnable_eq (e : Bool) : s.arbEnable e = { s with
    items := { s.items with
      secondaryEnabled := e, primaryHalted := e, secondaryHalted := !e
      resetPending := if s.items.secondaryEnabled = false ∧ e = true then false else s.items.resetPending }
    history := s.history ++
      (if s.items.secondaryEnabled = false ∧ e = true ∧ s.items.resetPending = true
        then [.cpu (.setProgramCounter 1 s.cfg.secondaryResetVector) s.items.now] else []) ++
      (if e = true then [.cpu (.halt 0) s.items.now, .cpu (.run 1) s.items.now]
        else [.cpu (.halt 1) s.items.now, .cpu (.run 0) s.items.now]) } := by
  rw [State.arbEnable, haltSwapOutputs_eq]
  by_cases hrise : s.items.secondaryEnabled = false ∧ e = true
  · obtain ⟨hdis, rfl⟩ := hrise
    cases hpend : s.items.resetPending with
    | true => simp [hdis, State.setEnabled, State.installResetVector, State.emitCpu, State.emit]
    | false => simp [hdis, hpend, State.setEnabled]
  · have hkeep : ¬ (s.items.secondaryEnabled = false ∧ e = true ∧ s.items.resetPending = true) :=
      fun h => hrise ⟨h.1, h.2.1⟩
    simp [hrise, hkeep, State.setEnabled]

/-- All that ARB.RST does (R153). -/
theorem arbReset_eq : s.arbReset = { s with
    items := { s.items with
      resetPending := true, secondaryEnabled := false, primaryHalted := false, secondaryHalted := true }
    history := s.history ++ [.cpu (.halt 1) s.items.now, .cpu (.run 0) s.items.now] } := haltSwapOutputs_eq _ false

end

/-- Settles O38. -/
theorem arbEnSwapsTheHalts : Obligations.ArbEnSwapsTheHalts :=
  ⟨fun rest => decode_encode (i := .arbEn true) rfl rest, fun rest => decode_encode (i := .arbEn false) rfl rest,
    fun s e hf => (exec_arbEn_eq hf e).trans (congrArg _ (arbEnable_eq s e))⟩

/-- Settles O39. -/
theorem arbRstResetsOnlyTheArbiter : Obligations.ArbRstResetsOnlyTheArbiter :=
  ⟨fun rest => decode_encode (i := .arbRst) rfl rest, fun s hf => (exec_arbRst_eq hf).trans (congrArg _ (arbReset_eq s))⟩

/-! ## ARB.BA and ARB.RDS (R154, R157) -/

/-- Settles O40. -/
theorem arbBaRecordsTheSignal : Obligations.ArbBaRecordsTheSignal :=
  ⟨fun rest => decode_encode (i := .arbBa true) rfl rest, fun rest => decode_encode (i := .arbBa false) rfl rest,
    fun _ _ hf => congrArg Host.Outcome.next (unlessFaulted_of_unfaulted _ hf)⟩

/-- ARB.RDS's word, its five bits as a sum (R157). -/
theorem arbiterWord_eq (t : Items) : arbiterWord t = BitVec.ofNat 64 (t.secondaryEnabled.toNat +
    2 * t.resetPending.toNat + 4 * t.primaryHalted.toNat + 8 * t.secondaryHalted.toNat + 16 * t.ba.toNat) := by
  have hbits : ∀ b0 b1 b2 b3 b4 : Bool, (BitVec.ofBool b4 ++ BitVec.ofBool b3 ++ BitVec.ofBool b2 ++
      BitVec.ofBool b1 ++ BitVec.ofBool b0).zeroExtend 64 =
        BitVec.ofNat 64 (b0.toNat + 2 * b1.toNat + 4 * b2.toNat + 8 * b3.toNat + 16 * b4.toNat) := by decide
  exact hbits ..

/-- Settles O43. -/
theorem arbRdsAnswersTheBits : Obligations.ArbRdsAnswersTheBits := by
  refine ⟨fun rest => decode_encode (i := .arbRds) rfl rest, fun s hf => ?_⟩
  rw [exec, execArbRds, unlessFaulted_of_unfaulted _ hf, arbiterWord_eq]
  rfl

/-! ## The operands of an arbitrated access (R78, R155, R156) -/

section
variable {c : Byte} {a d : Word}

/-- An id of 0 or 1 names its CPU. -/
theorem cpuOf_eq_some (hc : c.toNat < 2) : cpuOf c = some ⟨c.toNat, hc⟩ := dif_pos hc

theorem addressOf_eq_some (ha : a.toNat < 2 ^ 16) : addressOf a = some (BitVec.ofNat 16 a.toNat) := by
  rw [addressOf, if_pos ha, BitVec.ofNat_toNat, BitVec.setWidth_eq_extractLsb' (by decide)]

theorem dataOf_eq_some (hd : d.toNat < 2 ^ 8) : dataOf d = some (BitVec.ofNat 8 d.toNat) := by
  rw [dataOf, if_pos hd, BitVec.ofNat_toNat, BitVec.setWidth_eq_extractLsb' (by decide)]

/-- The halt bit that stands behind an access is that of the CPU its id names. -/
theorem halted_mk (t : Items) (hc : c.toNat < 2) :
    t.halted ⟨c.toNat, hc⟩ = if c = 0 then t.primaryHalted else t.secondaryHalted := by
  simp only [Items.halted, Fin.ext_iff, Fin.val_zero, BitVec.toNat_eq]
  rfl

end

/-! ## ARB.RD (R155) -/

section
variable {s : State} {c : Byte} {a : Word}

theorem exec_arbRd_eq (hf : s.items.fault = 0) (c : Byte) (a : Word) : exec (.arbRd c a) s = .next (s.arbRead c a) :=
  congrArg Host.Outcome.next (unlessFaulted_of_unfaulted _ hf)

theorem arbRead_of_badId (hc : 2 ≤ c.toNat) : s.arbRead c a = s.raiseFault .badId 0x33 := by
  rw [State.arbRead, cpuOf_none.2 hc]

theorem arbRead_of_badAddress (hc : c.toNat < 2) (ha : 2 ^ 16 ≤ a.toNat) :
    s.arbRead c a = (s.recordDiag .reservedField 0x33).respond [0] := by
  rw [State.arbRead, cpuOf_eq_some hc, addressOf_none.2 ha]

/-- With operands in range the halt bit decides between the access and the idle value. -/
theorem arbRead_of_inRange (hc : c.toNat < 2) (ha : a.toNat < 2 ^ 16) : s.arbRead c a =
    if (if c = 0 then s.items.primaryHalted else s.items.secondaryHalted) = true then
      (s.recordDiag .haltedAccess 0x33).respond [idleValue.zeroExtend 64]
    else (s.memRead (BitVec.ofNat 16 a.toNat)).respond [(s.memAnswer (BitVec.ofNat 16 a.toNat)).zeroExtend 64] := by
  simp only [State.arbRead, cpuOf_eq_some hc, addressOf_eq_some ha, halted_mk]

theorem respond_recordDiag (d : DiagCode) (opc : Byte) (w : Word) : (s.recordDiag d opc).respond [w] = { s with
    items := { s.items with diagCount := s.items.diagCount + 1, lastDiag := diagCode d }
    history := s.history ++ [.diag (diagCode d) opc, .resp w] } := by
  simp [State.recordDiag, State.respond]

theorem respond_memRead (b : Address) (w : Word) : (s.memRead b).respond [w] = { s with
    history := s.history ++ [.memRead b (s.memAnswer b), .resp w], memReads := s.memReads + 1 } := by
  simp [State.memRead, State.respond]

end

/-- Settles O41, by the branches of ARB.RD; the byte is the free answer of the memory. -/
theorem arbRdReadsOrIdles : Obligations.ArbRdReadsOrIdles := by
  intro s c a hf
  rw [exec_arbRd_eq hf]
  refine ⟨fun hc => ?_, fun hc ha => ?_, fun hc ha hhalted => ?_, fun hc ha hrunning => ?_⟩
  · rw [arbRead_of_badId hc]
    rfl
  · rw [arbRead_of_badAddress hc ha, respond_recordDiag]
    rfl
  · rw [arbRead_of_inRange hc ha, if_pos hhalted, respond_recordDiag]
    rfl
  · refine ⟨s.memAnswer (BitVec.ofNat 16 a.toNat), ?_⟩
    rw [arbRead_of_inRange hc ha, if_neg (ne_true_of_eq_false hrunning), respond_memRead, BitVec.ofNat_toNat 64]

/-! ## ARB.WR (R156) -/

section
variable {s : State} {c : Byte} {a d : Word}

theorem exec_arbWr_eq (hf : s.items.fault = 0) (c : Byte) (a d : Word) :
    exec (.arbWr c a d) s = .next (s.arbWrite c a d) := congrArg Host.Outcome.next (unlessFaulted_of_unfaulted _ hf)

theorem arbWrite_of_badId (hc : 2 ≤ c.toNat) : s.arbWrite c a d = s.raiseFault .badId 0x34 := by
  rw [State.arbWrite, cpuOf_none.2 hc]

theorem arbWrite_of_badOperand (hc : c.toNat < 2) (had : 2 ^ 16 ≤ a.toNat ∨ 2 ^ 8 ≤ d.toNat) :
    s.arbWrite c a d = s.recordDiag .reservedField 0x34 := by
  rw [State.arbWrite, cpuOf_eq_some hc]
  obtain ha | ha := Nat.lt_or_ge a.toNat (2 ^ 16)
  · simp only [addressOf_eq_some ha, dataOf_none.2 (had.resolve_left ha.not_ge)]
  · simp only [addressOf_none.2 ha]

/-- With operands in range the halt bit decides between the store and the drop. -/
theorem arbWrite_of_inRange (hc : c.toNat < 2) (ha : a.toNat < 2 ^ 16) (hd : d.toNat < 2 ^ 8) : s.arbWrite c a d =
    if (if c = 0 then s.items.primaryHalted else s.items.secondaryHalted) = true then
      s.recordDiag .haltedAccess 0x34
    else s.memWrite (BitVec.ofNat 16 a.toNat) (BitVec.ofNat 8 d.toNat) := by
  simp only [State.arbWrite, cpuOf_eq_some hc, addressOf_eq_some ha, dataOf_eq_some hd, halted_mk]

end

/-- Settles O42, by the branches of ARB.WR; what the store leaves is `memLookup_memStore`. -/
theorem arbWrStoresOneByte : Obligations.ArbWrStoresOneByte := by
  intro s c a d hf
  rw [exec_arbWr_eq hf]
  refine ⟨fun hc => ?_, fun hc had => ?_, fun hc ha hd hhalted => ?_, fun hc ha hd hrunning => ?_⟩
  · rw [arbWrite_of_badId hc]
    rfl
  · rw [arbWrite_of_badOperand hc had]
    rfl
  · rw [arbWrite_of_inRange hc ha hd, if_pos hhalted]
    rfl
  · have haddr : (BitVec.ofNat 16 a.toNat).toNat = a.toNat := by rw [BitVec.toNat_ofNat, Nat.mod_eq_of_lt ha]
    refine ⟨_, rfl, ?_⟩
    rw [arbWrite_of_inRange hc ha hd, if_neg (ne_true_of_eq_false hrunning)]
    refine ⟨?_, fun b hb => ?_, rfl⟩
    · rw [memWrite_mem, memLookup_memStore, if_pos haddr]
    · rw [memWrite_mem, memLookup_memStore, haddr, if_neg hb.symm]

end Sys2Proof.Machine
end

section
/-! PROOFS. What runs of the arbiter keep (42_arbiter.md): only ARB.EN, ARB.RST and a RESTORE write its bits, exactly one
CPU is halted, ARB is in one of three states, and an enable after ARB.RST installs the reset vector once. -/
namespace Sys2Proof.Machine

/-! ## Who writes the arbiter's bits (R29, R158) -/

/-- The bits of ARB that say which CPU runs and whether the next rise resets the secondary (R29): all but `ba`. -/
def Items.arbBits (t : Items) : Bool × Bool × Bool × Bool :=
  (t.secondaryEnabled, t.resetPending, t.primaryHalted, t.secondaryHalted)

section
variable {x y : Items}

theorem arbBits_eq_iff : y.arbBits = x.arbBits ↔ y.secondaryEnabled = x.secondaryEnabled ∧
    y.resetPending = x.resetPending ∧ y.primaryHalted = x.primaryHalted ∧ y.secondaryHalted = x.secondaryHalted := by
  simp only [Items.arbBits, Prod.mk.injEq]

theorem halts_of_arbBits_eq (h : y.arbBits = x.arbBits) :
    y.primaryHalted = x.primaryHalted ∧ y.secondaryHalted = x.secondaryHalted := (arbBits_eq_iff.1 h).2.2

theorem Items.ArbState.of_arbBits_eq (hx : x.ArbState) (h : y.arbBits = x.arbBits) : y.ArbState := by
  obtain ⟨hen, hpend, hprimary, hsecondary⟩ := arbBits_eq_iff.1 h
  rwa [Items.ArbState, hen, hpend, hprimary, hsecondary]

end

section
variable {s t : State}

/-- Behind the fault gate (R184) a command keeps the arbiter's bits if its body does. -/
theorem arbBits_of_gated {f : State → State} (h : (.next (s.unlessFaulted f) : Result) = .next t)
    (hf : (f s).items.arbBits = s.items.arbBits) : t.items.arbBits = s.items.arbBits := by
  obtain rfl := Host.Outcome.next.inj h
  unfold State.unlessFaulted
  split
  · exact hf
  · rfl

/-- An ILC command keeps the arbiter's bits if its body does: the id check writes `fault` alone (R138). -/
theorem onLine_arbBits {opc c l : Byte} {f : State → Fin 2 → Fin 2 → State}
    (h : ∀ i j, (f s i j).items.arbBits = s.items.arbBits) :
    (s.onLine opc c l f).items.arbBits = s.items.arbBits := by
  unfold State.onLine
  split
  · rfl
  · exact h ..

theorem execCbdone_arbBits (h : execCbdone s = .next t) : t.items.arbBits = s.items.arbBits := by
  unfold execCbdone State.callbackDone at h
  split at h
  · split at h
    · split at h
      · obtain rfl := Host.Outcome.next.inj h
        unfold State.endCallback
        split_ifs <;> rfl
      · simp at h
    all_goals
      obtain rfl := Host.Outcome.next.inj h
      rfl
  · obtain rfl := Host.Outcome.next.inj h
    rfl

/-- No command but ARB.EN and ARB.RST writes the arbiter's bits. -/
theorem exec_arbBits {i : Instr} (hen : ∀ e, i ≠ .arbEn e) (hrst : i ≠ .arbRst) (h : exec i s = .next t) :
    t.items.arbBits = s.items.arbBits := by
  cases i with
  | arbEn e => exact absurd rfl (hen e)
  | arbRst => exact absurd rfl hrst
  | nop | status =>
    obtain rfl := Host.Outcome.next.inj h
    rfl
  | rdnow | rdscan | arbBa | arbRds => exact arbBits_of_gated h rfl
  | cbdone => exact execCbdone_arbBits h
  | sched =>
    refine arbBits_of_gated h ?_
    unfold State.schedule
    split_ifs <;> rfl
  | cancel =>
    refine arbBits_of_gated h ?_
    unfold State.cancelHandle
    split <;> rfl
  | advance =>
    refine arbBits_of_gated h ?_
    unfold State.advanceTo
    split
    · rfl
    all_goals split <;> rfl
  | query =>
    refine arbBits_of_gated h ?_
    unfold State.queryHandle
    split <;> rfl
  | irqSet => exact arbBits_of_gated h (onLine_arbBits fun _ _ => by rw [lineAssert_items_eq]; rfl)
  | irqClr => exact arbBits_of_gated h (onLine_arbBits fun _ _ => by rw [lineClear_items_eq]; rfl)
  | irqRd => exact arbBits_of_gated h (onLine_arbBits fun _ _ => rfl)
  | irqPer =>
    refine arbBits_of_gated h (onLine_arbBits fun _ _ => ?_)
    unfold State.pulse
    split_ifs <;> rfl
  | arbRd =>
    refine arbBits_of_gated h ?_
    unfold State.arbRead
    iterate 3
      split
      · rfl
    rfl
  | arbWr =>
    refine arbBits_of_gated h ?_
    unfold State.arbWrite
    iterate 4
      split
      · rfl
    rfl

theorem drainStep_arbBits (s : State) (T : Word) : (s.drainStep T).items.arbBits = s.items.arbBits := by
  obtain ⟨-, heq⟩ | ⟨e, -, -, -, ⟨-, -, heq⟩ | ⟨-, heq⟩⟩ := drainStep_cases s T
  · rw [heq]
    rfl
  · rw [heq]
    rfl
  · obtain ⟨y, -, hitems⟩ | ⟨-, -, hitems⟩ | ⟨-, -, hitems⟩ := fireEvent_items s T e
    all_goals
      rw [heq, hitems]
      rfl

/-- A step that runs neither ARB.EN nor ARB.RST and serves no RESTORE keeps the arbiter's bits. -/
theorem step_arbBits (hstep : step s = .next t) (hen : ∀ e s', s.nextAction ≠ .command (.arbEn e) s')
    (hrst : ∀ s', s.nextAction ≠ .command .arbRst s') (hrestore : ∀ x, s.nextAction ≠ .serve (.restore x)) :
    t.items.arbBits = s.items.arbBits := by
  obtain ⟨op, hact, -, -, hserve⟩ | ⟨T, -, -, rfl⟩ | ⟨i, s', hact, htaken, -, hexec⟩ | ⟨opc, s', htaken, rfl⟩ |
    ⟨w, s', htaken, rfl⟩ | ⟨hp, cp, rfl⟩ := step_cases hstep
  · obtain ⟨-, rfl⟩ | ⟨x, rfl, -⟩ := serveHostOp_cases hserve
    · rfl
    · exact absurd hact (hrestore x)
  · exact drainStep_arbBits s T
  · rw [← htaken.items_eq]
    refine exec_arbBits ?_ ?_ hexec
    · rintro e rfl
      exact hen e s' hact
    · rintro rfl
      exact hrst s' hact
  · rw [← htaken.items_eq]
    obtain heq | ⟨-, heq⟩ := rejectFields_items s' opc <;> rw [heq]
    rfl
  · rw [← htaken.items_eq]
    obtain heq | ⟨-, heq⟩ := rejectUnknown_items s' w <;> rw [heq]
    rfl
  · rfl

end

/-! ## Mutual exclusion (R158) -/

section
variable {W : Prop} {p : Params} {x y : Items}

/-- A tuple that RESTORE accepts has exactly one CPU halted (R34 (a), R173). -/
theorem halts_ne_of_meetsR34 (h : x.meetsR34 p = true) : x.primaryHalted ≠ x.secondaryHalted := by
  simp only [Items.meetsR34, Bool.and_eq_true, bne_iff_ne] at h
  obtain ⟨⟨⟨⟨hhalts, -⟩, -⟩, -⟩, -⟩ := h
  exact hhalts

/-- Of a command's effects only the write of the pair as (e, not e) touches the halt bits. -/
theorem ItemsEffect.keeps_halts_ne (heff : ItemsEffect W p x y) (h : x.primaryHalted ≠ x.secondaryHalted) :
    y.primaryHalted ≠ y.secondaryHalted := by
  cases heff with
  | enable e => cases e <;> simp
  | _ => exact h

end

theorem step_keeps_halts_ne {s t : State} (h : s.items.primaryHalted ≠ s.items.secondaryHalted)
    (hstep : step s = .next t) : t.items.primaryHalted ≠ t.items.secondaryHalted := by
  by_cases hserve : ∃ x, s.nextAction = .serve (.restore x)
  · obtain ⟨x, hx⟩ := hserve
    rw [step, stepWith, hx] at hstep
    obtain ⟨hop, -⟩ | ⟨y, -, -, hR34, -, rfl⟩ := serveHostOp_cases hstep
    · cases hop
    · exact halts_ne_of_meetsR34 hR34
  · obtain ⟨T, -, -, rfl⟩ | heff := step_items_cases (not_exists.1 hserve) hstep
    · obtain ⟨hprimary, hsecondary⟩ := halts_of_arbBits_eq (drainStep_arbBits s T)
      rwa [hprimary, hsecondary]
    · exact heff.keeps_halts_ne h

/-- Settles O44, by the effects of a step; that nothing else writes the pair holds of all the arbiter's bits. -/
theorem exactlyOneCpuIsHalted : Obligations.ExactlyOneCpuIsHalted := by
  refine ⟨by decide, fun s t h hstep => step_keeps_halts_ne h hstep, fun e s hf => ?_, fun s hf => ?_,
    fun i s t hexec hen hrst => halts_of_arbBits_eq (exec_arbBits hen hrst hexec),
    fun s t hstep hen hrst hrestore => halts_of_arbBits_eq (step_arbBits hstep hen hrst hrestore)⟩
  · refine ⟨_, exec_arbEn_eq hf e, ?_⟩
    rw [arbEnable_eq]
    exact ⟨rfl, rfl⟩
  · refine ⟨_, exec_arbRst_eq hf, ?_⟩
    rw [arbReset_eq]
    exact ⟨rfl, rfl⟩

/-! ## The three states (R161) -/

/-- Every effect of a command keeps ARB in its three states: an enable ends with no reset pending. -/
theorem ItemsEffect.keeps_arbState {W : Prop} {p : Params} {x y : Items} (heff : ItemsEffect W p x y)
    (h : x.ArbState) : y.ArbState := by
  cases heff with
  | enable e pend _ hpend hkeep =>
    cases e with
    | false => exact .inl ⟨rfl, rfl, rfl⟩
    | true =>
      refine .inr ⟨rfl, ?_, rfl, rfl⟩
      obtain ⟨hdis, -, -⟩ | ⟨hen, hnone, -, -⟩ := h
      · exact hpend rfl hdis
      · exact (hkeep rfl hen).trans hnone
  | _ => exact h

section
variable {s : State}

@[simp] theorem diagPort_emitCpu (m : CpuMsg) : (s.emitCpu m).diagPort = s.diagPort := by
  simp [State.diagPort]

@[simp] theorem diagPort_respond (ws : List Word) : (s.respond ws).diagPort = s.diagPort := by
  simp [State.diagPort]

theorem diagPort_haltSwapOutputs (e : Bool) : (s.haltSwapOutputs e).diagPort = s.diagPort := by
  unfold State.haltSwapOutputs
  split <;> simp

theorem diagPort_arbEnable (e : Bool) : (s.arbEnable e).diagPort = s.diagPort := by
  rw [State.arbEnable, diagPort_haltSwapOutputs]
  split
  · exact diagPort_emitCpu _
  · rfl

theorem diagPort_arbReset : s.arbReset.diagPort = s.diagPort := diagPort_haltSwapOutputs _

end

/-- Between `s` and `t` no fault is raised and no diagnostic recorded (R183, R186). -/
structure Silent (s t : State) : Prop where
  fault : t.items.fault = s.items.fault
  diagCount : t.items.diagCount = s.items.diagCount
  lastDiag : t.items.lastDiag = s.items.lastDiag
  diagPort : t.diagPort = s.diagPort

section
variable (s : State)

theorem silent_arbEnable (e : Bool) : Silent s (s.arbEnable e) := by
  refine ⟨?_, ?_, ?_, diagPort_arbEnable e⟩ <;> rw [arbEnable_eq]

theorem silent_arbReset : Silent s s.arbReset := by
  refine ⟨?_, ?_, ?_, diagPort_arbReset⟩ <;> rw [arbReset_eq]

variable {s}

/-- A command whose body is silent answers a next state, faulted or not, and is silent too. -/
theorem exists_next_of_silent {f : State → State} (h : Silent s (f s)) :
    ∃ t, (.next (s.unlessFaulted f) : Result) = .next t ∧ t.items.fault = s.items.fault ∧
      t.items.diagCount = s.items.diagCount ∧ t.items.lastDiag = s.items.lastDiag ∧ t.diagPort = s.diagPort := by
  unfold State.unlessFaulted
  split
  · exact ⟨_, rfl, h.fault, h.diagCount, h.lastDiag, h.diagPort⟩
  · exact ⟨_, rfl, rfl, rfl, rfl, rfl⟩

end

/-- Settles O46, by the effects of a command, the arbiter's bits over a drain step, and the four silent commands. -/
theorem arbiterStaysInItsThreeStates : Obligations.ArbiterStaysInItsThreeStates := by
  refine ⟨.inl ⟨rfl, rfl, rfl⟩, fun i s t hexec h => (exec_items hexec).keeps_arbState h,
    fun s t hrestore hstep h => ?_, ?_⟩
  · obtain ⟨T, -, -, rfl⟩ | heff := step_items_cases hrestore hstep
    · exact h.of_arbBits_eq (drainStep_arbBits s T)
    · exact heff.keeps_arbState h
  · rintro i s (⟨e, rfl⟩ | rfl | ⟨b, rfl⟩ | rfl)
    · exact exists_next_of_silent (silent_arbEnable s e)
    · exact exists_next_of_silent (silent_arbReset s)
    · exact exists_next_of_silent ⟨rfl, rfl, rfl, rfl⟩
    · exact exists_next_of_silent ⟨rfl, rfl, rfl, diagPort_respond _⟩

/-! ## Reset-on-enable (R159) -/

section
variable {s t u : State}

/-- Sending the messages `ms` on the CPU port adds the installs among them. -/
theorem countInstalls_of_append (v : Address) (ms : List (CpuMsg × Word))
    (h : t.history = s.history ++ ms.map fun m => .cpu m.1 m.2) :
    countInstalls v t.cpuPort = countInstalls v s.cpuPort + countInstalls v ms := by
  simp [countInstalls, State.cpuPort, h, List.filterMap_map]

/-- `u` comes after `s` with no install between them, and the next rise will install: a reset is pending and the
secondary is disabled. -/
structure AwaitsRise (s u : State) : Prop where
  fault : u.items.fault = 0
  cfg : u.cfg = s.cfg
  now : u.items.now = s.items.now
  pending : u.items.resetPending = true
  disabled : u.items.secondaryEnabled = false
  installs : countInstalls s.cfg.secondaryResetVector u.cpuPort = countInstalls s.cfg.secondaryResetVector s.cpuPort

/-- An ARB.EN 0 sends two messages, neither an install. -/
theorem countInstalls_haltSecondary (v : Address) (now : Word) :
    countInstalls v [(.halt 1, now), (.run 0, now)] = 0 := by simp [countInstalls]

theorem arbReset_awaitsRise (hf : s.items.fault = 0) : AwaitsRise s s.arbReset := by
  have hinstalls := countInstalls_of_append (s := s) (t := s.arbReset) s.cfg.secondaryResetVector
    [(.halt 1, s.items.now), (.run 0, s.items.now)] (by rw [arbReset_eq]; rfl)
  rw [countInstalls_haltSecondary, Nat.add_zero] at hinstalls
  refine ⟨?_, ?_, ?_, ?_, ?_, hinstalls⟩ <;> rw [arbReset_eq]
  exact hf

/-- An ARB.EN 0 keeps the reset pending. -/
theorem AwaitsRise.arbEnable_false (h : AwaitsRise s u) : AwaitsRise s (u.arbEnable false) := by
  have hinstalls := countInstalls_of_append (s := u) (t := u.arbEnable false) s.cfg.secondaryResetVector
    [(.halt 1, u.items.now), (.run 0, u.items.now)] (by rw [arbEnable_eq]; simp)
  rw [countInstalls_haltSecondary, Nat.add_zero] at hinstalls
  refine ⟨?_, ?_, ?_, ?_, ?_, hinstalls.trans h.installs⟩ <;> rw [arbEnable_eq]
  · exact h.fault
  · exact h.cfg
  · exact h.now
  · simpa using h.pending

/-- ARB.EN 0s keep the reset pending, however many they are. -/
theorem AwaitsRise.execAll_replicate (h : AwaitsRise s u) (n : Nat) (is : List Instr) :
    ∃ w, AwaitsRise s w ∧ execAll (List.replicate n (.arbEn false) ++ is) u = execAll is w := by
  induction n generalizing u with
  | zero => exact ⟨u, h, rfl⟩
  | succ n ih =>
    obtain ⟨w, hw, hrun⟩ := ih h.arbEnable_false
    refine ⟨w, hw, ?_⟩
    rw [List.replicate_succ, List.cons_append, execAll, exec_arbEn_eq h.fault]
    exact hrun

/-- The rise sends the install, then the halt and the run (R151). -/
theorem AwaitsRise.arbEnable_true_history (h : AwaitsRise s u) : (u.arbEnable true).history = u.history ++
    [.cpu (.setProgramCounter 1 s.cfg.secondaryResetVector) s.items.now, .cpu (.halt 0) s.items.now,
      .cpu (.run 1) s.items.now] := by
  simp [arbEnable_eq, h.cfg, h.now, h.pending, h.disabled]

theorem AwaitsRise.arbEnable_true_installs (h : AwaitsRise s u) :
    countInstalls s.cfg.secondaryResetVector (u.arbEnable true).cpuPort =
      countInstalls s.cfg.secondaryResetVector s.cpuPort + 1 := by
  rw [countInstalls_of_append _ [(.setProgramCounter 1 s.cfg.secondaryResetVector, s.items.now),
    (.halt 0, s.items.now), (.run 1, s.items.now)] h.arbEnable_true_history, h.installs]
  simp [countInstalls]

end

/-- Settles O45: ARB.RST awaits the rise, the ARB.EN 0s keep it so, and ARB.EN 1 is the rise. -/
theorem resetOnEnable : Obligations.ResetOnEnable := by
  intro n s hf
  obtain ⟨u, hu, hrun⟩ := (arbReset_awaitsRise hf).execAll_replicate n [.arbEn true]
  refine ⟨u.arbEnable true, u.history, ?_, ?_, ?_, hu.arbEnable_true_installs, hu.arbEnable_true_history⟩
  · rw [List.cons_append, execAll, exec_arbRst_eq hf]
    simp only [hrun, execAll, exec_arbEn_eq hu.fault]
  · simp [arbEnable_eq, hu.disabled]
  · rw [arbEnable_eq]

end Sys2Proof.Machine
end

section
/-! PROOFS. Block control (43_block.md): NOP and its one word, and STATUS, which answers in every state. -/
namespace Sys2Proof.Machine

/-! ## NOP (R170) -/

/-- A header of opcode 0 other than the word 0 sets a bit that NOP's row leaves unused. -/
theorem brokenFields_nop {h : HeaderWord} (hopc : headerOpc h = 0) (hne : h ≠ 0) :
    brokenFields ⟨0, 0, 0⟩ h = true := by
  rw [← Bool.not_eq_false]
  intro hb
  have hzero : brokenFields ⟨0, 0, 0⟩ 0 = false := rfl
  exact hne (header_eq_of_used_bits hopc hb hzero fun k _ hf => by simp at hf)

/-- Settles O9: NOP's encoding is the word 0, and every other header of opcode 0 breaks R71. -/
theorem nopLeavesEverythingUnchanged : Obligations.NopLeavesEverythingUnchanged := by
  refine ⟨fun _ => rfl, fun rest => decode_encode (i := .nop) rfl rest, fun h rest hopc hne => ?_⟩
  have hrow : opcodeRow (headerOpc h) = some ⟨0, 0, 0⟩ := by rw [hopc]; rfl
  rw [decode_of_broken rfl hrow rfl (brokenFields_nop hopc hne), hopc]

/-! ## STATUS (R171) -/

/-- STATUS's four words, the phase code and the fault code in the first as a sum (R171). -/
theorem statusWords_eq (t : Items) : statusWords t =
    [BitVec.ofNat 64 (256 * (phaseCode t.phase).toNat + t.fault.toNat), t.diagCount,
      BitVec.ofNat 64 t.lastDiag.toNat, phaseTarget t.phase] := by
  have hcodes : (phaseCode t.phase ++ t.fault).toNat = 256 * (phaseCode t.phase).toNat + t.fault.toNat := by
    rw [BitVec.toNat_append, ← Nat.shiftLeft_add_eq_or_of_lt t.fault.isLt, Nat.shiftLeft_eq, Nat.mul_comm]
  rw [statusWords, ← hcodes, BitVec.ofNat_toNat, BitVec.ofNat_toNat]

/-- Settles O10, by the phase, which fixes the code and the target. -/
theorem statusAnswersAlways : Obligations.StatusAnswersAlways := by
  refine ⟨fun rest => decode_encode (i := .status) rfl rest, fun s => ?_⟩
  rw [exec, execStatus, statusWords_eq]
  cases hp : s.items.phase <;> simp [State.respond, phaseCode, phaseTarget]

end Sys2Proof.Machine
end

section
/-! PROOFS. The host operations (R173): what RESTORE checks of a tuple, that the tuple of a SNAPSHOT passes, and that TIA
goes on beside a refused one. -/
namespace Sys2Proof.Machine

/-! ## What RESTORE checks of a tuple (R34, R36) -/

theorem noRepeats_iff {l : List Nat} : noRepeats l = true ↔ l.Nodup := by
  induction l with
  | nil => simp [noRepeats]
  | cons x xs ih => simp [noRepeats, ih]

theorem sortedByKey_iff {q : List Entry} : sortedByKey q = true ↔ q.Pairwise keyLess := by
  have : Trans keyLess keyLess keyLess := ⟨keyLess_trans⟩
  rw [← List.isChain_iff_pairwise]
  induction q with
  | nil => simp [sortedByKey]
  | cons x xs ih =>
    cases xs with
    | nil => simp [sortedByKey]
    | cons y rest => simp [sortedByKey, before_iff, ih]

theorem periodOk_iff {e : Entry} : periodOk e = true ↔
    (e.recurring = true → 0 < e.period.toNat) ∧ (e.recurring = false → e.period.toNat = 0) := by
  cases h : e.recurring <;> simp [periodOk, h]

section
variable {p : Params} {x : Items}

theorem mem_entries {e : Entry} : e ∈ x.entries ↔ e ∈ x.queue ∨ ∃ c, x.cur = some c ∧ c.entry = e := by
  cases h : x.cur <;> simp [Items.entries, h, or_comm, eq_comm]

theorem queue_sublist_entries : x.queue.Sublist x.entries := by
  cases h : x.cur <;> simp [Items.entries, h]

theorem entries_of_cur_none (h : x.cur = none) : x.entries = x.queue := by simp [Items.entries, h]

theorem timesOk_iff : x.timesOk = true ↔ (∀ e ∈ x.queue, x.now.toNat ≤ e.fireTime.toNat) ∧
    ∀ T, x.phase = .draining T ∨ x.phase = .callback T → x.now.toNat ≤ T.toNat := by
  cases h : x.phase <;> simp [Items.timesOk, h]

theorem countersOk_iff : x.countersOk = true ↔
    (x.entries.map fun e => e.handle).Nodup ∧ (x.entries.map fun e => e.seq).Nodup ∧
      ∀ e ∈ x.entries, e.handle.toNat < x.nextHandle.toNat ∧ e.seq < x.nextSeq := by
  have hwords : (x.entries.map fun e => e.handle.toNat).Nodup ↔ (x.entries.map fun e => e.handle).Nodup := by
    rw [← List.nodup_map_iff (f := BitVec.toNat) (fun _ _ => BitVec.eq_of_toNat_eq), List.map_map]
    rfl
  simp [Items.countersOk, noRepeats_iff, hwords, and_assoc]

theorem meetsR34_iff : x.meetsR34 p = true ↔ x.primaryHalted ≠ x.secondaryHalted ∧ x.timesOk = true ∧
    x.countersOk = true ∧ roomFor p x.occ = true ∧ ∀ e ∈ x.entries, periodOk e = true := by
  simp [Items.meetsR34, and_assoc]

theorem isTuple_iff : x.isTuple = true ↔ sortedByKey x.queue = true ∧ (∀ e ∈ x.entries, 0 < e.handle.toNat) ∧
    x.curOk = true := by
  simp [Items.isTuple, and_assoc]

/-- The slots in use, in the words of R34 (e). -/
theorem occ_eq [Decidable (∃ c, x.cur = some c ∧ c.live = true)] :
    x.occ = x.queue.length + if ∃ c, x.cur = some c ∧ c.live = true then 1 else 0 := by
  obtain h | ⟨c, h⟩ := Option.eq_none_or_eq_some x.cur
  · simp [occ_of_cur_none h, h]
  · simp [occ_of_cur_some h, h]

/-- RESTORE's check implies R34 in the spec's own words; beyond R34 it binds the current event's counters (log 17). -/
theorem r34_of_meetsR34 (h : x.meetsR34 p = true) : x.R34 p := by
  obtain ⟨hhalts, htimes, hcounters, hroom, hperiods⟩ := meetsR34_iff.mp h
  obtain ⟨hnow, htarget⟩ := timesOk_iff.mp htimes
  obtain ⟨hhandles, hseqs, hbelow⟩ := countersOk_iff.mp hcounters
  refine ⟨hhalts, hnow, htarget, hhandles.sublist (queue_sublist_entries.map _),
    hseqs.sublist (queue_sublist_entries.map _), fun e he => hbelow e (queue_sublist_entries.subset he), ?_,
    fun e he => periodOk_iff.mp (hperiods e (mem_entries.mpr he))⟩
  rw [← occ_eq]
  exact roomFor_iff.mp hroom

/-! ## A RESTORE of a SNAPSHOT (R36) -/

/-- The items of a state that keeps the invariant pass RESTORE's check of R34 while no event is in its callback. -/
theorem Items.Inv.meetsR34 (h : x.Inv p) (hcur : x.cur = none) : x.meetsR34 p = true := by
  have hbelow : ∀ e ∈ x.queue, e.handle.toNat < x.nextHandle.toNat ∧ e.seq < x.nextSeq := fun e he =>
    (h.below e he).2
  have htarget : ∀ T, x.phase = .draining T ∨ x.phase = .callback T → x.now.toNat ≤ T.toNat := fun T hphase =>
    hphase.elim (h.drainTarget T) (h.callbackTarget T)
  have hperiods : ∀ e ∈ x.queue, periodOk e = true := fun e he => by simpa [periodOk] using h.periods e he
  refine meetsR34_iff.mpr ⟨by simp [h.primary, h.secondary], timesOk_iff.mpr ⟨h.notPast, htarget⟩, ?_, h.room, ?_⟩
  · rw [countersOk_iff, entries_of_cur_none hcur]
    exact ⟨h.handles, h.seqs, hbelow⟩
  · rwa [entries_of_cur_none hcur]

/-- The items of a state that keeps the invariant have the form of R36 in IDLE. -/
theorem Items.Inv.isTuple (h : x.Inv p) (hphase : x.phase = .idle) : x.isTuple = true := by
  have hcur := h.cur_none (by simp [hphase])
  refine isTuple_iff.mpr ⟨sortedByKey_iff.mpr h.sorted, ?_, by simp [Items.curOk, hphase, hcur]⟩
  rw [entries_of_cur_none hcur]
  exact fun e he => (h.below e he).1

end

section
variable {s : State} {op : HostOp} {x : Items}

/-- In IDLE a host operation that is not refused is served (R173, log 15). -/
theorem stepWith_of_served (offer : Nat → List PortWord × List PortWord) (hp : s.items.phase = .idle)
    (ho : s.hostOp = some op) (hr : s.hostOpRefusal op = none) : stepWith offer s = s.serveHostOp op := by
  have hact : s.nextAction = .serve op := by simp [State.nextAction, ho, hp, hr]
  simp only [stepWith, hact]

theorem restoreRefusal_of_accepted (hf : s.items.fault = 0) (hR34 : x.meetsR34 s.cfg = true)
    (htuple : x.isTuple = true) : s.restoreRefusal x = none := by
  simp [State.restoreRefusal, hf, hR34, htuple]

/-- A tuple that breaks R34 is refused as such (R173). -/
theorem restoreRefusal_of_broken (hf : s.items.fault = 0) (hbroken : ¬ x.R34 s.cfg) :
    s.restoreRefusal x = some .restoreBreaksInvariant := by
  have hR34 : x.meetsR34 s.cfg ≠ true := fun h => hbroken (r34_of_meetsR34 h)
  simp [State.restoreRefusal, hf, hR34]

theorem serveHostOp_restore_of_accepted (hr : s.restoreRefusal x = none) :
    s.serveHostOp (.restore x) = .next { s with hostOp := none, items := x } := by
  have hr' : State.restoreRefusal { s with hostOp := none } x = none := hr
  simp only [State.serveHostOp, State.restoreItems, hr']

theorem serveHostOp_restore_of_refused {r : Refusal} (hr : s.restoreRefusal x = some r) :
    s.serveHostOp (.restore x) = .refused r := by
  have hr' : State.restoreRefusal { s with hostOp := none } x = some r := hr
  simp only [State.serveHostOp, State.restoreItems, hr']

end

/-- Settles O53: a SNAPSHOT is never refused, and the items of a state that keeps the invariant are a tuple that RESTORE
accepts. -/
theorem restoreOfASnapshotPutsItBack : Obligations.RestoreOfASnapshotPutsItBack := by
  intro s u hinv hp ho
  refine ⟨stepWith_of_served _ hp ho rfl, fun hcfg hpu hfu hou => ?_⟩
  have hR34 : s.items.meetsR34 u.cfg = true :=
    hcfg ▸ hinv.items.meetsR34 (hinv.items.cur_none (by simp [hp]))
  have hr : u.restoreRefusal s.items = none := restoreRefusal_of_accepted hfu hR34 (hinv.items.isTuple hp)
  exact (stepWith_of_served _ hpu hou hr).trans (serveHostOp_restore_of_accepted hr)

/-! ## Beside a refused RESTORE (R173, R184) -/

section
variable (s : State) (op : Option HostOp)

/-- Rejecting a header neither reads nor writes the pending host operation. -/
theorem rejectFields_withHostOp (opc : Byte) :
    State.rejectFields { s with hostOp := op } opc = { s.rejectFields opc with hostOp := op } := by
  simp only [State.rejectFields, State.unlessFaulted]
  split
  · cases opcodeRow opc <;> rfl
  · rfl

theorem rejectUnknown_withHostOp (w : HeaderWord) :
    State.rejectUnknown { s with hostOp := op } w = { s.rejectUnknown w with hostOp := op } := by
  simp only [State.rejectUnknown, State.unlessFaulted]
  split <;> rfl

end

/-- In IDLE every command has a next state: only CBDONE in a callback without an event has none (log 9). -/
theorem exists_exec_eq_next_of_idle (i : Instr) {s : State} (hp : s.items.phase = .idle) : ∃ t, exec i s = .next t := by
  cases i with
  | cbdone =>
    simp only [exec, execCbdone, State.callbackDone, hp]
    split <;> exact ⟨_, rfl⟩
  | _ => exact ⟨_, rfl⟩

section
variable {s : State} {op : HostOp} {r : Refusal}

theorem stepWith_of_idle (offer : Nat → List PortWord × List PortWord) (hserve : ∀ op, s.nextAction ≠ .serve op)
    (hp : s.items.phase = .idle) : stepWith offer s =
      match decode s.hostPort with
      | .command i rest => exec i { s with hostPort := rest }
      | .badFields opc _ rest => .next (State.rejectFields { s with hostPort := rest } opc)
      | .unknown w rest => .next (State.rejectUnknown { s with hostPort := rest } w)
      | .incomplete => s.receiveOffer (offer s.offers) := by
  rw [stepWith, nextAction_of_not_served hserve, takeCommand_of_idle hp, State.takeFromHost]
  cases decode s.hostPort <;> rfl

/-- Beside a host operation that is refused in IDLE the step is the one without it, and the operation stays pending;
where that one is the endless wait, the step answers the refusal (log 15). -/
theorem stepWith_beside_refused (offer : Nat → List PortWord × List PortWord) (hp : s.items.phase = .idle)
    (hr : s.hostOpRefusal op = some r) :
    (∃ t, stepWith offer { s with hostOp := none } = .next t ∧
      stepWith offer { s with hostOp := some op } = .next { t with hostOp := some op }) ∨
    (stepWith offer { s with hostOp := none } = .fault .awaitingCommand ∧
      stepWith offer { s with hostOp := some op } = .refused r) := by
  have hwithout := stepWith_of_idle offer (not_served_of_held (s := { s with hostOp := none }) (.inl rfl)) hp
  have hbeside := stepWith_of_idle offer (not_served_of_refused (s := { s with hostOp := some op }) rfl hr) hp
  rw [hwithout, hbeside]
  cases decode s.hostPort with
  | command i rest =>
    obtain ⟨t, ht⟩ := exists_exec_eq_next_of_idle i (s := { s with hostOp := none, hostPort := rest }) hp
    refine .inl ⟨t, ht, ?_⟩
    have hexec := exec_withHostOp i { s with hostOp := none, hostPort := rest } (some op)
    rwa [ht] at hexec
  | badFields opc len rest =>
    exact .inl ⟨_, rfl, congrArg _ (rejectFields_withHostOp { s with hostOp := none, hostPort := rest } (some op) opc)⟩
  | unknown w rest =>
    exact .inl ⟨_, rfl, congrArg _ (rejectUnknown_withHostOp { s with hostOp := none, hostPort := rest } (some op) w)⟩
  | incomplete =>
    by_cases hsilent : (offer s.offers).1 = [] ∧ (offer s.offers).2 = []
    · refine .inr ⟨?_, ?_⟩
      · exact (if_pos hsilent).trans (standStill_of_held (.inl rfl))
      · exact (if_pos hsilent).trans (standStill_of_refused hp rfl hr)
    · exact .inl ⟨_, if_neg hsilent, if_neg hsilent⟩

end

/-- Settles O54: a tuple that breaks R34 fails RESTORE's check, and the step beside a refused RESTORE is the one
without it, or its refusal. -/
theorem restoreRefusesABrokenTuple : Obligations.RestoreRefusesABrokenTuple := by
  intro offer s x hp hf ho hbroken
  have hr := restoreRefusal_of_broken hf hbroken
  have hs : s = { s with hostOp := some (.restore x) } := by rw [← ho]
  refine ⟨serveHostOp_restore_of_refused hr, ?_⟩
  have hcases := stepWith_beside_refused (op := .restore x) offer hp hr
  rw [← hs] at hcases
  obtain ⟨t, hwithout, hbeside⟩ | ⟨hwithout, hbeside⟩ := hcases
  all_goals rw [hwithout, hbeside]
  · exact ⟨fun u hu => by rw [Host.Outcome.next.inj hu], fun hwait => absurd hwait (by simp)⟩
  · exact ⟨fun u hu => absurd hu (by simp), fun _ => rfl⟩

end Sys2Proof.Machine
end

section
/-! PROOFS. Faults and diagnostics (60_exceptions.md): a faulted TIA ignores all but STATUS (R184, R185), a fault is
precise (R183), a diagnostic corrupts nothing (R186), and the six reads have no side effect (R196). -/
namespace Sys2Proof.Machine

/-! ## A faulted TIA (R184, R185) -/

section
variable {s s' t : State}

theorem exec_of_faulted {i : Instr} (hf : s.items.fault ≠ 0) (hi : i ≠ .status) : exec i s = .next s := by
  cases i with
  | status => exact absurd rfl hi
  | nop => rfl
  | cbdone => exact if_neg hf
  | _ => exact congrArg Host.Outcome.next (unlessFaulted_of_faulted _ hf)

/-- A command in a faulted TIA sends at most responses, and only STATUS sends any. -/
theorem exec_history_of_faulted {i : Instr} (h : exec i s = .next t) (hf : s.items.fault ≠ 0) :
    t = { s with history := t.history } := by
  by_cases hi : i = .status
  · subst hi
    obtain rfl := Host.Outcome.next.inj h
    rfl
  · obtain rfl := Host.Outcome.next.inj ((exec_of_faulted hf hi).symm.trans h)
    rfl

theorem rejectFields_of_faulted (hf : s.items.fault ≠ 0) (opc : Byte) : s.rejectFields opc = s :=
  unlessFaulted_of_faulted _ hf

theorem rejectUnknown_of_faulted (hf : s.items.fault ≠ 0) (w : HeaderWord) : s.rejectUnknown w = s :=
  unlessFaulted_of_faulted _ hf

/-- Taking a command changes the two sides of the port alone. -/
theorem TakenFrom.exists_ports (h : TakenFrom s s') : ∃ hp cp, s' = { s with hostPort := hp, clientPort := cp } :=
  ⟨_, _, h⟩

/-- What a step of a faulted TIA can do: serve a SNAPSHOT (log 16), or change the ports, the responses and the count of
offers alone. -/
theorem faulted_step_cases (hf : s.items.fault ≠ 0) (h : step s = .next t) :
    (s.hostOp = some .snapshot ∧ t = { s with hostOp := none, history := s.history ++ [.snapshot s.items] }) ∨
    ∃ hp cp history offers,
      t = { s with hostPort := hp, clientPort := cp, history := history, offers := offers } := by
  obtain ⟨op, -, ho, -, hserve⟩ | ⟨T, -, hf', -⟩ | ⟨i, s', -, htaken, -, hexec⟩ | ⟨opc, s', htaken, rfl⟩ |
    ⟨w, s', htaken, rfl⟩ | ⟨hp, cp, rfl⟩ := step_cases h
  · obtain ⟨rfl, ht⟩ | ⟨x, -, hf', -⟩ := serveHostOp_cases hserve
    · exact .inl ⟨ho, ht⟩
    · exact absurd hf' hf
  · exact absurd hf' hf
  · obtain ⟨hp, cp, rfl⟩ := htaken.exists_ports
    exact .inr ⟨hp, cp, _, _, exec_history_of_faulted hexec hf⟩
  · rw [rejectFields_of_faulted (htaken.items_eq ▸ hf)]
    exact .inr ⟨_, _, _, _, htaken⟩
  · rw [rejectUnknown_of_faulted (htaken.items_eq ▸ hf)]
    exact .inr ⟨_, _, _, _, htaken⟩
  · exact .inr ⟨hp, cp, _, _, rfl⟩

end

/-- Settles O49, by what a step of a faulted TIA can do. -/
theorem firstFaultIsKept : Obligations.FirstFaultIsKept := by
  intro s t hf hstep
  obtain ⟨-, rfl⟩ | ⟨hp, cp, history, offers, rfl⟩ := faulted_step_cases hf hstep <;> exact ⟨rfl, rfl⟩

/-! ## What a faulted TIA takes from the port and ignores (R184) -/

section
variable {s s' : State} {rest : Port} {T : Word}

theorem restoreRefusal_of_faulted (hf : s.items.fault ≠ 0) (x : Items) :
    s.restoreRefusal x = some .restoreWhileFaulted := if_pos hf

/-- A faulted TIA serves a SNAPSHOT alone: a RESTORE is refused. -/
theorem not_served_of_faulted (hf : s.items.fault ≠ 0) (ho : s.hostOp ≠ some .snapshot) (op : HostOp) :
    s.nextAction ≠ .serve op := by
  cases h : s.hostOp with
  | none => exact not_served_of_held (.inl h) op
  | some pending =>
    cases pending with
    | snapshot => exact absurd h ho
    | restore x => exact not_served_of_refused h (restoreRefusal_of_faulted hf x) op

/-- In a faulted callback whatever the client's side holds whole comes first (log 13). -/
theorem takeCommand_of_callback_faulted (hp : s.items.phase = .callback T) (hf : s.items.fault ≠ 0)
    (hclient : s.takeFromClient ≠ .wait) : s.takeCommand = s.takeFromClient := by
  have heither : s.takeFromEither = s.takeFromClient := by
    unfold State.takeFromEither
    split
    · next hwait => exact absurd hwait hclient
    · rfl
  simp only [State.takeCommand, hp, if_neg hf, heither]

/-- What a faulted TIA consumes and ignores: every command but STATUS, and every rejected header, a malformed STATUS
header included (log 12). -/
inductive Action.IgnoredInFault : Action → State → Prop where
  | command (i : Instr) (s : State) (h : i ≠ .status) : IgnoredInFault (.command i s) s
  | badFields (opc : Byte) (s : State) : IgnoredInFault (.badFields opc s) s
  | unknown (w : HeaderWord) (s : State) : IgnoredInFault (.unknown w s) s

theorem Action.IgnoredInFault.ne_wait {a : Action} (h : a.IgnoredInFault s) : a ≠ .wait := by
  cases h <;> simp

theorem takeFromHost_ignored
    (h : (∃ i, i ≠ .status ∧ decode s.hostPort = .command i rest) ∨
      (∃ opc len, decode s.hostPort = .badFields opc len rest) ∨ ∃ w, decode s.hostPort = .unknown w rest) :
    s.takeFromHost.IgnoredInFault { s with hostPort := rest } := by
  obtain ⟨i, hi, hd⟩ | ⟨opc, len, hd⟩ | ⟨w, hd⟩ := h
  · exact takeFromHost_of_command hd ▸ .command i _ hi
  · exact takeFromHost_of_badFields hd ▸ .badFields opc _
  · exact takeFromHost_of_unknown hd ▸ .unknown w _

theorem takeFromClient_ignored
    (h : (∃ i, i ≠ .status ∧ decode s.clientPort = .command i rest) ∨
      (∃ opc len, decode s.clientPort = .badFields opc len rest) ∨ ∃ w, decode s.clientPort = .unknown w rest) :
    s.takeFromClient.IgnoredInFault { s with clientPort := rest } := by
  obtain ⟨i, hi, hd⟩ | ⟨opc, len, hd⟩ | ⟨w, hd⟩ := h
  · exact takeFromClient_of_command hd ▸ .command i _ hi
  · exact takeFromClient_of_badFields hd ▸ .badFields opc _
  · exact takeFromClient_of_unknown hd ▸ .unknown w _

/-- The step that takes what a faulted TIA ignores does nothing more. -/
theorem step_of_ignored (hserve : ∀ op, s.nextAction ≠ .serve op) (h : s.takeCommand.IgnoredInFault s')
    (hf : s'.items.fault ≠ 0) : step s = .next s' := by
  rw [step, stepWith, nextAction_of_not_served hserve]
  generalize s.takeCommand = a at h
  cases h with
  | command i _ hi => exact exec_of_faulted hf hi
  | badFields opc => exact congrArg _ (rejectFields_of_faulted hf opc)
  | unknown w => exact congrArg _ (rejectUnknown_of_faulted hf w)

/-- Where a faulted TIA takes the host's command: in IDLE with no SNAPSHOT to serve, in a drain, which is halted, and in
a callback whose client offers no whole command. -/
theorem takeFromHost_of_faulted (hf : s.items.fault ≠ 0)
    (h : (s.items.phase = .idle ∧ s.hostOp ≠ some .snapshot) ∨ (∃ T, s.items.phase = .draining T) ∨
      ((∃ T, s.items.phase = .callback T) ∧ decode s.clientPort = .incomplete)) :
    (∀ op, s.nextAction ≠ .serve op) ∧ s.takeCommand = s.takeFromHost := by
  obtain ⟨hp, ho⟩ | ⟨T, hp⟩ | ⟨⟨T, hp⟩, hclient⟩ := h
  · exact ⟨not_served_of_faulted hf ho, takeCommand_of_idle hp⟩
  · exact ⟨not_served_of_draining hp, takeCommand_of_draining_faulted hp hf⟩
  · exact ⟨not_served_of_callback hp, takeCommand_of_callback_faulted_host hp hf hclient⟩

end

/-- Settles O48: in a faulted TIA only STATUS has an effect, a RESTORE is refused, and in each phase the step takes what
stands at the front of the phase's side of the port. -/
theorem faultedMachineIgnoresCommands : Obligations.FaultedMachineIgnoresCommands := by
  intro s hf
  refine ⟨fun i hi => exec_of_faulted hf hi, fun x ho => ⟨fun t hstep => ?_, fun offer hp hhost hsilent => ?_⟩,
    fun rest hphase => ?_, fun T rest hp => ⟨fun hd => ?_, fun hd => ?_⟩⟩
  · obtain ⟨hop, -⟩ | ⟨hp, cp, history, offers, rfl⟩ := faulted_step_cases hf hstep
    · simp [ho] at hop
    · exact ⟨rfl, ho⟩
  · have hserve := not_served_of_faulted hf (by simp [ho])
    rw [stepWith_of_wait offer hserve ((takeCommand_of_idle hp).trans (takeFromHost_of_incomplete hhost)), hsilent]
    exact standStill_of_refused hp ho (restoreRefusal_of_faulted hf x)
  · obtain ⟨hserve, htake⟩ := takeFromHost_of_faulted hf hphase
    exact ⟨fun hd => step_of_command hserve (htake.trans (takeFromHost_of_command hd)),
      fun hd => step_of_ignored hserve (htake ▸ takeFromHost_ignored hd) hf⟩
  · exact step_of_command (not_served_of_callback hp) (takeCommand_of_callback_faulted_client hp hf hd)
  · have hignored := takeFromClient_ignored hd
    have htake := takeCommand_of_callback_faulted hp hf hignored.ne_wait
    exact step_of_ignored (not_served_of_callback hp) (htake ▸ hignored) hf

/-! ## What a step reports (R183, R186) -/

theorem faultCode_ne_zero (f : FaultCode) : faultCode f ≠ 0 := by cases f <;> decide

theorem diagCode_ne_zero (d : DiagCode) : diagCode d ≠ 0 := by cases d <;> decide

/-- The operation from `s` reports nothing, and leaves `fault` and the count of diagnostics as they were; or it raises a
fault and does nothing else; or it records a diagnostic and does nothing else but answer. -/
inductive Reports (s : State) : State → Prop where
  | nothing {t : State} (fault : t.items.fault = s.items.fault) (diagCount : t.items.diagCount = s.items.diagCount) :
      Reports s t
  | fault (f : FaultCode) (opc : Byte) : Reports s (s.raiseFault f opc)
  | diag (d : DiagCode) (opc : Byte) (ws : List Word) : Reports s ((s.recordDiag d opc).respond ws)

section
variable {s t : State}

theorem respond_nil (s : State) : s.respond [] = s := by simp [State.respond]

theorem Reports.refl (s : State) : Reports s s := .nothing rfl rfl

theorem reports_recordDiag (s : State) (d : DiagCode) (opc : Byte) : Reports s (s.recordDiag d opc) :=
  respond_nil (s.recordDiag d opc) ▸ .diag d opc []

/-- Where `fault` is raised from 0, R183 holds. -/
theorem Reports.fault_precise (h : Reports s t) (hs : s.items.fault = 0) (ht : t.items.fault ≠ 0) :
    t.items = { s.items with fault := t.items.fault } ∧ t.mem = s.mem ∧ t.memReads = s.memReads ∧
      ∃ opc, t.history = s.history ++ [.fault t.items.fault opc] := by
  cases h with
  | nothing hfault => exact absurd (hfault.trans hs) ht
  | fault f opc => exact ⟨rfl, rfl, rfl, opc, rfl⟩
  | diag => exact absurd hs ht

/-- Where diagnostics are counted, R186 holds. -/
theorem Reports.diag_corrupts_nothing (h : Reports s t) (ht : t.items.diagCount ≠ s.items.diagCount) :
    t.items = { s.items with diagCount := s.items.diagCount + 1, lastDiag := t.items.lastDiag } ∧
      t.mem = s.mem ∧ t.memReads = s.memReads ∧ t.items.lastDiag ≠ 0 ∧
      ∃ (opc : Byte) (ws : List Word), t.history = s.history ++ .diag t.items.lastDiag opc :: ws.map .resp := by
  cases h with
  | nothing _ hcount => exact absurd hcount ht
  | fault => exact absurd rfl ht
  | diag d opc ws => exact ⟨rfl, rfl, rfl, diagCode_ne_zero d, opc, ws, List.append_assoc ..⟩

theorem reports_unlessFaulted {f : State → State} (h : Reports s (f s)) : Reports s (s.unlessFaulted f) := by
  unfold State.unlessFaulted
  split
  · exact h
  · exact .refl s

/-- A command behind the fault gate reports what its body does (R184). -/
theorem reports_of_gated {f : State → State} (h : (.next (s.unlessFaulted f) : Result) = .next t)
    (hf : Reports s (f s)) : Reports s t := by
  obtain rfl := Host.Outcome.next.inj h
  exact reports_unlessFaulted hf

/-- An ILC command reports an id out of range, or what its body does (R138). -/
theorem reports_onLine {opc c l : Byte} {f : State → Fin 2 → Fin 2 → State} (h : ∀ i j, Reports s (f s i j)) :
    Reports s (s.onLine opc c l f) := by
  unfold State.onLine
  split
  · exact .fault ..
  · exact h ..

end

section
variable (s : State)

theorem reports_schedule (absolute : Bool) (t : Int) (recurring : Bool) (p : Int) (y : Word) :
    Reports s (s.schedule absolute t recurring p y) := by
  unfold State.schedule
  split
  · exact .diag ..
  iterate 4
    split
    · exact .fault ..
  exact .nothing rfl rfl

theorem reports_cancelHandle (h : Word) : Reports s (s.cancelHandle h) := by
  unfold State.cancelHandle
  split
  · exact .nothing rfl rfl
  · exact .nothing rfl rfl
  · exact reports_recordDiag ..

theorem reports_advanceTo (t : Word) : Reports s (s.advanceTo t) := by
  unfold State.advanceTo
  split
  · exact .fault ..
  all_goals
    split
    · exact reports_recordDiag ..
    · exact .nothing rfl rfl

theorem reports_endCallback (T : Word) (c : CurEvent) : Reports s (s.endCallback T c) := by
  unfold State.endCallback
  split
  · split
    · exact .fault ..
    · exact .nothing rfl rfl
  · exact .nothing rfl rfl

theorem reports_queryHandle (h : Word) : Reports s (s.queryHandle h) := by
  unfold State.queryHandle
  split <;> exact .nothing rfl rfl

theorem reports_lineAssert (c l : Fin 2) : Reports s (s.lineAssert c l) :=
  .nothing (lineAssert_items_fault ..) (lineAssert_items_diagCount ..)

theorem reports_lineClear (c l : Fin 2) : Reports s (s.lineClear c l) :=
  .nothing (lineClear_items_fault ..) (lineClear_items_diagCount ..)

theorem reports_pulse (c l : Fin 2) (line : Word) : Reports s (s.pulse c l line) := by
  unfold State.pulse
  iterate 4
    split
    · exact .fault ..
  exact .nothing rfl rfl

theorem reports_arbEnable (e : Bool) : Reports s (s.arbEnable e) := by
  rw [arbEnable_eq]
  exact .nothing rfl rfl

theorem reports_arbReset : Reports s s.arbReset := by
  rw [arbReset_eq]
  exact .nothing rfl rfl

theorem reports_arbRead (c : Byte) (a : Word) : Reports s (s.arbRead c a) := by
  unfold State.arbRead
  split
  · exact .fault ..
  iterate 2
    split
    · exact .diag ..
  exact .nothing rfl rfl

theorem reports_arbWrite (c : Byte) (a d : Word) : Reports s (s.arbWrite c a d) := by
  unfold State.arbWrite
  split
  · exact .fault ..
  iterate 3
    split
    · exact reports_recordDiag ..
  exact .nothing rfl rfl

theorem reports_fireEvent (T : Word) (e : Entry) : Reports s (s.fireEvent T e) := by
  obtain ⟨y, -, hitems⟩ | ⟨-, -, hitems⟩ | ⟨-, -, hitems⟩ := fireEvent_items s T e
  all_goals exact .nothing (by rw [hitems]) (by rw [hitems])

theorem reports_drainStep (T : Word) : Reports s (s.drainStep T) := by
  obtain ⟨-, heq⟩ | ⟨e, -, -, -, ⟨-, -, heq⟩ | ⟨-, heq⟩⟩ := drainStep_cases s T <;> rw [heq]
  · exact .nothing rfl rfl
  · exact .fault ..
  · exact reports_fireEvent ..

theorem reports_rejectFields (opc : Byte) : Reports s (s.rejectFields opc) := by
  refine reports_unlessFaulted ?_
  split
  · exact .diag ..
  · exact reports_recordDiag ..

theorem reports_rejectUnknown (w : HeaderWord) : Reports s (s.rejectUnknown w) :=
  reports_unlessFaulted (reports_recordDiag ..)

end

section
variable {s t : State}

theorem reports_execCbdone (h : execCbdone s = .next t) : Reports s t := by
  unfold execCbdone State.callbackDone at h
  split at h
  · split at h
    · split at h
      · exact Host.Outcome.next.inj h ▸ reports_endCallback ..
      · simp at h
    all_goals exact Host.Outcome.next.inj h ▸ reports_recordDiag ..
  · exact Host.Outcome.next.inj h ▸ .refl s

/-- A command reports nothing, a fault alone, or a diagnostic and its answer. -/
theorem exec_reports {i : Instr} (h : exec i s = .next t) : Reports s t := by
  cases i with
  | nop | status =>
    obtain rfl := Host.Outcome.next.inj h
    exact .nothing rfl rfl
  | rdnow | rdscan | arbBa | arbRds => exact reports_of_gated h (.nothing rfl rfl)
  | sched => exact reports_of_gated h (reports_schedule ..)
  | cancel => exact reports_of_gated h (reports_cancelHandle ..)
  | advance => exact reports_of_gated h (reports_advanceTo ..)
  | cbdone => exact reports_execCbdone h
  | query => exact reports_of_gated h (reports_queryHandle ..)
  | irqSet => exact reports_of_gated h (reports_onLine fun _ _ => reports_lineAssert ..)
  | irqClr => exact reports_of_gated h (reports_onLine fun _ _ => reports_lineClear ..)
  | irqPer => exact reports_of_gated h (reports_onLine fun _ _ => reports_pulse ..)
  | irqRd => exact reports_of_gated h (reports_onLine fun _ _ => .nothing rfl rfl)
  | arbEn => exact reports_of_gated h (reports_arbEnable ..)
  | arbRst => exact reports_of_gated h (reports_arbReset s)
  | arbRd => exact reports_of_gated h (reports_arbRead ..)
  | arbWr => exact reports_of_gated h (reports_arbWrite ..)

/-- A step in which no RESTORE is served reports nothing, a fault alone, or a diagnostic and its answer, once it has
taken its command from the port. -/
theorem step_reports (hserve : ∀ x, s.nextAction ≠ .serve (.restore x)) (hstep : step s = .next t) :
    ∃ hp cp, Reports { s with hostPort := hp, clientPort := cp } t := by
  obtain ⟨op, hact, -, -, hop⟩ | ⟨T, -, -, rfl⟩ | ⟨i, s', -, htaken, -, hexec⟩ | ⟨opc, s', htaken, rfl⟩ |
    ⟨w, s', htaken, rfl⟩ | ⟨hp, cp, rfl⟩ := step_cases hstep
  · obtain ⟨-, rfl⟩ | ⟨x, rfl, -⟩ := serveHostOp_cases hop
    · exact ⟨s.hostPort, s.clientPort, .nothing rfl rfl⟩
    · exact absurd hact (hserve x)
  · exact ⟨s.hostPort, s.clientPort, reports_drainStep s T⟩
  · obtain ⟨hp, cp, rfl⟩ := htaken.exists_ports
    exact ⟨hp, cp, exec_reports hexec⟩
  · obtain ⟨hp, cp, rfl⟩ := htaken.exists_ports
    exact ⟨hp, cp, reports_rejectFields _ opc⟩
  · obtain ⟨hp, cp, rfl⟩ := htaken.exists_ports
    exact ⟨hp, cp, reports_rejectUnknown _ w⟩
  · exact ⟨hp, cp, .nothing rfl rfl⟩

end

/-- Settles O50: of what a step can report only the fault alone writes `fault`. -/
theorem faultsArePrecise : Obligations.FaultsArePrecise := by
  intro s t hserve hs hstep ht
  obtain ⟨hp, cp, hreports⟩ := step_reports hserve hstep
  exact hreports.fault_precise hs ht

/-- Settles O51: of what a step can report only the diagnostic writes the count. -/
theorem diagnosticsCorruptNothing : Obligations.DiagnosticsCorruptNothing := by
  intro s t hserve hstep ht
  obtain ⟨hp, cp, hreports⟩ := step_reports hserve hstep
  exact hreports.diag_corrupts_nothing ht

/-! ## The six reads (R196) -/

section
variable {s : State}

/-- Behind the fault gate (R184) a command only answers if its body does: where it is ignored it answers no word. -/
theorem unlessFaulted_responds {f : State → State} (h : s.items.fault = 0 → ∃ ws, f s = s.respond ws) :
    ∃ ws, s.unlessFaulted f = s.respond ws := by
  by_cases hf : s.items.fault = 0
  · rw [unlessFaulted_of_unfaulted _ hf]
    exact h hf
  · exact ⟨[], (unlessFaulted_of_faulted _ hf).trans (respond_nil s).symm⟩

/-- QUERY only answers, whatever the handle names. -/
theorem queryHandle_responds (h : Word) : ∃ ws, s.queryHandle h = s.respond ws := by
  unfold State.queryHandle
  split <;> exact ⟨_, rfl⟩

/-- An ILC command whose body only answers only answers itself, unless its ids are out of range (R138). -/
theorem onLine_responds {opc c l : Byte} {f : State → Fin 2 → Fin 2 → State} (h : ∀ i j, ∃ ws, f s i j = s.respond ws)
    (hkept : (s.onLine opc c l f).items.fault = 0) : ∃ ws, s.onLine opc c l f = s.respond ws := by
  unfold State.onLine at hkept ⊢
  split at hkept
  · exact absurd hkept (faultCode_ne_zero .badId)
  · exact h ..

end

/-- Settles O52, read by read; of the six only IRQ.RD can fault. -/
theorem readsHaveNoSideEffect : Obligations.ReadsHaveNoSideEffect := by
  intro i s t hread hexec hkept
  change ∃ ws, t = s.respond ws
  obtain rfl | rfl | rfl | rfl | ⟨h, rfl⟩ | ⟨c, l, rfl⟩ := hread
  all_goals obtain rfl := Host.Outcome.next.inj hexec
  · exact ⟨_, rfl⟩
  · exact unlessFaulted_responds fun _ => ⟨_, rfl⟩
  · exact unlessFaulted_responds fun _ => ⟨_, rfl⟩
  · exact unlessFaulted_responds fun _ => ⟨_, rfl⟩
  · exact unlessFaulted_responds fun _ => queryHandle_responds h
  · refine unlessFaulted_responds fun hf => onLine_responds (fun _ _ => ⟨_, rfl⟩) ?_
    rw [unlessFaulted_of_unfaulted _ hf, hf] at hkept
    exact hkept

end Sys2Proof.Machine
end

section
/-! PROOFS. Nothing cuts off a drain or a callback (R113, R198, R221): a cascade of one-shot events runs as long as
there are handles for it, and a callback goes on until the client's CBDONE. Both are runs beside an environment whose
client offers words whenever TIA waits for them. -/
namespace Sys2Proof.Machine

/-! ## Runs beside an environment -/

section
variable {offer : Nat → List PortWord × List PortWord} {s : State}

/-- `run_succ_of_step` beside any environment. -/
theorem runWith_succ_of_step {u : State} (n : Nat) (h : stepWith offer s = .next u) :
    (coreWith offer).run (n + 1) s = (coreWith offer).run n u := by
  have hcore : (coreWith offer).step s = .next u := h
  simp only [Host.Core.run, hcore]

/-- Where a property lets a step go on and holds again after it, runs of every length go on. -/
theorem exists_run_of_step {P : State → Prop} (hstep : ∀ s, P s → ∃ t, stepWith offer s = .next t ∧ P t) (n : Nat)
    (hs : P s) : ∃ t, (coreWith offer).run n s = .next t ∧ P t := by
  induction n generalizing s with
  | zero => exact ⟨s, rfl, hs⟩
  | succ n ih =>
    obtain ⟨u, hu, hPu⟩ := hstep s hs
    rw [runWith_succ_of_step n hu]
    exact ih hPu

/-! ## What a callback takes from a port -/

variable {T : Word} {i : Instr} {rest : Port}

/-- A whole command that the client has offered is run in a callback, faulted or not (R24, log 13). -/
theorem stepWith_client_command (hp : s.items.phase = .callback T) (hd : decode s.clientPort = .command i rest) :
    stepWith offer s = exec i { s with clientPort := rest } := by
  have htake : s.takeCommand = .command i { s with clientPort := rest } := by
    by_cases hf : s.items.fault = 0
    · exact (takeCommand_of_callback hp hf).trans (takeFromClient_of_command hd)
    · exact takeCommand_of_callback_faulted_client hp hf hd
  simp only [stepWith, nextAction_of_not_served (not_served_of_callback hp), htake]

/-- Where TIA waits in a callback and the client offers words, the step receives them. -/
theorem stepWith_callback_wait (hp : s.items.phase = .callback T) (hwait : s.takeCommand = .wait)
    (hwords : (offer s.offers).2 ≠ []) : stepWith offer s = .next { s with
      hostPort := s.hostPort.offer (offer s.offers).1
      clientPort := s.clientPort.offer (offer s.offers).2
      offers := s.offers + 1 } := by
  rw [stepWith_of_wait offer (not_served_of_callback hp) hwait]
  obtain ⟨hsilent, -⟩ | ⟨-, heq⟩ := receiveOffer_cases s (offer s.offers)
  · exact absurd (congrArg Prod.snd hsilent) hwords
  · exact heq

/-- In a callback in which the client has offered no whole command TIA waits; a faulted one may instead take something
of the host's, which at most answers (R184, log 13). -/
theorem callback_waits_or_takes_host (hp : s.items.phase = .callback T) (hd : decode s.clientPort = .incomplete) :
    s.takeCommand = .wait ∨
      ∃ port history, stepWith offer s = .next { s with hostPort := port, history := history } := by
  by_cases hf : s.items.fault = 0
  · exact .inl ((takeCommand_of_callback hp hf).trans (takeFromClient_of_incomplete hd))
  have htake := takeCommand_of_callback_faulted_host hp hf hd
  rw [stepWith, nextAction_of_not_served (not_served_of_callback hp), htake]
  cases h : decode s.hostPort with
  | incomplete => exact .inl (takeFromHost_of_incomplete h)
  | badFields opc len rest =>
    rw [takeFromHost_of_badFields h]
    exact .inr ⟨rest, s.history,
      congrArg Host.Outcome.next (rejectFields_of_faulted (s := { s with hostPort := rest }) hf opc)⟩
  | unknown w rest =>
    rw [takeFromHost_of_unknown h]
    exact .inr ⟨rest, s.history,
      congrArg Host.Outcome.next (rejectUnknown_of_faulted (s := { s with hostPort := rest }) hf w)⟩
  | command j rest =>
    rw [takeFromHost_of_command h]
    by_cases hj : j = .status
    · subst hj
      exact .inr ⟨rest, _, rfl⟩
    · exact .inr ⟨rest, s.history, exec_of_faulted hf hj⟩

end

/-! ## Only CBDONE ends a callback (R108, R110) -/

section
variable {s t : State} {T : Word}

/-- Behind the fault gate (R184) a command keeps the phase if its body does. -/
theorem phase_of_gated {f : State → State} (h : (.next (s.unlessFaulted f) : Result) = .next t)
    (hbody : (f s).items.phase = s.items.phase) : t.items.phase = s.items.phase := by
  obtain rfl := Host.Outcome.next.inj h
  unfold State.unlessFaulted
  split
  · exact hbody
  · rfl

/-- An ILC command keeps the phase if its body does: the id check writes `fault` alone (R138). -/
theorem onLine_phase {opc c l : Byte} {f : State → Fin 2 → Fin 2 → State}
    (h : ∀ i j, (f s i j).items.phase = s.items.phase) : (s.onLine opc c l f).items.phase = s.items.phase := by
  unfold State.onLine
  split
  · rfl
  · exact h ..

/-- Of the two commands that write the phase, ADVANCE is refused in a callback (R104); CBDONE is left. -/
theorem exec_keeps_callback {i : Instr} (h : exec i s = .next t) (hi : i ≠ .cbdone)
    (hp : s.items.phase = .callback T) : t.items.phase = .callback T := by
  suffices hphase : t.items.phase = s.items.phase from hphase.trans hp
  cases i with
  | cbdone => exact absurd rfl hi
  | nop | status => exact Host.Outcome.next.inj h ▸ rfl
  | rdnow | rdscan | arbBa | arbRds => exact phase_of_gated h rfl
  | advance => exact phase_of_gated h (by rw [advanceTo_of_callback hp]; rfl)
  | sched =>
    refine phase_of_gated h ?_
    unfold State.schedule
    split_ifs <;> rfl
  | cancel =>
    refine phase_of_gated h ?_
    unfold State.cancelHandle
    split <;> rfl
  | query =>
    obtain ⟨ws, hws⟩ := queryHandle_responds _
    exact phase_of_gated h (by rw [hws]; rfl)
  | irqSet => exact phase_of_gated h (onLine_phase fun _ _ => lineAssert_items_phase ..)
  | irqClr => exact phase_of_gated h (onLine_phase fun _ _ => lineClear_items_phase ..)
  | irqRd => exact phase_of_gated h (onLine_phase fun _ _ => rfl)
  | irqPer =>
    refine phase_of_gated h (onLine_phase fun _ _ => ?_)
    unfold State.pulse
    split_ifs <;> rfl
  | arbEn => exact phase_of_gated h (by rw [arbEnable_eq])
  | arbRst => exact phase_of_gated h (by rw [arbReset_eq])
  | arbRd =>
    refine phase_of_gated h ?_
    unfold State.arbRead
    iterate 3
      split
      · rfl
    rfl
  | arbWr =>
    refine phase_of_gated h ?_
    unfold State.arbWrite
    iterate 4
      split
      · rfl
    rfl

/-- A step in a callback that does not run CBDONE stays in it, beside any environment. -/
theorem stepWith_keeps_callback {offer : Nat → List PortWord × List PortWord} (hp : s.items.phase = .callback T)
    (hact : ∀ s', s.nextAction ≠ .command .cbdone s') (hstep : stepWith offer s = .next t) :
    t.items.phase = .callback T := by
  obtain ⟨op, hserve, -⟩ | ⟨U, hdrain, -⟩ | ⟨i, s', hcommand, htaken, -, hexec⟩ | ⟨opc, s', htaken, rfl⟩ |
    ⟨w, s', htaken, rfl⟩ | ⟨port, client, rfl⟩ := stepWith_cases hstep
  · exact absurd hserve (not_served_of_callback hp op)
  · simp [hp] at hdrain
  · refine exec_keeps_callback hexec ?_ (htaken.items_eq ▸ hp)
    rintro rfl
    exact hact s' hcommand
  · obtain heq | ⟨-, heq⟩ := rejectFields_items s' opc <;> rw [heq, htaken.items_eq] <;> exact hp
  · obtain heq | ⟨-, heq⟩ := rejectUnknown_items s' w <;> rw [heq, htaken.items_eq] <;> exact hp
  · exact hp

/-- Every command but CBDONE has a next state: only CBDONE in a callback without an event has none (log 9). -/
theorem exists_exec_eq_next {i : Instr} (hi : i ≠ .cbdone) (s : State) : ∃ t, exec i s = .next t := by
  cases i with
  | cbdone => exact absurd rfl hi
  | _ => exact ⟨_, rfl⟩

end

/-! ## A client that never sends CBDONE (R198) -/

/-- Whole commands for a word-wide port, none of them CBDONE. -/
def KeepsOpen (is : List Instr) : Prop := ∀ i ∈ is, i.wf = true ∧ i ≠ .cbdone

/-- A callback in an ADVANCE to `T` whose client port holds whole commands and no CBDONE. -/
def HeldOpen (T : Word) (s : State) : Prop :=
  s.items.phase = .callback T ∧ ∃ is, s.clientPort = .wordWide (is.flatMap encode) ∧ KeepsOpen is

theorem flatMap_encode_ne_nil {is : List Instr} (h : is ≠ []) : is.flatMap encode ≠ [] := by
  obtain ⟨i, is, rfl⟩ := List.exists_cons_of_ne_nil h
  simp [encode]

/-- Such a callback takes the next command, which is no CBDONE; where it has none left, it receives more of the same,
or, faulted, something of the host's that leaves the client's side as it is. -/
theorem HeldOpen.step {offer : Nat → List PortWord × List PortWord} {is : Nat → List Instr} {T : Word} {s : State}
    (his : ∀ n, KeepsOpen (is n)) (hoffer : ∀ n, is n ≠ [] ∧ (offer n).2 = (is n).flatMap encode)
    (hs : HeldOpen T s) : ∃ t, stepWith offer s = .next t ∧ HeldOpen T t := by
  obtain ⟨hp, held, hport, hheld⟩ := hs
  cases held with
  | cons i held =>
    obtain ⟨⟨hwf, hi⟩, hheld⟩ := List.forall_mem_cons.1 hheld
    have hd : decode s.clientPort = .command i (.wordWide (held.flatMap encode)) := by
      rw [hport]
      exact decode_encode hwf _
    obtain ⟨t, ht⟩ := exists_exec_eq_next hi { s with clientPort := .wordWide (held.flatMap encode) }
    exact ⟨t, (stepWith_client_command hp hd).trans ht, exec_keeps_callback ht hi hp, held,
      (exec_frame ht).clientPort, hheld⟩
  | nil =>
    have hd : decode s.clientPort = .incomplete := by
      rw [hport]
      rfl
    obtain ⟨hne, hwords⟩ := hoffer s.offers
    obtain hwait | ⟨port, history, hstep⟩ := callback_waits_or_takes_host (offer := offer) hp hd
    · have hstep := stepWith_callback_wait hp hwait (hwords ▸ flatMap_encode_ne_nil hne)
      exact ⟨_, hstep, hp, is s.offers, by rw [hport, hwords]; rfl, his s.offers⟩
    · exact ⟨_, hstep, hp, [], hport, hheld⟩

/-! ## A cascade (R113, R119) -/

section
variable {offer : Nat → List PortWord × List PortWord} {s : State} {T f y : Word}

/-- A one-shot external event (R21). -/
def oneShot (h f y : Word) (q : Nat) : Entry := ⟨h, f, .ext y, false, 0, q⟩

/-- The firing of a due one-shot event alone in Q opens its callback and leaves Q empty (R106). -/
theorem stepWith_oneShot_fires {h : Word} {q : Nat} (hp : s.items.phase = .draining T) (hf : s.items.fault = 0)
    (hdue : f.toNat ≤ T.toNat) (hq : s.items.queue = [oneShot h f y q]) : stepWith offer s = .next { s with
      items := { s.items with
        queue := [], now := f, cur := some { entry := oneShot h f y q, live := false }, phase := .callback T }
      history := s.history ++ [.fire h y f] } := by
  have hgone : removeHandle h s.items.queue = [] := by simp [hq, removeHandle, oneShot]
  have hfire : step s = .next (s.fireEvent T (oneShot h f y q)) :=
    step_fires_least hp hf (by simp [hq]) hdue (by simp [hq]) (by simp [oneShot])
  rw [stepWith_of_draining offer hp hf, ← step_of_draining hp hf, hfire, fireEvent_of_ext s T rfl, ← hgone]
  rfl

/-- SCHED of a one-shot event at delay 0, with room and a handle left, puts it into Q at `now` (R100, R119). -/
theorem exec_sched_delay_zero (hf : s.items.fault = 0) (y : Word)
    (hroom : ∀ n, s.cfg.queueCapacity = some n → s.items.occ < n) (hhandle : s.items.nextHandle.toNat + 1 < 2 ^ 64) :
    exec (.sched false 0 false 0 y) s = .next { s with
      items := { s.items with
        queue := insertEntry (oneShot s.items.nextHandle s.items.now y s.items.nextSeq) s.items.queue
        nextHandle := s.items.nextHandle + 1
        nextSeq := s.items.nextSeq + 1 }
      history := s.history ++ [.resp s.items.nextHandle] } := by
  have hnow : fireTime s.items.now false 0 = s.items.now.toNat := by simp [fireTime]
  have hlt := s.items.now.isLt
  rw [exec_sched_of_period hf (.inl ⟨rfl, rfl⟩), hnow, if_neg (by omega),
    if_neg (by simpa using roomFor_succ_iff.2 hroom), if_neg (by omega)]
  simp [State.insertNew, State.respond, oneShot]

/-- The client's answer to a firing: SCHED of delay 0 and CBDONE. -/
def chainingWords (y : Word) : List PortWord := [.w32 0x10000000, .w64 0, .w64 0, .w64 y, .w32 0x13000000]

/-- Such a client's SCHED puts its event into Q at `now` (R113). -/
theorem stepWith_chained_sched (hp : s.items.phase = .callback T) (hf : s.items.fault = 0)
    (hport : s.clientPort = .wordWide (chainingWords y)) (hroom : ∀ n, s.cfg.queueCapacity = some n → s.items.occ < n)
    (hhandle : s.items.nextHandle.toNat + 1 < 2 ^ 64) : stepWith offer s = .next { s with
      items := { s.items with
        queue := insertEntry (oneShot s.items.nextHandle s.items.now y s.items.nextSeq) s.items.queue
        nextHandle := s.items.nextHandle + 1
        nextSeq := s.items.nextSeq + 1 }
      clientPort := .wordWide [.w32 0x13000000]
      history := s.history ++ [.resp s.items.nextHandle] } := by
  have hd : decode s.clientPort = .command (.sched false 0 false 0 y) (.wordWide [.w32 0x13000000]) :=
    hport ▸ decode_encode (i := .sched false 0 false 0 y) rfl [.w32 0x13000000]
  rw [stepWith_client_command hp hd]
  exact exec_sched_delay_zero (s := { s with clientPort := .wordWide [.w32 0x13000000] }) hf y hroom hhandle

/-- The client's CBDONE at the front of its port ends the callback of an event that is not live (R110). -/
theorem stepWith_cbdone_of_dead {c : CurEvent} {ws : List PortWord} (hp : s.items.phase = .callback T)
    (hf : s.items.fault = 0) (hc : s.items.cur = some c) (hdead : c.live = false)
    (hport : s.clientPort = .wordWide (.w32 0x13000000 :: ws)) : stepWith offer s = .next { s with
      items := { s.items with cur := none, phase := .draining T }, clientPort := .wordWide ws } := by
  rw [stepWith_client_command hp (hport ▸ decode_cbdone ws)]
  exact (exec_cbdone_of_callback (s := { s with clientPort := .wordWide ws }) hf hp hc).trans
    (congrArg Host.Outcome.next (endCallback_of_dead hdead))

/-- The callback of a one-shot event, answered by such a client: in three steps its words are received, its event enters
Q at `now`, and the drain goes on. -/
theorem run_callback_answered (n : Nat) {c : CurEvent} (hoffer : ∀ n, (offer n).2 = chainingWords y)
    (hp : s.items.phase = .callback T) (hf : s.items.fault = 0) (hc : s.items.cur = some c) (hdead : c.live = false)
    (hport : s.clientPort = .wordWide []) (hroom : ∀ n, s.cfg.queueCapacity = some n → s.items.occ < n)
    (hhandle : s.items.nextHandle.toNat + 1 < 2 ^ 64) :
    (coreWith offer).run (n + 3) s = (coreWith offer).run n { s with
      items := { s.items with
        queue := insertEntry (oneShot s.items.nextHandle s.items.now y s.items.nextSeq) s.items.queue
        nextHandle := s.items.nextHandle + 1
        nextSeq := s.items.nextSeq + 1
        cur := none
        phase := .draining T }
      hostPort := s.hostPort.offer (offer s.offers).1
      clientPort := .wordWide []
      offers := s.offers + 1
      history := s.history ++ [.resp s.items.nextHandle] } := by
  have hwait : s.takeCommand = .wait :=
    (takeCommand_of_callback hp hf).trans (takeFromClient_of_incomplete (by rw [hport]; rfl))
  have hreceive := stepWith_callback_wait hp hwait (by rw [hoffer]; simp [chainingWords])
  rw [hoffer, hport] at hreceive
  refine (runWith_succ_of_step _ hreceive).trans ?_
  refine Eq.trans (runWith_succ_of_step _ (stepWith_chained_sched hp hf rfl hroom hhandle)) ?_
  exact runWith_succ_of_step _ (stepWith_cbdone_of_dead hp hf hc hdead rfl)

/-- A drain in which one due one-shot event is alone in Q, beside a client with nothing offered, room for one event and
handles for `k` more. -/
structure Cascading (T f y : Word) (k : Nat) (h : Word) (s : State) : Prop where
  phase : s.items.phase = .draining T
  unfaulted : s.items.fault = 0
  due : f.toNat ≤ T.toNat
  queue : ∃ q, s.items.queue = [oneShot h f y q]
  client : s.clientPort = .wordWide []
  room : ∀ n, s.cfg.queueCapacity = some n → 1 ≤ n
  handles : s.items.nextHandle.toNat + k < 2 ^ 64

/-- One round of the cascade is four steps: the firing, and the three that answer it. The next event has the same time
and the next handle. -/
theorem Cascading.run_round (hoffer : ∀ n, (offer n).2 = chainingWords y) {k : Nat} {h : Word}
    (hs : Cascading T f y (k + 1) h s) :
    ∃ u : State, (∀ n, (coreWith offer).run (n + 4) s = (coreWith offer).run n u) ∧
      Cascading T f y k s.items.nextHandle u ∧ u.firePort = s.firePort ++ [(h, y, f)] ∧ u.donePort = s.donePort := by
  obtain ⟨hp, hf, hdue, ⟨q, hq⟩, hport, hroom, hhandles⟩ := hs
  have hlast : s.items.nextHandle.toNat + 1 < 2 ^ 64 := by omega
  refine ⟨_, fun n => Eq.trans (runWith_succ_of_step _ (stepWith_oneShot_fires hp hf hdue hq))
      (run_callback_answered n hoffer rfl hf rfl rfl hport hroom hlast),
    ⟨rfl, hf, hdue, ⟨_, rfl⟩, rfl, hroom, ?_⟩, ?_, ?_⟩
  · exact (congrArg (· + k) (toNat_add_one hlast)).trans_lt (by omega)
  · simp [State.firePort]
  · simp [State.donePort]

/-- As many rounds run as there are handles for them, all at the one time. -/
theorem Cascading.run_rounds (hoffer : ∀ n, (offer n).2 = chainingWords y) (k : Nat) {h : Word}
    (hs : Cascading T f y k h s) :
    ∃ (t : State) (h' : Word) (hs : List Word), (coreWith offer).run (4 * k) s = .next t ∧ hs.length = k ∧
      Cascading T f y 0 h' t ∧ t.firePort = s.firePort ++ hs.map (fun x => (x, y, f)) ∧ t.donePort = s.donePort := by
  induction k generalizing s h with
  | zero => exact ⟨s, h, [], rfl, rfl, hs, by simp, rfl⟩
  | succ k ih =>
    obtain ⟨u, hrun, hu, hfire, hdone⟩ := hs.run_round hoffer
    obtain ⟨t, h', hs, hrun', hlen, ht, hfire', hdone'⟩ := ih hu
    exact ⟨t, h', h :: hs, (hrun (4 * k)).trans hrun', congrArg Nat.succ hlen, ht, by simp [hfire', hfire],
      hdone'.trans hdone⟩

end

/-- Settles O60: the cascade by the number of its rounds, the callback by the cases of a step and by what holds it
open. -/
theorem cascadesAreNotCutOff : Obligations.CascadesAreNotCutOff := by
  refine ⟨?_, fun offer s t T hp hact hstep => stepWith_keeps_callback hp hact hstep, ?_⟩
  · intro k offer s T h f y q hp hf hdue hq hport hoffer hroom hhandles
    have hs : Cascading T f y k h s := ⟨hp, hf, hdue, ⟨q, hq⟩, hport, hroom, hhandles⟩
    obtain ⟨t, h', hs, hrun, hlen, ht, hfire, hdone⟩ := hs.run_rounds hoffer
    obtain ⟨q', hq'⟩ := ht.queue
    exact ⟨t, h', q', hs, hrun, hlen, hfire, hdone, ht.phase, hq'⟩
  · intro k offer s T first is hp hport hfirst his hoffer
    have hs : HeldOpen T s := ⟨hp, first, hport, hfirst⟩
    obtain ⟨t, hrun, hphase, -⟩ := exists_run_of_step (fun _ hs => hs.step his hoffer) k hs
    exact ⟨t, hrun, hphase⟩

end Sys2Proof.Machine
end
